-- ==== Sys2Proof/Word.lean ====
section
/-! DEFINITION. The word types of HUFFBLK: commands, symbols, node indices, bit counts. -/

namespace Sys2Proof

/-- A command word or a response's data (30_encoding R60, R62). -/
abbrev Word := BitVec 32

/-- A byte of PAY or OUT (20_memory R44). -/
abbrev Byte := BitVec 8

/-- A symbol: an unsigned byte value 0..255 (00_scope R1). -/
abbrev Sym := BitVec 8

/-- The index of a node of TN, 0..511 (10_state R20). -/
abbrev NodeIdx := BitVec 9

/-- A bit count, 64 bits wide (00_scope R3). -/
abbrev Count := BitVec 64

end Sys2Proof
end

