-- ==== Sys2Proof/Syntax.lean ====
section
/-! DEFINITION. The 26 commands of HUFFBLK with their operands assembled, and the names of the sixteen registers. -/

namespace Sys2Proof

/-- The sixteen registers RDREG reads, in the order of their numbers 0..15 (10_state R32). -/
inductive Reg where
  | status | einfo | ebitsLo | ebitsHi | tbcinLo | tbcinHi | dbitsLo | dbitsHi
  | dposLo | dposHi | payLen | outLen | packSt | treeSt | payCap | outCap
  deriving DecidableEq, Repr

/-- The commands of the command table (30_encoding R64), one constructor per row. Operands stand in the order of the
assembler's text (30_encoding R68). -/
inductive Instr where
  /-- SRESET (45_readout_system R144) -/
  | sreset
  /-- RDREG r (45_readout_system R143) -/
  | rdreg (r : Reg)
  /-- CTCLR (40_config R80) -/
  | ctclr
  /-- CTLEN sym, len (40_config R81) -/
  | ctlen (sym : Sym) (len : BitVec 8)
  /-- CTBIT sym, idx, b (40_config R82) -/
  | ctbit (sym : Sym) (idx : BitVec 8) (b : Bool)
  /-- CTRD sym, idx (40_config R83) -/
  | ctrd (sym : Sym) (idx : BitVec 8)
  /-- TCLR (40_config R84) -/
  | tclr
  /-- TLEAF idx, sym (40_config R85) -/
  | tleaf (idx : NodeIdx) (sym : Sym)
  /-- TINT idx (40_config R86) -/
  | tint (idx : NodeIdx)
  /-- TSNGL idx (40_config R87) -/
  | tsngl (idx : NodeIdx)
  /-- TLEFT idx, child (40_config R88) -/
  | tleft (idx child : NodeIdx)
  /-- TRIGHT idx, child (40_config R89) -/
  | tright (idx child : NodeIdx)
  /-- TROOT idx (40_config R90) -/
  | troot (idx : NodeIdx)
  /-- TRD idx (40_config R91) -/
  | trd (idx : NodeIdx)
  /-- PCLR (41_bitpacker R102) -/
  | pclr
  /-- PBITS n, v: `n` is the number of bits pushed, 1..16, which the word holds as `cnt = n - 1`
  (41_bitpacker R101, 30_encoding R63) -/
  | pbits (n : BitVec 5) (v : BitVec 16)
  /-- PFLUSH (41_bitpacker R103) -/
  | pflush
  /-- ESYM sym (42_encoder R110) -/
  | esym (sym : Sym)
  /-- PAYW byte (45_readout_system R140) -/
  | payw (byte : Byte)
  /-- PAYR idx (45_readout_system R141) -/
  | payr (idx : BitVec 24)
  /-- OUTR idx (45_readout_system R142) -/
  | outr (idx : BitVec 24)
  /-- DCNT k, imm (43_bitunpacker R122) -/
  | dcnt (k : BitVec 2) (imm : BitVec 16)
  /-- DSTART (43_bitunpacker R121) -/
  | dstart
  /-- UBIT (43_bitunpacker R123) -/
  | ubit
  /-- DSTEP (44_decoder R131) -/
  | dstep
  /-- DRUN (44_decoder R132) -/
  | drun
  deriving DecidableEq, Repr

end Sys2Proof
end

