-- ==== Sys2Proof/WellFormed.lean ====
section
/-! DEFINITION. Which terms of Instr are commands: every operand range of 30_encoding R62 and R63 that the operand's
type does not already say. -/

namespace Sys2Proof

/-- Every field value of a legal word is legal (30_encoding R65), and the operand types have the fields' widths; the one
operand whose type is wider than its range is PBITS's bit count, 1..16 (30_encoding R63: "a zero-length push cannot be
encoded"). -/
def Instr.wellFormed : Instr → Bool
  | .pbits n _ => decide (1 ≤ n.toNat) && decide (n.toNat ≤ 16)
  | .sreset | .rdreg _ | .ctclr | .ctlen _ _ | .ctbit _ _ _ | .ctrd _ _ | .tclr | .tleaf _ _ | .tint _ | .tsngl _
  | .tleft _ _ | .tright _ _ | .troot _ | .trd _ | .pclr | .pflush | .esym _ | .payw _ | .payr _ | .outr _ | .dcnt _ _
  | .dstart | .ubit | .dstep | .drun => true

end Sys2Proof
end

