-- ==== Sys2Proof/Decode.lean ====
section
/-! DEFINITION. The command table, the decoder (total on 32-bit words, rejecting by name) and the encoder, written from
30_encoding R62 to R65. -/

namespace Sys2Proof

/-- The eleven formats (30_encoding R62). -/
inductive Format where
  | z | r | s | sl | sb | n | ns | nc | b | i | k
  deriving DecidableEq, Repr

/-- The rows of the command table (30_encoding R64). -/
inductive Op where
  | sreset | rdreg | ctclr | ctlen | ctbit | ctrd | tclr | tleaf | tint | tsngl | tleft | tright | troot | trd
  | pclr | pbits | pflush | esym | payw | payr | outr | dcnt | dstart | ubit | dstep | drun
  deriving DecidableEq, Repr

/-- The must-be-zero bits of a format (30_encoding R62, third column). -/
def Format.mbz : Format → Word
  | .z  => 0x03FFFFFF   -- [25:0]
  | .r  => 0x03FFFFF0   -- [25:4]
  | .s  => 0x03FFFF00   -- [25:8]
  | .sl => 0x03FF0000   -- [25:16]
  | .sb => 0x03FE0000   -- [25:17]
  | .n  => 0x03FFFE00   -- [25:9]
  | .ns => 0x03FE0000   -- [25:17]
  | .nc => 0x03FC0000   -- [25:18]
  | .b  => 0x03F00000   -- [25:20]
  | .i  => 0x03000000   -- [25:24]
  | .k  => 0x03FC0000   -- [25:18]

/-- The table's rows in its order. -/
def Op.all : List Op :=
  [.sreset, .rdreg, .ctclr, .ctlen, .ctbit, .ctrd, .tclr, .tleaf, .tint, .tsngl, .tleft, .tright, .troot, .trd,
   .pclr, .pbits, .pflush, .esym, .payw, .payr, .outr, .dcnt, .dstart, .ubit, .dstep, .drun]

/-- The table's columns op and format (30_encoding R64). -/
def Op.row : Op → BitVec 6 × Format
  | .sreset => (0x01, .z)
  | .rdreg  => (0x02, .r)
  | .ctclr  => (0x08, .z)
  | .ctlen  => (0x09, .sl)
  | .ctbit  => (0x0A, .sb)
  | .ctrd   => (0x0B, .sl)
  | .tclr   => (0x0C, .z)
  | .tleaf  => (0x0D, .ns)
  | .tint   => (0x0E, .n)
  | .tsngl  => (0x0F, .n)
  | .tleft  => (0x10, .nc)
  | .tright => (0x11, .nc)
  | .troot  => (0x12, .n)
  | .trd    => (0x13, .n)
  | .pclr   => (0x18, .z)
  | .pbits  => (0x19, .b)
  | .pflush => (0x1A, .z)
  | .esym   => (0x1C, .s)
  | .payw   => (0x20, .s)
  | .payr   => (0x21, .i)
  | .outr   => (0x22, .i)
  | .dcnt   => (0x28, .k)
  | .dstart => (0x29, .z)
  | .ubit   => (0x2A, .z)
  | .dstep  => (0x2B, .z)
  | .drun   => (0x2C, .z)

/-- The 6-bit opcode of a row. -/
def Op.code (o : Op) : BitVec 6 := o.row.1

/-- The format of a row. -/
def Op.format (o : Op) : Format := o.row.2

/-- match: "`match` is `op << 26`" (30_encoding R64). -/
def Op.matchWord (o : Op) : Word := o.code.setWidth 32 <<< 26

/-- mask: "`0xFC000000` plus the format's must-be-zero bits" (30_encoding R64). -/
def Op.mask (o : Op) : Word := 0xFC000000 ||| o.format.mbz

/-- The row with a given opcode, none if there is none (30_encoding R65). -/
def Op.ofCode (c : BitVec 6) : Option Op := Op.all.find? (fun o => o.code == c)

/-- The registers in the order of their numbers (10_state R32). -/
def Reg.all : List Reg :=
  [.status, .einfo, .ebitsLo, .ebitsHi, .tbcinLo, .tbcinHi, .dbitsLo, .dbitsHi,
   .dposLo, .dposHi, .payLen, .outLen, .packSt, .treeSt, .payCap, .outCap]

/-- The number `r` of a register (10_state R32). -/
def Reg.number : Reg → BitVec 4
  | .status => 0 | .einfo => 1 | .ebitsLo => 2 | .ebitsHi => 3 | .tbcinLo => 4 | .tbcinHi => 5 | .dbitsLo => 6
  | .dbitsHi => 7 | .dposLo => 8 | .dposHi => 9 | .payLen => 10 | .outLen => 11 | .packSt => 12 | .treeSt => 13
  | .payCap => 14 | .outCap => 15

/-- The register with number `r`: "all sixteen values of `r` are defined" (45_readout_system R143). -/
def Reg.ofNumber (r : BitVec 4) : Reg := Reg.all.getD r.toNat .status

/-- What decoding a word gives: a command, or the reason the word is illegal (30_encoding R65). -/
inductive Decoded where
  /-- the word is this command -/
  | ok (i : Instr)
  /-- the opcode is not one of the 26 -/
  | unknownOpcode (c : BitVec 6)
  /-- the opcode is this row's, and a must-be-zero bit of its format is 1 -/
  | mustBeZero (o : Op)
  deriving DecidableEq, Repr

/-- Operand assembly (30_encoding R62, R63): the fields of a word of row `o`. -/
def assemble (o : Op) (w : Word) : Instr :=
  match o with
  | .sreset => .sreset
  | .rdreg  => .rdreg (Reg.ofNumber (w.extractLsb' 0 4))
  | .ctclr  => .ctclr
  | .ctlen  => .ctlen (w.extractLsb' 8 8) (w.extractLsb' 0 8)
  | .ctbit  => .ctbit (w.extractLsb' 8 8) (w.extractLsb' 0 8) (w.getLsbD 16)
  | .ctrd   => .ctrd (w.extractLsb' 8 8) (w.extractLsb' 0 8)
  | .tclr   => .tclr
  | .tleaf  => .tleaf (w.extractLsb' 0 9) (w.extractLsb' 9 8)
  | .tint   => .tint (w.extractLsb' 0 9)
  | .tsngl  => .tsngl (w.extractLsb' 0 9)
  | .tleft  => .tleft (w.extractLsb' 0 9) (w.extractLsb' 9 9)
  | .tright => .tright (w.extractLsb' 0 9) (w.extractLsb' 9 9)
  | .troot  => .troot (w.extractLsb' 0 9)
  | .trd    => .trd (w.extractLsb' 0 9)
  | .pclr   => .pclr
  | .pbits  => .pbits ((w.extractLsb' 16 4).setWidth 5 + 1) (w.extractLsb' 0 16)
  | .pflush => .pflush
  | .esym   => .esym (w.extractLsb' 0 8)
  | .payw   => .payw (w.extractLsb' 0 8)
  | .payr   => .payr (w.extractLsb' 0 24)
  | .outr   => .outr (w.extractLsb' 0 24)
  | .dcnt   => .dcnt (w.extractLsb' 16 2) (w.extractLsb' 0 16)
  | .dstart => .dstart
  | .ubit   => .ubit
  | .dstep  => .dstep
  | .drun   => .drun

/-- The decoder (30_encoding R64, R65): the opcode in bits 31:26 selects a row, the row's must-be-zero bits are checked. -/
def decode (w : Word) : Decoded :=
  match Op.ofCode (w.extractLsb' 26 6) with
  | none => .unknownOpcode (w.extractLsb' 26 6)
  | some o => if w &&& o.format.mbz = 0 then .ok (assemble o w) else .mustBeZero o

/-- The table's row of a command. -/
def Instr.op : Instr → Op
  | .sreset => .sreset | .rdreg _ => .rdreg | .ctclr => .ctclr | .ctlen _ _ => .ctlen | .ctbit _ _ _ => .ctbit
  | .ctrd _ _ => .ctrd | .tclr => .tclr | .tleaf _ _ => .tleaf | .tint _ => .tint | .tsngl _ => .tsngl
  | .tleft _ _ => .tleft | .tright _ _ => .tright | .troot _ => .troot | .trd _ => .trd | .pclr => .pclr
  | .pbits _ _ => .pbits | .pflush => .pflush | .esym _ => .esym | .payw _ => .payw | .payr _ => .payr
  | .outr _ => .outr | .dcnt _ _ => .dcnt | .dstart => .dstart | .ubit => .ubit | .dstep => .dstep | .drun => .drun

/-- The operand fields of a command's word (30_encoding R62, R63; the encoding line of each command's rule). -/
def Instr.fields : Instr → Word
  | .sreset | .ctclr | .tclr | .pclr | .pflush | .dstart | .ubit | .dstep | .drun => 0
  | .rdreg r => r.number.setWidth 32
  | .ctlen sym len => (sym.setWidth 32 <<< 8) ||| len.setWidth 32
  | .ctbit sym idx b => ((BitVec.ofBool b).setWidth 32 <<< 16) ||| (sym.setWidth 32 <<< 8) ||| idx.setWidth 32
  | .ctrd sym idx => (sym.setWidth 32 <<< 8) ||| idx.setWidth 32
  | .tleaf idx sym => (sym.setWidth 32 <<< 9) ||| idx.setWidth 32
  | .tint idx | .tsngl idx | .troot idx | .trd idx => idx.setWidth 32
  | .tleft idx child | .tright idx child => (child.setWidth 32 <<< 9) ||| idx.setWidth 32
  | .pbits n v => (((n - 1).setWidth 4).setWidth 32 <<< 16) ||| v.setWidth 32
  | .esym sym => sym.setWidth 32
  | .payw byte => byte.setWidth 32
  | .payr idx | .outr idx => idx.setWidth 32
  | .dcnt k imm => (k.setWidth 32 <<< 16) ||| imm.setWidth 32

/-- The encoder: the row's match word and the operand fields. -/
def encode (i : Instr) : Word := i.op.matchWord ||| i.fields

/-- The instruction the decoder reads from an instruction whose bits are `w`, numbered as spec/opcode_table.json numbers
them. Every command is one 32-bit word (30_encoding R62), so the bits above `nbits` are 0. -/
def decodeTableWord (nbits w : Nat) : Option Instr :=
  match decode (BitVec.ofNat 32 (w % 2 ^ nbits)) with
  | .ok i => some i
  | .unknownOpcode _ => none
  | .mustBeZero _ => none

end Sys2Proof
end

