-- ==== Sys2Proof/Machine/Bits.lean ====
section
/-! DEFINITION. Bit-field helpers: writing one bit, listing bits, placing a 16-bit slice, the low half of a count. -/

namespace Sys2Proof.Machine

/-- `v` with bit `i` set to `b` (00_scope section 5, `w[i]`); an `i` past the width changes nothing. -/
def setBit {n : Nat} (v : BitVec n) (i : Nat) (b : Bool) : BitVec n :=
  if b then v ||| BitVec.twoPow n i else v &&& ~~~ BitVec.twoPow n i

/-- `v[n-1], v[n-2], …, v[0]`: the bits PBITS pushes, first first (30_encoding R63 (a)). -/
def bitsDown {w : Nat} (v : BitVec w) : Nat → List Bool
  | 0 => []
  | n + 1 => v.getLsbD n :: bitsDown v n

/-- `v` with bits `[16k+15 : 16k]` replaced by `imm` (30_encoding R63 (b), 20_memory R42). -/
def setSlice (v : Count) (k : BitVec 2) (imm : BitVec 16) : Count :=
  (v &&& ~~~ ((0xFFFF : Count) <<< (16 * k.toNat))) ||| (imm.setWidth 64 <<< (16 * k.toNat))

/-- Bits 31:0 of a count: what EINFO keeps of a position (60_exceptions R180) and a `_LO` register shows (10_state R32). -/
def low32 (c : Count) : Word := c.extractLsb' 0 32

/-- Bits 63:32 of a count: what a `_HI` register shows (10_state R32). -/
def high32 (c : Count) : Word := c.extractLsb' 32 32

end Sys2Proof.Machine
end

