-- ==== Sys2Proof/Config.lean ====
section
/-! DEFINITION. The parameters of HUFFBLK (00_scope R1, R2, R4) and the one value of the host's side that the spec
leaves open. -/

namespace Sys2Proof

/-- NSYM: the number of symbols (00_scope R1). -/
def Config.nsym : Nat := 256

/-- MAXLEN: the longest code in bits (00_scope R2). -/
def Config.maxLen : Nat := 255

/-- NNODES: the number of nodes of TN (00_scope R4). -/
def Config.nnodes : Nat := 512

/-- The largest capacity a buffer may have, 2^24 bytes (00_scope R4). -/
def Config.capMax : Nat := 16777216

/-- The PAY_CAP that State.reset holds. OPEN in 00_scope R4 (1..2^24); 64 is what 95_test_vectors assumes.
DESIGN CHOICE, log entry 2: unsafe for a statement about State.reset alone; statements are about every state, and so about
every capacity. -/
def Config.payCap : BitVec 25 := 64

/-- The OUT_CAP that State.reset holds. DESIGN CHOICE, log entry 2, as for `Config.payCap`. -/
def Config.outCap : BitVec 25 := 64

/-- Host side only: what a container's 4-byte frequency field holds for a count of 2^32 or more, on which the source is
silent (47_host_reference R161, 91_not_in_source section 6). A free value: log entry 8. -/
opaque Config.countField : Nat → BitVec 32

end Sys2Proof
end

