-- ==== Sys2Proof/Machine/State.lean ====
section
/-! DEFINITION. The state of HUFFBLK (10_state.md), as plain data, its reset value, and the reasons a step can stop. -/

namespace Sys2Proof.Machine

/-- One byte buffer: (index, byte) pairs in canonical form, indices strictly rising and no byte equal to what an unlisted
index reads as (00, log entry 3). -/
abbrev Memory := List Host.Cell

/-- One entry of CT (10_state R10). `code.getLsbD i` is the spec's `code[i]`, the bit emitted at position `i`. -/
structure CodeEntry where
  len  : BitVec 8
  code : BitVec 256
  deriving DecidableEq, Repr

/-- The entry of a symbol with no code, all of whose bits are 0: every entry at reset (10_state R36). -/
def CodeEntry.empty : CodeEntry := ⟨0, 0⟩

/-- The kind of a node (10_state R20, R22). -/
inductive NodeKind where
  | invalid | leaf | internal | single
  deriving DecidableEq, Repr

/-- A pointer: NULL or the node it names (10_state R21). A NULL pointer has `idx = 0`, so the two are all there is. -/
inductive Ptr where
  | null
  | node (i : NodeIdx)
  deriving DecidableEq, Repr

/-- One node of TN (10_state R20). -/
structure Node where
  kind  : NodeKind
  sym   : Sym
  left  : Ptr
  right : Ptr
  deriving DecidableEq, Repr

/-- A node nothing was written to: every node at reset (10_state R36). -/
def Node.empty : Node := ⟨.invalid, 0, .null, .null⟩

/-- The status of a response (30_encoding R66). -/
inductive Status where
  | ok | ended | fault | refused
  deriving DecidableEq, Repr

/-- A response: a status and a data word (30_encoding R60, R66). -/
structure Response where
  st   : Status
  data : Word
  deriving DecidableEq, Repr

/-- What the host does next at the block's port (log entry 1). -/
inductive Input where
  /-- it presents a command word (30_encoding R60) -/
  | command (w : Word)
  /-- it asserts `rst`, between commands or while the block executes the word `during` (70_reset R200, R201) -/
  | reset (during : Option Word)
  deriving DecidableEq, Repr

/-- The seven faults of the block (60_exceptions R180). They are states of the machine, not stops of the model. -/
inductive Cause where
  | corruptCodeTable | corruptStreamNoChild | corruptStreamTail | payloadShort | bufferFull | illegalCommand | badIndex
  deriving DecidableEq, Repr

/-- The state of the block (10_state, section 1), the two capacities, and the model's own two fields for the host's side
of the port. -/
structure State where
  /-- CT: (symbol, entry) pairs in canonical form; an unlisted symbol has `CodeEntry.empty` (R10, R36) -/
  ct     : List (Nat × CodeEntry)
  /-- TN: (index, node) pairs in canonical form; an unlisted node is `Node.empty` (R20, R36) -/
  tn     : List (Nat × Node)
  /-- ROOT (R23) -/
  root   : Ptr
  /-- ACC, the packer's partial byte (R25) -/
  acc    : BitVec 8
  /-- NB, how many bits of ACC are filled (R25) -/
  nb     : BitVec 3
  /-- EBITS, the length of the BitString built so far (R26) -/
  ebits  : Count
  /-- PAY, the payload buffer (R34) -/
  pay    : Memory
  /-- PAYLEN (R34) -/
  payLen : BitVec 25
  /-- TBCIN, the staged bit count (R27) -/
  tbcin  : Count
  /-- DBITS, the bit count in force (R27) -/
  dbits  : Count
  /-- DPOS, the unpacker's cursor (R27) -/
  dpos   : Count
  /-- CUR, the decoder's cursor (R29) -/
  cur    : Ptr
  /-- OUT, the output buffer (R35) -/
  out    : Memory
  /-- OUTLEN (R35) -/
  outLen : BitVec 25
  /-- ERR, the cause code of the first fault since reset, 0 for none (R30) -/
  err    : BitVec 8
  /-- EINFO (R30) -/
  einfo  : BitVec 32
  /-- the parameter PAY_CAP, read as register 14 (00_scope R4, 10_state R32); no step writes it (log entry 2) -/
  payCap : BitVec 25
  /-- the parameter OUT_CAP, read as register 15 (00_scope R4, 10_state R32); no step writes it (log entry 2) -/
  outCap : BitVec 25
  /-- MODEL's own: what the host will do at the port, first first (log entry 1) -/
  inputs : List Input
  /-- MODEL's own: the last response given, none since a hardware reset (log entry 1) -/
  rsp    : Option Response
  deriving DecidableEq, Repr

/-- Why the model's machine would stop with a fault. It never does: "Nothing in the block is `stuck`"
(93_implementation_defined section 3), and a fault of the block is a next state (60_exceptions R184). -/
inductive Fault where
  deriving DecidableEq, Repr

/-- Why a command would have no meaning in the model. -/
inductive Refusal where
  /-- Raised by an arm of exec whose command is not modelled. No arm does. Safe: the model stops. -/
  | notModelled (mnemonic : String)
  deriving DecidableEq, Repr

/-- The reset state (10_state R36) of a block with the given capacities: tables empty, pointers NULL, every register 0,
both buffers empty. -/
def State.resetFor (payCap outCap : BitVec 25) : State where
  ct := []
  tn := []
  root := .null
  acc := 0
  nb := 0
  ebits := 0
  pay := []
  payLen := 0
  tbcin := 0
  dbits := 0
  dpos := 0
  cur := .null
  out := []
  outLen := 0
  err := 0
  einfo := 0
  payCap := payCap
  outCap := outCap
  inputs := []
  rsp := none

/-- The machine right after hardware reset (10_state R36, 70_reset R200), with the capacities of log entry 2: the block
waits for its first command. -/
def State.reset : State := State.resetFor Config.payCap Config.outCap

end Sys2Proof.Machine
end

