-- ==== Sys2Proof/Machine/Ops.lean ====
section
/-! DEFINITION. The named operations every command is built from: the four stores, responses, raising a fault, the
fault state, reset, fetching at the port, the packer's step. -/

namespace Sys2Proof.Machine

/-! ## Stores: sorted lists of (index, element) pairs with a default element -/

/-- The element at index `a`; an unlisted index holds the default `d`. -/
def Cells.read {α : Type} (d : α) : List (Nat × α) → Nat → α
  | [], _ => d
  | (k, v) :: m, a => if k = a then v else Cells.read d m a

/-- The store with element `v` at index `a`. Writing the default removes the entry, so equal stores are equal lists. -/
def Cells.write {α : Type} [DecidableEq α] (d : α) : List (Nat × α) → Nat → α → List (Nat × α)
  | [], a, v => if v = d then [] else [(a, v)]
  | (k, u) :: m, a, v =>
    if k = a then (if v = d then m else (a, v) :: m)
    else if a < k then (if v = d then (k, u) :: m else (a, v) :: (k, u) :: m)
    else (k, u) :: Cells.write d m a v

/-- Canonical from index `lo` on: indices strictly rising from `lo`, no element equal to the default. -/
def Cells.wfFrom {α : Type} [DecidableEq α] (d : α) : Nat → List (Nat × α) → Bool
  | _, [] => true
  | lo, (k, v) :: m => decide (lo ≤ k) && !decide (v = d) && Cells.wfFrom d (k + 1) m

/-- The canonical form of a store. -/
def Cells.wf {α : Type} [DecidableEq α] (d : α) (m : List (Nat × α)) : Bool := Cells.wfFrom d 0 m

/-- Every listed index is below `n`. -/
def Cells.below {α : Type} (n : Nat) (m : List (Nat × α)) : Bool := m.all (fun c => decide (c.1 < n))

/-- What an index that a buffer does not list reads as. The spec gives such a byte no value and lets no command read it
(10_state R34, R36; 93_implementation_defined V1). DESIGN CHOICE, log entry 3. -/
def Memory.unlisted : Byte := 0

/-- The byte at index `i` of a buffer. -/
def Memory.read (m : Memory) (i : Nat) : Byte := Cells.read Memory.unlisted m i

/-- The buffer with byte `b` at index `i`. -/
def Memory.write (m : Memory) (i : Nat) (b : Byte) : Memory := Cells.write Memory.unlisted m i b

/-- The canonical form of a buffer. -/
def Memory.wf (m : Memory) : Bool := Cells.wf Memory.unlisted m

/-- `PAY[i]` (00_scope section 5, MemRead). -/
def payByte (s : State) (i : Nat) : Byte := s.pay.read i

/-- `OUT[i]`. -/
def outByte (s : State) (i : Nat) : Byte := s.out.read i

/-- `CT[sym]` (10_state R10). -/
def ctEntry (s : State) (sym : Sym) : CodeEntry := Cells.read CodeEntry.empty s.ct sym.toNat

/-- `CT[sym] <- e`. -/
def setCtEntry (sym : Sym) (e : CodeEntry) (s : State) : State :=
  { s with ct := Cells.write CodeEntry.empty s.ct sym.toNat e }

/-- `TN[i]` (10_state R20). -/
def tnNode (s : State) (i : NodeIdx) : Node := Cells.read Node.empty s.tn i.toNat

/-- `TN[i] <- n`. -/
def setTnNode (i : NodeIdx) (n : Node) (s : State) : State :=
  { s with tn := Cells.write Node.empty s.tn i.toNat n }

/-- `PAY[PAYLEN] <- b ; PAYLEN <- PAYLEN + 1` (10_state R33: PAYLEN is the only writable position). -/
def appendPay (b : Byte) (s : State) : State :=
  { s with pay := s.pay.write s.payLen.toNat b, payLen := s.payLen + 1 }

/-- `OUT[OUTLEN] <- b ; OUTLEN <- OUTLEN + 1` (10_state R33). -/
def appendOut (b : Byte) (s : State) : State :=
  { s with out := s.out.write s.outLen.toNat b, outLen := s.outLen + 1 }

/-! ## Codes of the spec's names -/

/-- The 2-bit status value (30_encoding R66). -/
def Status.code : Status → BitVec 2
  | .ok => 0
  | .ended => 1
  | .fault => 2
  | .refused => 3

/-- The 8-bit cause code (60_exceptions R180). -/
def Cause.code : Cause → BitVec 8
  | .corruptCodeTable => 0x01
  | .corruptStreamNoChild => 0x02
  | .corruptStreamTail => 0x03
  | .payloadShort => 0x04
  | .bufferFull => 0x05
  | .illegalCommand => 0x06
  | .badIndex => 0x07

/-- The cause with a code, none for 0x00 and 0x08 to 0xFF (60_exceptions R180). -/
def Cause.ofCode (c : BitVec 8) : Option Cause :=
  ([.corruptCodeTable, .corruptStreamNoChild, .corruptStreamTail, .payloadShort, .bufferFull, .illegalCommand, .badIndex] :
    List Cause).find? (fun x => x.code == c)

/-- The source's error classes (47_host_reference R167). -/
inductive ErrorClass where
  | ioError | formatError | corruptCodeTable | corruptStream
  deriving DecidableEq, Repr

/-- How a host reports a cause in the source's words; none: no counterpart there (60_exceptions R190). -/
def Cause.errorClass : Cause → Option ErrorClass
  | .corruptCodeTable => some .corruptCodeTable
  | .corruptStreamNoChild => some .corruptStream
  | .corruptStreamTail => some .corruptStream
  | .payloadShort => some .formatError
  | .bufferFull => none
  | .illegalCommand => none
  | .badIndex => none

/-- The 2-bit kind (10_state R20). -/
def NodeKind.code : NodeKind → BitVec 2
  | .invalid => 0
  | .leaf => 1
  | .internal => 2
  | .single => 3

/-- A pointer as the 10-bit word `{v, idx}` (10_state R21). -/
def Ptr.word : Ptr → BitVec 10
  | .null => 0
  | .node i => 0x200 ||| i.setWidth 10

/-! ## Responses, faults, the fault state -/

/-- `respond(st, d)` (00_scope section 5, 30_encoding R66). -/
def respond (st : Status) (d : Word) (s : State) : State := { s with rsp := some ⟨st, d⟩ }

/-- `raise F(info)`, the one way a fault is entered (60_exceptions R184): ERR and EINFO are written and the response is
`(FAULT, zext_32(code(F)))`; nothing else changes. -/
def raise (c : Cause) (info : Word) (s : State) : State :=
  respond .fault (c.code.setWidth 32) { s with err := c.code, einfo := info }

/-- The response to any command but RDREG and SRESET in the fault state: `(REFUSED, 0)`, no state changes
(60_exceptions R186). -/
def refuse (s : State) : State := respond .refused 0 s

/-- A command that the fault state refuses (30_encoding R67, steps 1 and 3): refused while `ERR ≠ 0`, else its rule. -/
def command (s : State) (rule : State → State) : Host.Outcome State Fault Refusal :=
  .next (if s.err = 0 then rule s else refuse s)

/-- A command that the fault state lets through: RDREG and SRESET (30_encoding R67, 60_exceptions R186). -/
def alwaysCommand (s : State) (rule : State → State) : Host.Outcome State Fault Refusal := .next (rule s)

/-- An illegal word (30_encoding R65, R67): refused in the fault state, else ILLEGAL_COMMAND with the word. -/
def illegalCommand (w : Word) (s : State) : Host.Outcome State Fault Refusal :=
  command s (raise .illegalCommand w)

/-! ## Reset and the port -/

/-- The return from the fault state, and the only one (60_exceptions R188): everything at the reset state of 10_state R36;
the capacities and what the host will do next are not the block's to reset. No response has been given. -/
def toReset (s : State) : State := { State.resetFor s.payCap s.outCap with inputs := s.inputs }

/-- What stands at the port for the next step. -/
inductive Fetched where
  | idle
  | command (w : Word) (s : State)
  | reset (s : State)
  deriving DecidableEq, Repr

/-- Take the host's next input (30_encoding R60): the word and the state with it taken. A reset during a command abandons
the command, which leaves no trace (70_reset R201). With no input the block waits (70_reset R200). -/
def fetch (s : State) : Fetched :=
  match s.inputs with
  | [] => .idle
  | .command w :: rest => .command w { s with inputs := rest }
  | .reset _ :: rest => .reset { s with inputs := rest }

/-- Present a word as the host's very next command. -/
def present (w : Word) (s : State) : State := { s with inputs := .command w :: s.inputs }

/-! ## The packer's step -/

/-- `PushBit(b)` (41_bitpacker R100). -/
def pushBit (b : Bool) (s : State) : State :=
  if s.nb = 7 then
    { appendPay (setBit s.acc (7 - s.nb.toNat) b) s with acc := 0, nb := 0 }
  else
    { s with acc := setBit s.acc (7 - s.nb.toNat) b, nb := s.nb + 1 }

/-- PushBit for each bit of a sequence, first first. -/
def pushBits : List Bool → State → State
  | [], s => s
  | b :: bs, s => pushBits bs (pushBit b s)

/-- Push a sequence whose room in PAY is checked before its first bit (41_bitpacker R101, 42_encoder R110): the two
commands that push bits share this. `d` is the response data. -/
def pushChecked (bs : List Bool) (d : Word) (s : State) : State :=
  if s.payCap.toNat < s.payLen.toNat + (s.nb.toNat + bs.length) / 8 then raise .bufferFull 0 s
  else
    let t := pushBits bs s
    respond .ok d { t with ebits := t.ebits + BitVec.ofNat 64 bs.length }

end Sys2Proof.Machine
end

