-- ==== Sys2Proof/Machine/Operands.lean ====
section
/-! DEFINITION. Operand forms: the bits of a symbol's code, the unpacker's next bit, the child a bit leads to. -/

namespace Sys2Proof.Machine

/-- The code of an entry: `code[0], …, code[len-1]`, none if `len = 0` (10_state R10). -/
def CodeEntry.bits (e : CodeEntry) : List Bool := (List.range e.len.toNat).map e.code.getLsbD

/-- An entry's code bit `idx` (10_state R10). -/
def CodeEntry.bit (e : CodeEntry) (idx : BitVec 8) : Bool := e.code.getLsbD idx.toNat

/-- Bit `p` of the bit sequence in PAY: `PAY[p div 8][7 - (p mod 8)]` (20_memory R40). -/
def payBit (s : State) (p : Nat) : Bool := (payByte s (p / 8)).getLsbD (7 - p % 8)

/-- `(DPOS div 8) < PAYLEN`: the byte that holds the next bit is there (43_bitunpacker R120). -/
def nextBitAvailable (s : State) : Bool := decide (s.dpos.toNat / 8 < s.payLen.toNat)

/-- `NextBit` (43_bitunpacker R120). -/
def nextBit (s : State) : Bool := payBit s s.dpos.toNat

/-- The child a bit leads to from a pointer (44_decoder R130): a LEAF and an INVALID node have none, a SINGLE node has none
on bit 1, NULL leads nowhere. -/
def childOf (s : State) (p : Ptr) (b : Bool) : Ptr :=
  match p with
  | .null => .null
  | .node i =>
    match (tnNode s i).kind with
    | .invalid => .null
    | .leaf => .null
    | .internal => if b then (tnNode s i).right else (tnNode s i).left
    | .single => if b then .null else (tnNode s i).left

/-- `Child(b)`: from the cursor (44_decoder R130). -/
def child (s : State) (b : Bool) : Ptr := childOf s s.cur b

end Sys2Proof.Machine
end

