-- ==== Sys2Proof/Machine/Buffers.lean ====
section
/-! DEFINITION. Buffer access: PAYW, PAYR, OUTR (45_readout_system). -/

namespace Sys2Proof.Machine

/-- PAYW byte (45_readout_system R140): append one byte to PAY. -/
def execPayw (byte : Byte) (s : State) : Host.Outcome State Fault Refusal :=
  command s fun s =>
    if s.payLen = s.payCap then raise .bufferFull 0 s else respond .ok 0 (appendPay byte s)

/-- PAYR idx (45_readout_system R141): read one byte of PAY. -/
def execPayr (idx : BitVec 24) (s : State) : Host.Outcome State Fault Refusal :=
  command s fun s =>
    if s.payLen.toNat ≤ idx.toNat then raise .badIndex (idx.setWidth 32) s
    else respond .ok ((payByte s idx.toNat).setWidth 32) s

/-- OUTR idx (45_readout_system R142): read one byte of OUT. -/
def execOutr (idx : BitVec 24) (s : State) : Host.Outcome State Fault Refusal :=
  command s fun s =>
    if s.outLen.toNat ≤ idx.toNat then raise .badIndex (idx.setWidth 32) s
    else respond .ok ((outByte s idx.toNat).setWidth 32) s

end Sys2Proof.Machine
end

