-- ==== Sys2Proof/Machine/CodeTable.lean ====
section
/-! DEFINITION. The commands that load and read the code-table store: CTCLR, CTLEN, CTBIT, CTRD (40_config section 1). -/

namespace Sys2Proof.Machine

/-- CTCLR (40_config R80): every `len` and every code bit of every symbol becomes 0, so the store lists nothing. -/
def execCtclr (s : State) : Host.Outcome State Fault Refusal :=
  command s fun s => respond .ok 0 { s with ct := [] }

/-- CTLEN sym, len (40_config R81): set the length, clear all 256 code bits. -/
def execCtlen (sym : Sym) (len : BitVec 8) (s : State) : Host.Outcome State Fault Refusal :=
  command s fun s => respond .ok 0 (setCtEntry sym ⟨len, 0⟩ s)

/-- CTBIT sym, idx, b (40_config R82): write one code bit, keep the length. -/
def execCtbit (sym : Sym) (idx : BitVec 8) (b : Bool) (s : State) : Host.Outcome State Fault Refusal :=
  command s fun s =>
    let e := ctEntry s sym
    respond .ok 0 (setCtEntry sym { e with code := setBit e.code idx.toNat b } s)

/-- The data of CTRD: 23 zero bits, the code bit, the length (40_config R83). -/
def ctrdData (e : CodeEntry) (idx : BitVec 8) : Word :=
  ((BitVec.ofBool (e.bit idx)).setWidth 32 <<< 8) ||| e.len.setWidth 32

/-- CTRD sym, idx (40_config R83): read the length and one code bit. -/
def execCtrd (sym : Sym) (idx : BitVec 8) (s : State) : Host.Outcome State Fault Refusal :=
  command s fun s => respond .ok (ctrdData (ctEntry s sym) idx) s

end Sys2Proof.Machine
end

