-- ==== Sys2Proof/Machine/Encoder.lean ====
section
/-! DEFINITION. The symbol encoder's command: ESYM (42_encoder). -/

namespace Sys2Proof.Machine

/-- ESYM sym (42_encoder R110): a symbol with no code raises CORRUPT_CODE_TABLE; else its code is pushed, if the bytes it
completes fit, and the response is the code's length. -/
def execEsym (sym : Sym) (s : State) : Host.Outcome State Fault Refusal :=
  command s fun s =>
    let e := ctEntry s sym
    if e.len = 0 then raise .corruptCodeTable (sym.setWidth 32) s
    else pushChecked e.bits (e.len.setWidth 32) s

end Sys2Proof.Machine
end

