-- ==== Sys2Proof/Machine/Packer.lean ====
section
/-! DEFINITION. The bit packer's commands: PCLR, PBITS, PFLUSH (41_bitpacker). -/

namespace Sys2Proof.Machine

/-- PCLR (41_bitpacker R102): empty the packer, the payload buffer and the bit count. The bytes of PAY become unreadable
and their stored values unspecified; the model lists none (log entry 3). -/
def execPclr (s : State) : Host.Outcome State Fault Refusal :=
  command s fun s => respond .ok 0 { s with acc := 0, nb := 0, ebits := 0, pay := [], payLen := 0 }

/-- PBITS n, v (41_bitpacker R101): push `v[n-1], …, v[0]`, if the bytes this completes fit. -/
def execPbits (n : BitVec 5) (v : BitVec 16) (s : State) : Host.Outcome State Fault Refusal :=
  command s fun s => pushChecked (bitsDown v n.toNat) 0 s

/-- PFLUSH (41_bitpacker R103): append the partial byte, whose unfilled bits are the zero pad; nothing if there is none. -/
def execPflush (s : State) : Host.Outcome State Fault Refusal :=
  command s fun s =>
    if s.nb = 0 then respond .ok 0 s
    else if s.payLen = s.payCap then raise .bufferFull 0 s
    else respond .ok 0 { appendPay s.acc s with acc := 0, nb := 0 }

end Sys2Proof.Machine
end

