-- ==== Sys2Proof/Machine/Flags.lean ====
section
/-! DEFINITION. The derived flags, the error output, and the sixteen registers RDREG reads. -/

namespace Sys2Proof.Machine

/-- DEND: the bit sequence is exhausted (10_state R31). -/
def dend (s : State) : Bool := decide (s.dpos = s.dbits)

/-- ATROOT: the cursor is at the root, "as 10-bit words" (10_state R31). -/
def atRoot (s : State) : Bool := decide (s.cur.word = s.root.word)

/-- ROOTV: a root is loaded, `ROOT.v` (10_state R31). -/
def rootV (s : State) : Bool := s.root.word.getLsbD 9

/-- `err_o = (ERR ≠ 0)`, the error output (60_exceptions R182). -/
def errO (s : State) : Bool := decide (s.err ≠ 0)

/-- A flag at bit `i` of a register. -/
def flagAt (b : Bool) (i : Nat) : Word := (BitVec.ofBool b).setWidth 32 <<< i

/-- STATUS: ERR in [7:0], DEND, ATROOT, ROOTV in bits 8, 9, 10 (10_state R32). -/
def statusWord (s : State) : Word :=
  s.err.setWidth 32 ||| flagAt (dend s) 8 ||| flagAt (atRoot s) 9 ||| flagAt (rootV s) 10

/-- `REG(r)` (10_state R32). Unlisted bits read 0. -/
def readReg (s : State) : Reg → Word
  | .status => statusWord s
  | .einfo => s.einfo
  | .ebitsLo => low32 s.ebits
  | .ebitsHi => high32 s.ebits
  | .tbcinLo => low32 s.tbcin
  | .tbcinHi => high32 s.tbcin
  | .dbitsLo => low32 s.dbits
  | .dbitsHi => high32 s.dbits
  | .dposLo => low32 s.dpos
  | .dposHi => high32 s.dpos
  | .payLen => s.payLen.setWidth 32
  | .outLen => s.outLen.setWidth 32
  | .packSt => s.acc.setWidth 32 ||| (s.nb.setWidth 32 <<< 8)
  | .treeSt => s.root.word.setWidth 32 ||| (s.cur.word.setWidth 32 <<< 16)
  | .payCap => s.payCap.setWidth 32
  | .outCap => s.outCap.setWidth 32

end Sys2Proof.Machine
end

