-- ==== Sys2Proof/Machine/System.lean ====
section
/-! DEFINITION. The two commands the fault state lets through: RDREG, SRESET (45_readout_system). -/

namespace Sys2Proof.Machine

/-- RDREG r (45_readout_system R143): read one register, in the fault state too. -/
def execRdreg (r : Reg) (s : State) : Host.Outcome State Fault Refusal :=
  alwaysCommand s fun s => respond .ok (readReg s r) s

/-- SRESET (45_readout_system R144): the reset state, tables included, in the fault state too. -/
def execSreset (s : State) : Host.Outcome State Fault Refusal :=
  alwaysCommand s fun s => respond .ok 0 (toReset s)

end Sys2Proof.Machine
end

