-- ==== Sys2Proof/Machine/TreeStore.lean ====
section
/-! DEFINITION. The commands that load and read the tree-node store and the root: TCLR, TLEAF, TINT, TSNGL, TLEFT, TRIGHT,
TROOT, TRD (40_config section 2). -/

namespace Sys2Proof.Machine

/-- TCLR (40_config R84): every node INVALID, so the store lists nothing; ROOT NULL; CUR is not changed. -/
def execTclr (s : State) : Host.Outcome State Fault Refusal :=
  command s fun s => respond .ok 0 { s with tn := [], root := .null }

/-- TLEAF idx, sym (40_config R85). -/
def execTleaf (idx : NodeIdx) (sym : Sym) (s : State) : Host.Outcome State Fault Refusal :=
  command s fun s => respond .ok 0 (setTnNode idx ⟨.leaf, sym, .null, .null⟩ s)

/-- TINT idx (40_config R86). -/
def execTint (idx : NodeIdx) (s : State) : Host.Outcome State Fault Refusal :=
  command s fun s => respond .ok 0 (setTnNode idx ⟨.internal, 0, .null, .null⟩ s)

/-- TSNGL idx (40_config R87). -/
def execTsngl (idx : NodeIdx) (s : State) : Host.Outcome State Fault Refusal :=
  command s fun s => respond .ok 0 (setTnNode idx ⟨.single, 0, .null, .null⟩ s)

/-- TLEFT idx, child (40_config R88): the field is written whatever the node's kind is. -/
def execTleft (idx child : NodeIdx) (s : State) : Host.Outcome State Fault Refusal :=
  command s fun s => respond .ok 0 (setTnNode idx { tnNode s idx with left := .node child } s)

/-- TRIGHT idx, child (40_config R89). -/
def execTright (idx child : NodeIdx) (s : State) : Host.Outcome State Fault Refusal :=
  command s fun s => respond .ok 0 (setTnNode idx { tnNode s idx with right := .node child } s)

/-- TROOT idx (40_config R90): CUR is not changed. -/
def execTroot (idx : NodeIdx) (s : State) : Host.Outcome State Fault Refusal :=
  command s fun s => respond .ok 0 { s with root := .node idx }

/-- The data of TRD: 2 zero bits, right, left, sym, kind (40_config R91). -/
def trdData (n : Node) : Word :=
  (n.right.word.setWidth 32 <<< 20) ||| (n.left.word.setWidth 32 <<< 10) ||| (n.sym.setWidth 32 <<< 2)
    ||| n.kind.code.setWidth 32

/-- TRD idx (40_config R91): read one node. -/
def execTrd (idx : NodeIdx) (s : State) : Host.Outcome State Fault Refusal :=
  command s fun s => respond .ok (trdData (tnNode s idx)) s

end Sys2Proof.Machine
end

