-- ==== Sys2Proof/Machine/Unpacker.lean ====
section
/-! DEFINITION. The bit unpacker's commands: DCNT, DSTART, UBIT (43_bitunpacker). -/

namespace Sys2Proof.Machine

/-- DCNT k, imm (43_bitunpacker R122): one 16-bit slice of TBCIN. -/
def execDcnt (k : BitVec 2) (imm : BitVec 16) (s : State) : Host.Outcome State Fault Refusal :=
  command s fun s => respond .ok 0 { s with tbcin := setSlice s.tbcin k imm }

/-- DSTART (43_bitunpacker R121): latch TBCIN and ROOT, go to bit 0, empty the output. The bytes of OUT become unreadable;
the model lists none (log entry 3). -/
def execDstart (s : State) : Host.Outcome State Fault Refusal :=
  command s fun s => respond .ok 0 { s with dbits := s.tbcin, dpos := 0, cur := s.root, out := [], outLen := 0 }

/-- UBIT (43_bitunpacker R123): END when exhausted, PAYLOAD_SHORT when the byte is not there, else the next bit. -/
def execUbit (s : State) : Host.Outcome State Fault Refusal :=
  command s fun s =>
    if s.dbits ≤ s.dpos then respond .ended 0 s
    else if nextBitAvailable s then
      respond .ok ((BitVec.ofBool (nextBit s)).setWidth 32) { s with dpos := s.dpos + 1 }
    else raise .payloadShort (low32 s.dpos) s

end Sys2Proof.Machine
end

