-- ==== Sys2Proof/Machine/Walker.lean ====
section
/-! DEFINITION. The symbol-aligned decoder's commands: DSTEP, DRUN (44_decoder). -/

namespace Sys2Proof.Machine

/-- What one pass of lines 2 to 15 of 44_decoder R131 does: it raises a fault, or it goes on to line 16 with data `d`. -/
inductive Pass where
  | raised (s : State)
  | moved (s : State) (d : Word)
  deriving DecidableEq, Repr

/-- Lines 14 and 15 of 44_decoder R131, after the move of lines 6 to 13: the bit is consumed; if it was the last and the
cursor is not at the root (10-bit words compared), CORRUPT_STREAM_TAIL with the move kept. -/
def endMove (d : Word) (s : State) : Pass :=
  let t := { s with dpos := s.dpos + 1 }
  if t.dpos = t.dbits ∧ t.cur.word ≠ t.root.word then .raised (raise .corruptStreamTail (low32 t.dpos) t)
  else .moved t d

/-- The data of a step that emits `sym`: `0x100 | zext_32(sym)` (44_decoder R131, line 10). -/
def emitData (sym : Sym) : Word := 0x100 ||| sym.setWidth 32

/-- Lines 2 to 15 of 44_decoder R131: one bit of the walk. -/
def walkPass (s : State) : Pass :=
  if nextBitAvailable s then
    match child s (nextBit s) with
    | .null => .raised (raise .corruptStreamNoChild (low32 s.dpos) s)
    | .node i =>
      match (tnNode s i).kind with
      | .invalid => .raised (raise .corruptStreamNoChild (low32 s.dpos) s)
      | .leaf =>
        if s.outLen = s.outCap then .raised (raise .bufferFull 1 s)
        else endMove (emitData (tnNode s i).sym) { appendOut (tnNode s i).sym s with cur := s.root }
      | .internal => endMove 0 { s with cur := .node i }
      | .single => endMove 0 { s with cur := .node i }
  else .raised (raise .payloadShort (low32 s.dpos) s)

/-- DSTEP (44_decoder R131). -/
def execDstep (s : State) : Host.Outcome State Fault Refusal :=
  command s fun s =>
    if s.dbits ≤ s.dpos then respond .ended 0 s
    else
      match walkPass s with
      | .raised t => t
      | .moved t d => respond .ok d t

/-- The loop of DRUN (44_decoder R132). Its number is `DBITS - DPOS`: a pass that does not raise adds 1 to DPOS, so it is 0
exactly when `DPOS ≥ DBITS` (`runWalk_count`). -/
def runWalk : Nat → State → State
  | 0, s => respond .ok (s.outLen.setWidth 32) s
  | n + 1, s =>
    match walkPass s with
    | .raised t => t
    | .moved t _ => runWalk n t

/-- DRUN (44_decoder R132): run the walk until the bits are exhausted or a fault is raised. -/
def execDrun (s : State) : Host.Outcome State Fault Refusal :=
  command s fun s => runWalk (s.dbits.toNat - s.dpos.toNat) s

end Sys2Proof.Machine
end

