-- ==== Sys2Proof/Machine/Dispatch.lean ====
section
/-! DEFINITION. exec: one arm per command, each one direct call of its meaning. -/

namespace Sys2Proof.Machine

def exec (i : Instr) (s : State) : Host.Outcome State Fault Refusal :=
  match i with
  | .sreset => Sys2Proof.Machine.execSreset s
  | .rdreg r => Sys2Proof.Machine.execRdreg r s
  | .ctclr => Sys2Proof.Machine.execCtclr s
  | .ctlen sym len => Sys2Proof.Machine.execCtlen sym len s
  | .ctbit sym idx b => Sys2Proof.Machine.execCtbit sym idx b s
  | .ctrd sym idx => Sys2Proof.Machine.execCtrd sym idx s
  | .tclr => Sys2Proof.Machine.execTclr s
  | .tleaf idx sym => Sys2Proof.Machine.execTleaf idx sym s
  | .tint idx => Sys2Proof.Machine.execTint idx s
  | .tsngl idx => Sys2Proof.Machine.execTsngl idx s
  | .tleft idx child => Sys2Proof.Machine.execTleft idx child s
  | .tright idx child => Sys2Proof.Machine.execTright idx child s
  | .troot idx => Sys2Proof.Machine.execTroot idx s
  | .trd idx => Sys2Proof.Machine.execTrd idx s
  | .pclr => Sys2Proof.Machine.execPclr s
  | .pbits n v => Sys2Proof.Machine.execPbits n v s
  | .pflush => Sys2Proof.Machine.execPflush s
  | .esym sym => Sys2Proof.Machine.execEsym sym s
  | .payw byte => Sys2Proof.Machine.execPayw byte s
  | .payr idx => Sys2Proof.Machine.execPayr idx s
  | .outr idx => Sys2Proof.Machine.execOutr idx s
  | .dcnt k imm => Sys2Proof.Machine.execDcnt k imm s
  | .dstart => Sys2Proof.Machine.execDstart s
  | .ubit => Sys2Proof.Machine.execUbit s
  | .dstep => Sys2Proof.Machine.execDstep s
  | .drun => Sys2Proof.Machine.execDrun s

end Sys2Proof.Machine
end

