-- ==== Sys2Proof/Machine/Step.lean ====
section
/-! DEFINITION. One step of the machine: the host's next input at the port, executed to completion (30_encoding R60,
R67; 20_memory R46, R50). -/

namespace Sys2Proof.Machine

/-- One step: wait if the host does nothing, else reset the block or execute the next command word. -/
def step (s : State) : Host.Outcome State Fault Refusal :=
  match fetch s with
  | .idle => .next s
  | .reset t => .next (toReset t)
  | .command w t =>
    match decode w with
    | .ok i => exec i t
    | .unknownOpcode _ => illegalCommand w t
    | .mustBeZero _ => illegalCommand w t

/-- `s` with the instruction whose bits are `w` presented as the host's very next command. The block fetches nothing
(10_state R28): a program is what the host presents (log entry 1). -/
def State.withFetchWord (s : State) (nbits w : Nat) : State := present (BitVec.ofNat 32 (w % 2 ^ nbits)) s

end Sys2Proof.Machine
end

