-- ==== Sys2Proof/Machine/Sessions.lean ====
section
/-! DEFINITION. Sequences of commands: running them one after the other, and the host's encode, load and decode sessions
(42_encoder R112, 44_decoder R136, 30_encoding R69). -/

namespace Sys2Proof.Machine

/-- The commands of a list executed in order, each to completion before the next (20_memory R50). -/
def runAll : List Instr → State → Host.Outcome State Fault Refusal
  | [], s => .next s
  | i :: is, s =>
    match exec i s with
    | .next t => runAll is t
    | .fault r => .fault r
    | .refused r => .refused r

/-- `k` steps of the machine. -/
def runSteps : Nat → State → Host.Outcome State Fault Refusal
  | 0, s => .next s
  | k + 1, s =>
    match step s with
    | .next t => runSteps k t
    | .fault r => .fault r
    | .refused r => .refused r

/-- Present the words of commands, in order, as all the host will do (30_encoding R60). -/
def presentAll (is : List Instr) (s : State) : State := { s with inputs := is.map (fun i => .command (encode i)) }

/-- Pseudo-command `CTDEF sym, "…"` (30_encoding R69): CTLEN, then a CTBIT for each 1 bit, positions ascending. -/
def ctdef (sym : Sym) (bits : List Bool) : List Instr :=
  .ctlen sym (BitVec.ofNat 8 bits.length) ::
    ((List.range bits.length).filter (fun i => bits.getD i false)).map (fun i => .ctbit sym (BitVec.ofNat 8 i) true)

/-- Pseudo-command `DSET64 v` (30_encoding R69): the four slices, least first. -/
def dset64 (v : Count) : List Instr :=
  [.dcnt 0 (v.extractLsb' 0 16), .dcnt 1 (v.extractLsb' 16 16), .dcnt 2 (v.extractLsb' 32 16),
   .dcnt 3 (v.extractLsb' 48 16)]

/-- Pseudo-command `ESTR` (30_encoding R69): one ESYM per byte, in order. -/
def estr (bytes : List Byte) : List Instr := bytes.map .esym

/-- The block's part of an encode session (42_encoder R112): PCLR, one ESYM per byte, PFLUSH. -/
def encodeSession (bytes : List Byte) : List Instr := .pclr :: (estr bytes ++ [.pflush])

/-- Loading a payload (44_decoder R136): PCLR, one PAYW per byte. -/
def loadPayload (payload : List Byte) : List Instr := .pclr :: payload.map .payw

/-- The block's part of a decode session once the payload is in PAY (44_decoder R136): the count, DSTART, DRUN. -/
def decodeSession (count : Count) : List Instr := dset64 count ++ [.dstart, .drun]

/-- `PAY[0..PAYLEN-1]`: the packed payload (10_state R34). -/
def payloadBytes (s : State) : List Byte := (List.range s.payLen.toNat).map (payByte s)

/-- `OUT[0..OUTLEN-1]`: the decoded output (10_state R35). -/
def outputBytes (s : State) : List Byte := (List.range s.outLen.toNat).map (outByte s)

end Sys2Proof.Machine
end

