-- ==== Sys2Proof/Machine/HostTables.lean ====
section
/-! DEFINITION. The host's software that decides what is loaded into CT, TN and ROOT (47_host_reference sections 1 to 4):
frequency table, tree, codes, load commands. Not part of the block (00_scope section 3); no step uses it. -/

namespace Sys2Proof.Machine

/-- FrequencyTable: (symbol, count) pairs, ascending by symbol (47_host_reference R150, R151). -/
abbrev FreqTable := List (Sym × Nat)

/-- Insert a pair before the first pair whose symbol is not smaller. -/
def insertPair (p : Sym × Nat) : FreqTable → FreqTable
  | [] => [p]
  | q :: qs => if p.1.toNat ≤ q.1.toNat then p :: q :: qs else q :: insertPair p qs

/-- "An explicit ascending sort by symbol value before writing" (47_host_reference R151). -/
def sortTable (table : FreqTable) : FreqTable := table.foldr insertPair []

/-- `analyze` (47_host_reference R150): the count of every byte value that occurs, ascending (R151). -/
def analyze (bytes : List Byte) : FreqTable :=
  (List.range Config.nsym).filterMap fun i =>
    if bytes.count (BitVec.ofNat 8 i) = 0 then none
    else some (BitVec.ofNat 8 i, bytes.count (BitVec.ofNat 8 i))

/-- The host's tree (47_host_reference R152, R154). `internal j` is the node made by merge `j`, counted from 0. -/
inductive HuffTree where
  | leaf (sym : Sym) (weight : Nat)
  | internal (j : Nat) (weight : Nat) (left right : HuffTree)
  /-- the one-symbol shape: a node of its own kind with the leaf as its left child (R154) -/
  | single (sym : Sym) (weight : Nat)
  deriving DecidableEq, Repr

/-- An entry of the priority structure, with its key `(weight, tag)` (47_host_reference R153). -/
structure Queued where
  weight : Nat
  tag    : Nat
  tree   : HuffTree
  deriving DecidableEq, Repr

/-- "Keys are compared lexicographically, smaller first" (47_host_reference R153). -/
def Queued.before (a b : Queued) : Bool :=
  decide (a.weight < b.weight) || (decide (a.weight = b.weight) && decide (a.tag < b.tag))

/-- Insert into a list sorted by key. -/
def enqueue (x : Queued) : List Queued → List Queued
  | [] => [x]
  | y :: ys => if x.before y then x :: y :: ys else y :: enqueue x ys

/-- The merges (47_host_reference R152 (c), R153): the smallest is the left child, the next the right. Each merge leaves one
entry fewer; `fuel` bounds them and `j` numbers them. -/
def mergeAll : Nat → Nat → List Queued → Option HuffTree
  | _, _, [] => none
  | _, _, [x] => some x.tree
  | 0, _, _ :: _ :: _ => none
  | fuel + 1, j, a :: b :: rest =>
    mergeAll fuel (j + 1)
      (enqueue ⟨a.weight + b.weight, Config.nsym + j, .internal j (a.weight + b.weight) a.tree b.tree⟩ rest)

/-- `build` (47_host_reference R152): nothing for an empty table, the named shape for one symbol, else the merges. -/
def build (table : FreqTable) : Option HuffTree :=
  match table with
  | [] => none
  | [(sym, c)] => some (.single sym c)
  | x :: y :: rest =>
    mergeAll (x :: y :: rest).length 0
      ((x :: y :: rest).foldr (fun p q => enqueue ⟨p.2, p.1.toNat, .leaf p.1 p.2⟩ q) [])

/-- `generate` (47_host_reference R155, R156): the branch bits from the root to each leaf, 0 left, 1 right; a path that
would be empty becomes "0". `path` is the path to this node. -/
def HuffTree.codes : List Bool → HuffTree → List (Sym × List Bool)
  | path, .leaf sym _ => [(sym, if path = [] then [false] else path)]
  | path, .internal _ _ l r => l.codes (path ++ [false]) ++ r.codes (path ++ [true])
  | path, .single sym _ => [(sym, path ++ [false])]

/-- The code table of a tree (47_host_reference R155). -/
def generate (t : HuffTree) : List (Sym × List Bool) := t.codes []

/-- The commands that load CT (47_host_reference R158): one CTDEF per symbol. -/
def loadCodes (codes : List (Sym × List Bool)) : List Instr :=
  .ctclr :: codes.flatMap (fun c => ctdef c.1 c.2)

/-- The node number of the reference layout (47_host_reference R157): leaves 0..n-1 by ascending symbol, then the merges in
order of creation; the one-symbol shape is node 1. -/
def HuffTree.number (table : FreqTable) : HuffTree → NodeIdx
  | .leaf sym _ => BitVec.ofNat 9 (table.findIdx (fun p => p.1 == sym))
  | .internal j _ _ _ => BitVec.ofNat 9 (table.length + j)
  | .single _ _ => 1

/-- The commands that load a tree's nodes, children's pointers after their parent's node command (40_config R88). -/
def HuffTree.load (table : FreqTable) : HuffTree → List Instr
  | .leaf sym w => [.tleaf (HuffTree.number table (.leaf sym w)) sym]
  | .internal j w l r =>
    let i := HuffTree.number table (.internal j w l r)
    l.load table ++ r.load table ++ [.tint i, .tleft i (l.number table), .tright i (r.number table)]
  | .single sym _ => [.tleaf 0 sym, .tsngl 1, .tleft 1 0]

/-- The commands that load TN and ROOT (47_host_reference R157). -/
def loadTree (table : FreqTable) (t : HuffTree) : List Instr := .tclr :: (t.load table ++ [.troot (t.number table)])

end Sys2Proof.Machine
end

