-- ==== Sys2Proof/Machine/HostDriver.lean ====
section
/-! DEFINITION. The host's side of a session with the block (47_host_reference R167, R168): issuing commands one at a time
and looking at every response, reading results out by RDREG, PAYR and OUTR, and recovery by SRESET. Not part of the block
(00_scope section 3); no step uses it. -/

namespace Sys2Proof.Machine

/-- What the host has after issuing commands: a result and the block, or the block as it stands after a response FAULT or
REFUSED, which fails the whole file (47_host_reference R167); `stopped`: the model's machine stopped or gave no response,
which no command does. -/
inductive Reply (α : Type) where
  | got (a : α) (s : State)
  | failed (s : State)
  | stopped (s : State)
  deriving DecidableEq, Repr

/-- Go on with a result; the first failure ends the session. -/
def Reply.andThen {α β : Type} (r : Reply α) (f : α → State → Reply β) : Reply β :=
  match r with
  | .got a s => f a s
  | .failed s => .failed s
  | .stopped s => .stopped s

/-- Issue one command and look at its response (30_encoding R60, R66): OK and END are the result; FAULT and REFUSED fail. -/
def issue (i : Instr) (s : State) : Reply Response :=
  match exec i s with
  | .next t =>
    match t.rsp with
    | some ⟨.ok, d⟩ => .got ⟨.ok, d⟩ t
    | some ⟨.ended, d⟩ => .got ⟨.ended, d⟩ t
    | some ⟨.fault, _⟩ => .failed t
    | some ⟨.refused, _⟩ => .failed t
    | none => .stopped t
  | .fault _ => .stopped s
  | .refused _ => .stopped s

/-- Issue commands in order, each after the response to the one before; the data of the responses. -/
def issueAll : List Instr → State → Reply (List Word)
  | [], s => .got [] s
  | i :: is, s => (issue i s).andThen fun r t => (issueAll is t).andThen fun ds u => .got (r.data :: ds) u

/-- Read a 64-bit count through its two registers (20_memory R42). -/
def readCount (lo hi : Reg) (s : State) : Reply Count :=
  (issue (.rdreg lo) s).andThen fun l s => (issue (.rdreg hi) s).andThen fun h s =>
    .got ((h.data.setWidth 64 <<< 32) ||| l.data.setWidth 64) s

/-- Read bytes 0..n-1 of a buffer, one command each: `read` is PAYR or OUTR. -/
def readBytes (read : BitVec 24 → Instr) (n : Nat) (s : State) : Reply (List Byte) :=
  (issueAll ((List.range n).map (fun i => read (BitVec.ofNat 24 i))) s).andThen fun ds s =>
    .got (ds.map (fun d => d.setWidth 8)) s

/-- Encode (42_encoder R112; 47_host_reference R168, rows load code table, encode, read-out): the table, the session, then
the pair of EBITS and the PAYLEN bytes of PAY. -/
def encodeOnBlock (codes : List (Sym × List Bool)) (bytes : List Byte) (s : State) : Reply (Count × List Byte) :=
  (issueAll (loadCodes codes ++ encodeSession bytes) s).andThen fun _ s =>
  (readCount .ebitsLo .ebitsHi s).andThen fun count s =>
  (issue (.rdreg .payLen) s).andThen fun n s =>
  (readBytes .payr n.data.toNat s).andThen fun payload s => .got (count, payload) s

/-- The bytes of a payload that its bit count asks for: "all `ceil(totalBitCount/8)` bytes in order" (47_host_reference
R168); surplus bytes are not loaded, and a payload with fewer is loaded as it is (the block raises PAYLOAD_SHORT). -/
def countedBytes (count : Count) (payload : List Byte) : List Byte := payload.take ((count.toNat + 7) / 8)

/-- Decode (44_decoder R136; 47_host_reference R168, rows load tree, load payload, decode, read-out): the tree, the payload,
the session, then as many bytes of OUT as DRUN's response says. -/
def decodeOnBlock (table : FreqTable) (tree : HuffTree) (count : Count) (payload : List Byte) (s : State) : Reply (List Byte) :=
  (issueAll (loadTree table tree ++ loadPayload (countedBytes count payload) ++ decodeSession count) s).andThen fun ds s =>
  readBytes .outr (ds.getLastD 0).toNat s

/-- Issue DSTEP until it responds END (44_decoder R132, 70_reset R203); at most `n` of them. -/
def stepUntilEnd : Nat → State → Reply Unit
  | 0, s => .stopped s
  | n + 1, s => (issue .dstep s).andThen fun r s => if r.st = .ended then .got () s else stepUntilEnd n s

/-- Decode by single steps (47_host_reference R168, "DRUN (or DSTEP…)"; 70_reset R203): the session ends on a DSTEP's END,
then OUTLEN is read and as many bytes of OUT. Each DSTEP that does not end consumes a bit, so one more than the count of them
reaches the END. -/
def decodeByStepsOnBlock (table : FreqTable) (tree : HuffTree) (count : Count) (payload : List Byte) (s : State) :
    Reply (List Byte) :=
  (issueAll (loadTree table tree ++ loadPayload (countedBytes count payload) ++ dset64 count ++ [.dstart]) s).andThen fun _ s =>
  (stepUntilEnd (count.toNat + 1) s).andThen fun _ s =>
  (issue (.rdreg .outLen) s).andThen fun n s => readBytes .outr n.data.toNat s

/-- What the host's program has in the end. -/
inductive HostResult where
  /-- "nothing to compress" (47_host_reference R166) -/
  | nothing
  | bytes (bs : List Byte)
  /-- the file is no container (47_host_reference R164, R167) -/
  | formatError
  /-- the block faulted or refused: the whole file failed, with what ERR and EINFO said (47_host_reference R167) -/
  | blockFault (err : BitVec 8) (einfo : Word)
  /-- the model's machine stopped; no command does that -/
  | stopped
  deriving DecidableEq, Repr

/-- The class an outcome is reported under (47_host_reference R167, 60_exceptions R190); none: no error, or a cause without
a counterpart in the source. IOError is a file's, and files are not modelled (log entry 8). -/
def HostResult.errorClass : HostResult → Option ErrorClass
  | .nothing | .bytes _ | .stopped => none
  | .formatError => some .formatError
  | .blockFault err _ => (Cause.ofCode err).bind Cause.errorClass

/-- After a FAULT or REFUSED: read ERR (STATUS[7:0]) and EINFO, issue SRESET (47_host_reference R167, R168, row recovery).
The tables are then empty; each session loads its own (70_reset R219). -/
def recover (s : State) : HostResult × State :=
  match issueAll [.rdreg .status, .rdreg .einfo, .sreset] s with
  | .got [st, info, _] t => (.blockFault (st.setWidth 8) info, t)
  | .got _ t => (.stopped, t)
  | .failed t => (.stopped, t)
  | .stopped t => (.stopped, t)

/-- The end of a session: its result, or recovery with everything it produced discarded (60_exceptions R187). -/
def finish {α : Type} (r : Reply α) (result : α → List Byte) : HostResult × State :=
  match r with
  | .got a s => (.bytes (result a), s)
  | .failed s => recover s
  | .stopped s => (.stopped, s)

end Sys2Proof.Machine
end

