-- ==== Sys2Proof/Machine/Container.lean ====
section
/-! DEFINITION. The container file and the host's compressor around the block (47_host_reference sections 5 to 7). Not part
of the block (00_scope section 3); no step uses it. -/

namespace Sys2Proof.Machine

/-- The `k` bytes of a number, least significant first (47_host_reference R162). -/
def leBytes : Nat → Nat → List Byte
  | 0, _ => []
  | k + 1, v => BitVec.ofNat 8 v :: leBytes k (v / 256)

/-- The number whose bytes, least significant first, are given (47_host_reference R162). -/
def leValue : List Byte → Nat
  | [] => 0
  | b :: bs => b.toNat + 256 * leValue bs

/-- The magic delimiter "HUFFDATA": 48 55 46 46 44 41 54 41 (47_host_reference R160). -/
def magic : List Byte := [0x48, 0x55, 0x46, 0x46, 0x44, 0x41, 0x54, 0x41]

/-- The persisted record without its constant parts (47_host_reference R160). -/
structure Container where
  table     : FreqTable
  totalBits : Count
  payload   : List Byte
  deriving DecidableEq, Repr

/-- The 4-byte frequency field (47_host_reference R161); of a count of 2^32 or more the source says nothing (log
entry 8). -/
def frequencyField (c : Nat) : BitVec 32 := if c < 4294967296 then BitVec.ofNat 32 c else Config.countField c

/-- One (symbol, frequency) pair: 1 byte and 4 bytes (47_host_reference R160). -/
def pairBytes (p : Sym × Nat) : List Byte := p.1 :: leBytes 4 (frequencyField p.2).toNat

/-- The writer (47_host_reference R160, R163): the pairs "ascending-sorted", by an explicit sort (R151). -/
def writeContainer (c : Container) : List Byte :=
  leBytes 4 c.table.length ++ (sortTable c.table).flatMap pairBytes ++ magic ++ leBytes 8 c.totalBits.toNat ++ c.payload

/-- The first `n` bytes and the rest; none if there are fewer. -/
def splitExact (n : Nat) (bs : List Byte) : Option (List Byte × List Byte) :=
  if n ≤ bs.length then some (bs.take n, bs.drop n) else none

/-- `n` pairs, 5 bytes each, from the bytes given. -/
def readPairs : Nat → List Byte → FreqTable
  | 0, _ => []
  | n + 1, bs => (bs.headD 0, leValue ((bs.drop 1).take 4)) :: readPairs n (bs.drop 5)

/-- The checks of the header through the magic delimiter, shared by the reader and the detector (47_host_reference R164,
R165): the pairs and the bytes after the magic; none where a check fails. -/
def readHeader (bs : List Byte) : Option (FreqTable × List Byte) :=
  match splitExact 4 bs with
  | none => none
  | some (count, rest) =>
    match splitExact (5 * leValue count) rest with
    | none => none
    | some (pairs, rest) =>
      match splitExact 8 rest with
      | none => none
      | some (m, rest) => if m = magic then some (readPairs (leValue count) pairs, rest) else none

/-- A table that can stand in a container: not empty (47_host_reference R161: for an empty table "no container is
written"), strictly ascending by symbol (R150 "keys unique", R160 "symbols ascending"), hence at most 256 pairs, each count
at least 1 (R150). -/
def structurallyPossible : FreqTable → Bool
  | [] => false
  | [p] => decide (1 ≤ p.2)
  | p :: q :: rest => decide (1 ≤ p.2) && decide (p.1.toNat < q.1.toNat) && structurallyPossible (q :: rest)

/-- The reader; none is FormatError (47_host_reference R164): "reject (not silently fix) truncated or structurally
impossible input". It compares the payload's length with nothing: R164 leaves that to the host. That it does not compare totalBitCount with the
table (the sum of count times code length) either is a DESIGN CHOICE, and which tables are impossible is DEDUCED (log
entry 8). -/
def readContainer (bs : List Byte) : Option Container :=
  match readHeader bs with
  | none => none
  | some (table, rest) =>
    if structurallyPossible table then
      match splitExact 8 rest with
      | none => none
      | some (total, payload) => some ⟨table, BitVec.ofNat 64 (leValue total), payload⟩
    else none

/-- FormatDetector: the checks through the magic delimiter only, never raising (47_host_reference R165). It looks at no
pair and has no threshold for an "implausible" symbol count (log entry 8). -/
def looksLikeContainer (bs : List Byte) : Bool := (readHeader bs).isSome

/-- Compress (47_host_reference R166): tables from the input's frequencies, an encode session on the block `s`, the
container, and the block afterwards. With nothing to encode the block sees no session. -/
def compress (bytes : List Byte) (s : State) : HostResult × State :=
  match build (analyze bytes) with
  | none => (.nothing, s)
  | some t => finish (encodeOnBlock (generate t) bytes s) fun r => writeContainer ⟨analyze bytes, r.1, r.2⟩

/-- Decompress (47_host_reference R164, 44_decoder R136): the same tree rebuilt from the container's frequencies, a decode
session on the block `s`, and the block afterwards. A file that is no container does not reach the block. -/
def decompress (file : List Byte) (s : State) : HostResult × State :=
  match readContainer file with
  | none => (.formatError, s)
  | some c =>
    match build c.table with
    | none => (.formatError, s)
    | some t => finish (decodeOnBlock c.table t c.totalBits c.payload s) id

/-- The mode of the command line (47_host_reference R166): decompress what looks like a container, compress the rest. -/
def huff (input : List Byte) (s : State) : HostResult × State :=
  if looksLikeContainer input then decompress input s else compress input s

end Sys2Proof.Machine
end

