-- ==== Sys2Proof/Safety.lean ====
section
/-! DEFINITION. What the claims speak of: the invariant of the block, the bit sequence in the packer, paths in the tree,
well-formed tables, finished sessions. -/

namespace Sys2Proof.Machine

/-- The four stores are in canonical form. -/
def State.canonical (s : State) : Bool :=
  Cells.wf CodeEntry.empty s.ct && Cells.wf Node.empty s.tn && s.pay.wf && s.out.wf

/-- The invariant every step keeps: the derived invariants of 10_state (R20, R25, R26, R27), the bounds of the parameters
and lengths (00_scope R4, 10_state section 1), the codes ERR can hold (60_exceptions R180), and the stores' form. -/
structure State.Inv (s : State) : Prop where
  /-- canonical stores -/
  canonical : s.canonical = true
  /-- CT lists symbols only (R10) -/
  ctKeys : Cells.below Config.nsym s.ct = true
  /-- TN lists its 512 nodes only (R20) -/
  tnKeys : Cells.below Config.nnodes s.tn = true
  /-- PAY lists no byte at or past PAYLEN (R34) -/
  payKeys : Cells.below s.payLen.toNat s.pay = true
  /-- OUT lists no byte at or past OUTLEN (R35) -/
  outKeys : Cells.below s.outLen.toNat s.out = true
  /-- `1 ≤ PAY_CAP ≤ 2^24` (00_scope R4) -/
  payCap : 1 ≤ s.payCap.toNat ∧ s.payCap.toNat ≤ Config.capMax
  /-- `1 ≤ OUT_CAP ≤ 2^24` (00_scope R4) -/
  outCap : 1 ≤ s.outCap.toNat ∧ s.outCap.toNat ≤ Config.capMax
  /-- PAYLEN in 0..PAY_CAP (10_state section 1) -/
  payLen : s.payLen.toNat ≤ s.payCap.toNat
  /-- OUTLEN in 0..OUT_CAP (10_state section 1) -/
  outLen : s.outLen.toNat ≤ s.outCap.toNat
  /-- `ACC[7-NB:0] = 0` (R25) -/
  accPad : ∀ i, i < 8 - s.nb.toNat → s.acc.getLsbD i = false
  /-- `EBITS ≤ 8·PAYLEN + NB` (R26) -/
  ebits : s.ebits.toNat ≤ 8 * s.payLen.toNat + s.nb.toNat
  /-- `DPOS ≤ DBITS` (R27) -/
  dpos : s.dpos.toNat ≤ s.dbits.toNat
  /-- "Codes 0x08 to 0xFF are never written to ERR" (R180) -/
  err : s.err.toNat ≤ 7
  /-- ERR and EINFO are written together (R30) -/
  einfo : s.err = 0 → s.einfo = 0
  /-- `sym` is "stored as 0" for a node that is no LEAF (R20) -/
  nodeSym : ∀ c ∈ s.tn, c.2.kind ≠ .leaf → c.2.sym = 0

/-- The filled bits of ACC, first first: `ACC[7] … ACC[8-NB]` (10_state R25). -/
def accBits (s : State) : List Bool := (List.range s.nb.toNat).map (fun j => s.acc.getLsbD (7 - j))

/-- The bits of PAY in the order of 20_memory R40. -/
def payBits (s : State) : List Bool := (List.range (8 * s.payLen.toNat)).map (payBit s)

/-- The bit sequence the packer holds: the bytes of PAY, then the filled bits of ACC (41_bitpacker R100 (b)). -/
def packedBits (s : State) : List Bool := payBits s ++ accBits s

/-- Where a sequence of bits leads from a pointer (44_decoder R130, repeated). -/
def walkFrom (s : State) : Ptr → List Bool → Ptr
  | p, [] => p
  | p, b :: bs => walkFrom s (childOf s p b) bs

/-- The pointer names a LEAF of this symbol. -/
def isLeafOf (s : State) (p : Ptr) (sym : Sym) : Prop :=
  ∃ i, p = .node i ∧ (tnNode s i).kind = .leaf ∧ (tnNode s i).sym = sym

/-- Every symbol that has a code has, as its code, a path from ROOT to a LEAF of that symbol (0 = left, 1 = right). The
tables of 44_decoder R135 (47_host_reference R157, R158) are such; R135's other hypotheses on the tree are not needed. -/
def codesArePaths (s : State) : Prop :=
  ∀ sym : Sym, (ctEntry s sym).len ≠ 0 → isLeafOf s (walkFrom s s.root (ctEntry s sym).bits) sym

/-- An encode session over `bytes`, run from `s`, is finished in `t` (70_reset R203, on the host's command sequence): its
PFLUSH has responded OK. Its result is the pair of EBITS and `payloadBytes`. -/
def encodeFinished (bytes : List Byte) (s t : State) : Prop :=
  runAll (encodeSession bytes) s = .next t ∧ ∃ d, t.rsp = some ⟨.ok, d⟩

/-- A decode session, run from `s` with the tree and the payload there, is finished in `t` (70_reset R203, on the host's
command sequence): the count, DSTART, any number of DSTEP, and then a DRUN that has responded OK or a DSTEP that has
responded END, `last`. Its result is `outputBytes`. -/
def decodeFinished (count : Count) (last : Instr) (s t : State) : Prop :=
  (∃ k, runAll (dset64 count ++ [.dstart] ++ List.replicate k .dstep ++ [last]) s = .next t) ∧
    ((last = .drun ∧ ∃ n, t.rsp = some ⟨.ok, n⟩) ∨ (last = .dstep ∧ ∃ d, t.rsp = some ⟨.ended, d⟩))

/-- What "necessarily" holds when a decode session is finished: `ERR = 0`, DEND and ATROOT 1 (70_reset R203). -/
def endsAtRoot (s : State) : Prop := s.err = 0 ∧ dend s = true ∧ atRoot s = true

end Sys2Proof.Machine
end

