-- ==== Sys2Proof/Certificates/Slice0/Obligations.lean ====
section
/-! DEFINITION. The statements for the provers, one `def Obligations.<Name> : Prop` each. Each docstring names the rule of
spec/ it formalises. `t = { s with f := t.f, … }` is the frame: every field but those named is unchanged. -/

namespace Sys2Proof.Claims

open Sys2Proof.Machine

/-- No byte of either buffer changed. -/
def SameBytes (s t : State) : Prop := (∀ a, payByte t a = payByte s a) ∧ (∀ a, outByte t a = outByte s a)

/-- The command raises this fault and changes nothing but ERR, EINFO and the response (60_exceptions R184). -/
def Raises (i : Instr) (s : State) (c : Cause) (info : Word) : Prop :=
  exec i s = .next { s with err := c.code, einfo := info, rsp := some ⟨.fault, c.code.setWidth 32⟩ }

/-- `ACC[7-NB:0] = 0` (10_state R25). -/
def AccPad (s : State) : Prop := ∀ i, i < 8 - s.nb.toNat → s.acc.getLsbD i = false

/-- The packer's state where every bit counted is in PAY or ACC and nothing else is (41_bitpacker R100 (b)). -/
def Tracks (s : State) : Prop := s.ebits.toNat = 8 * s.payLen.toNat + s.nb.toNat

/-- Bits 31:0 of a position. -/
def low (c : Count) : Word := BitVec.ofNat 32 (c.toNat % 4294967296)

/-- The command table of 30_encoding R64: row, match, mask. -/
def commandTable : List (Op × Word × Word) :=
  [(.sreset, 0x04000000, 0xFFFFFFFF), (.rdreg, 0x08000000, 0xFFFFFFF0), (.ctclr, 0x20000000, 0xFFFFFFFF),
   (.ctlen, 0x24000000, 0xFFFF0000), (.ctbit, 0x28000000, 0xFFFE0000), (.ctrd, 0x2C000000, 0xFFFF0000),
   (.tclr, 0x30000000, 0xFFFFFFFF), (.tleaf, 0x34000000, 0xFFFE0000), (.tint, 0x38000000, 0xFFFFFE00),
   (.tsngl, 0x3C000000, 0xFFFFFE00), (.tleft, 0x40000000, 0xFFFC0000), (.tright, 0x44000000, 0xFFFC0000),
   (.troot, 0x48000000, 0xFFFFFE00), (.trd, 0x4C000000, 0xFFFFFE00), (.pclr, 0x60000000, 0xFFFFFFFF),
   (.pbits, 0x64000000, 0xFFF00000), (.pflush, 0x68000000, 0xFFFFFFFF), (.esym, 0x70000000, 0xFFFFFF00),
   (.payw, 0x80000000, 0xFFFFFF00), (.payr, 0x84000000, 0xFF000000), (.outr, 0x88000000, 0xFF000000),
   (.dcnt, 0xA0000000, 0xFFFC0000), (.dstart, 0xA4000000, 0xFFFFFFFF), (.ubit, 0xA8000000, 0xFFFFFFFF),
   (.dstep, 0xAC000000, 0xFFFFFFFF), (.drun, 0xB0000000, 0xFFFFFFFF)]

/-- The opcodes that are no command's: 0x00, 0x03 to 0x07, 0x14 to 0x17, 0x1B, 0x1D to 0x1F, 0x23 to 0x27, 0x2D to 0x3F
(30_encoding R65). -/
def unusedOpcode (c : Nat) : Prop :=
  c = 0x00 ∨ (0x03 ≤ c ∧ c ≤ 0x07) ∨ (0x14 ≤ c ∧ c ≤ 0x17) ∨ c = 0x1B ∨ (0x1D ≤ c ∧ c ≤ 0x1F) ∨
    (0x23 ≤ c ∧ c ≤ 0x27) ∨ (0x2D ≤ c ∧ c ≤ 0x3F)

/-- The word is illegal (30_encoding R65): no command's opcode, or a must-be-zero bit of its row is 1. The two clauses
exclude each other. -/
def Illegal (w : Word) : Prop :=
  unusedOpcode (w.toNat / 67108864) ∨
    ∃ o ∈ Op.all, w.toNat / 67108864 = o.code.toNat ∧ w &&& o.format.mbz ≠ 0

/-- A pointer's 10-bit word as a number (10_state R21). -/
def ptrValue : Ptr → Nat
  | .null => 0
  | .node i => 512 + i.toNat

/-- 1 for a flag that is set. -/
def flagValue (p : Prop) [Decidable p] : Nat := if p then 1 else 0

/-- The registers as numbers, field by field (10_state R31, R32). -/
def regValue (s : State) : Reg → Nat
  | .status => s.err.toNat + 256 * flagValue (s.dpos = s.dbits) + 512 * flagValue (s.cur = s.root)
      + 1024 * flagValue (s.root ≠ .null)
  | .einfo => s.einfo.toNat
  | .ebitsLo => s.ebits.toNat % 4294967296
  | .ebitsHi => s.ebits.toNat / 4294967296
  | .tbcinLo => s.tbcin.toNat % 4294967296
  | .tbcinHi => s.tbcin.toNat / 4294967296
  | .dbitsLo => s.dbits.toNat % 4294967296
  | .dbitsHi => s.dbits.toNat / 4294967296
  | .dposLo => s.dpos.toNat % 4294967296
  | .dposHi => s.dpos.toNat / 4294967296
  | .payLen => s.payLen.toNat
  | .outLen => s.outLen.toNat
  | .packSt => s.acc.toNat + 256 * s.nb.toNat
  | .treeSt => ptrValue s.root + 65536 * ptrValue s.cur
  | .payCap => s.payCap.toNat
  | .outCap => s.outCap.toNat

/-- The numbers of the sixteen registers, written out from the table of 10_state R32. -/
def registerNumbers : List (Nat × Reg) :=
  [(0, .status), (1, .einfo), (2, .ebitsLo), (3, .ebitsHi), (4, .tbcinLo), (5, .tbcinHi), (6, .dbitsLo), (7, .dbitsHi),
   (8, .dposLo), (9, .dposHi), (10, .payLen), (11, .outLen), (12, .packSt), (13, .treeSt), (14, .payCap), (15, .outCap)]

/-- The bits a PBITS pushes, first first: `v[n-1], …, v[0]` (41_bitpacker R101). -/
def pbitsBits (n : BitVec 5) (v : BitVec 16) : List Bool :=
  (List.range n.toNat).map (fun j => v.getLsbD (n.toNat - 1 - j))

/-- A symbol's code as CT holds it: `code[0], …, code[L-1]` (10_state R10). -/
def codeOf (s : State) (sym : Sym) : List Bool :=
  (List.range (ctEntry s sym).len.toNat).map (fun i => (ctEntry s sym).code.getLsbD i)

/-- What pushing `bits` does when it fits (41_bitpacker R100, R101; 42_encoder R110): the bits follow those the packer
held, EBITS counts them, and nothing but the packer, the completed bytes and the response changes. The bytes stored are
those at `PAYLEN … PAYLEN + (NB + n) div 8 - 1`. -/
def Pushed (bits : List Bool) (d : Word) (s t : State) : Prop :=
  packedBits t = packedBits s ++ bits ∧
  t.payLen.toNat = s.payLen.toNat + (s.nb.toNat + bits.length) / 8 ∧
  t.nb.toNat = (s.nb.toNat + bits.length) % 8 ∧
  t.ebits = s.ebits + BitVec.ofNat 64 bits.length ∧
  (AccPad s → AccPad t) ∧
  (∀ a, a < s.payLen.toNat ∨ s.payLen.toNat + (s.nb.toNat + bits.length) / 8 ≤ a → payByte t a = payByte s a) ∧
  (∀ a, outByte t a = outByte s a) ∧
  t.rsp = some ⟨.ok, d⟩ ∧
  t = { s with acc := t.acc, nb := t.nb, ebits := t.ebits, pay := t.pay, payLen := t.payLen, rsp := t.rsp }

/-- The bit at the unpacker's cursor: `PAY[DPOS div 8][7 - (DPOS mod 8)]` (43_bitunpacker R120). -/
def cursorBit (s : State) : Bool := (payByte s (s.dpos.toNat / 8)).getLsbD (7 - s.dpos.toNat % 8)

/-- The bit at the cursor exists: `DPOS < DBITS` and its byte is in PAY (43_bitunpacker R120). -/
def CursorBitThere (s : State) : Prop := s.dpos.toNat < s.dbits.toNat ∧ s.dpos.toNat / 8 < s.payLen.toNat

/-- The commands that fault by no rule of their own (60_exceptions R181). -/
def neverFaults : Instr → Bool
  | .ctclr | .ctlen _ _ | .ctbit _ _ _ | .ctrd _ _ | .tclr | .tleaf _ _ | .tint _ | .tsngl _ | .tleft _ _ | .tright _ _
  | .troot _ | .trd _ | .pclr | .dcnt _ _ | .dstart | .rdreg _ | .sreset => true
  | .pbits _ _ | .pflush | .esym _ | .payw _ | .payr _ | .outr _ | .ubit | .dstep | .drun => false

/-- The commands that write CT (10_state R11). -/
def writesCt : Instr → Bool
  | .ctclr | .ctlen _ _ | .ctbit _ _ _ | .sreset => true
  | _ => false

/-- The commands that write TN or ROOT (10_state R24). -/
def writesTree : Instr → Bool
  | .tclr | .tleaf _ _ | .tint _ | .tsngl _ | .tleft _ _ | .tright _ _ | .troot _ | .sreset => true
  | _ => false

/-- What the host has after recovering from a session that failed in `u`: ERR and EINFO of `u`, and the block it began with,
`s`, as SRESET leaves it (45_readout_system R144). -/
def afterRecovery (s u : State) : HostResult × State :=
  (.blockFault u.err u.einfo, { State.resetFor s.payCap s.outCap with inputs := s.inputs, rsp := some ⟨.ok, 0⟩ })

/-- Strictly ascending by symbol (47_host_reference R151). -/
def Ascending (table : FreqTable) : Prop := table.Pairwise (fun a b => a.1.toNat < b.1.toNat)

end Sys2Proof.Claims

open Sys2Proof Sys2Proof.Machine Sys2Proof.Claims

/-! ## The step and the encoding -/

/-- A word at the port that decodes to a command: the step is exec of that command, on the state with the word taken from
the port; nothing else is added around exec (30_encoding R60, R67; the port is the model's own, log entry 1). -/
def Obligations.StepRunsDecodedCommand : Prop :=
  ∀ (s : State) (w : Word) (rest : List Input) (i : Instr),
    s.inputs = .command w :: rest → decode w = .ok i → step s = exec i { s with inputs := rest }

/-- 30_encoding R65: which words are illegal, and what the block does with one. -/
def Obligations.IllegalWordsFault : Prop :=
  (∀ w : Word, Illegal w ↔ ∀ i, decode w ≠ .ok i) ∧
  Illegal 0x00000000 ∧ Illegal 0xFFFFFFFF ∧
  (∀ (s : State) (w : Word) (rest : List Input), s.inputs = .command w :: rest → Illegal w →
    (s.err = 0 → step s = .next { s with inputs := rest, err := 6, einfo := w, rsp := some ⟨.fault, 6⟩ }) ∧
    (s.err ≠ 0 → step s = .next { s with inputs := rest, rsp := some ⟨.refused, 0⟩ }))

/-- 70_reset R200, R201: `rst`, asserted between commands or during one, gives the reset state and no response; with
nothing at the port the block waits. That a reset and a wait are steps of their own is the model's form (log entry 1). -/
def Obligations.HardwareResetAndWaiting : Prop :=
  (∀ (s : State) (during : Option Word) (rest : List Input), s.inputs = .reset during :: rest →
    step s = .next { State.resetFor s.payCap s.outCap with inputs := rest, rsp := none }) ∧
  (∀ s : State, s.inputs = [] → step s = .next s)

/-- Decode of encode is the identity on every well-formed command, every operand at every value (30_encoding R62, R63). -/
def Obligations.DecodeEncodeRoundTrip : Prop :=
  ∀ i : Instr, i.wellFormed = true → decode (encode i) = .ok i

/-- The other direction: a word that decodes gives a well-formed command whose encoding is that word, so a command has one
word (30_encoding R62, R63). -/
def Obligations.DecodedWordReencodes : Prop :=
  ∀ (w : Word) (i : Instr), decode w = .ok i → i.wellFormed = true ∧ encode i = w

/-- 30_encoding R64: the 26 rows, pairwise exclusive; a word selects a row exactly when `(w AND mask) = match`; a word that
selects none is illegal. -/
def Obligations.DecodeFollowsCommandTable : Prop :=
  commandTable.map (fun r => r.1) = Op.all ∧ Op.all.length = 26 ∧ (∀ o o' : Op, o.code = o'.code → o = o') ∧
  (∀ r ∈ commandTable, r.2.1 = r.1.code.setWidth 32 <<< 26 ∧ r.2.2 = 0xFC000000 ||| r.1.format.mbz) ∧
  (∀ r ∈ commandTable, ∀ w : Word, (∃ i, decode w = .ok i ∧ i.op = r.1) ↔ w &&& r.2.2 = r.2.1) ∧
  (∀ w : Word, (∀ r ∈ commandTable, w &&& r.2.2 ≠ r.2.1) ↔ Illegal w)

/-- Words of 95_test_vectors B-X, one per format, decode to the commands they stand for. -/
def Obligations.WrittenWordsDecode : Prop :=
  decode 0x04000000 = .ok .sreset ∧ decode 0x0800000D = .ok (.rdreg .treeSt) ∧ decode 0x70000061 = .ok (.esym 0x61) ∧
  decode 0x24006101 = .ok (.ctlen 0x61 1) ∧ decode 0x28014302 = .ok (.ctbit 0x43 2 true) ∧
  decode 0x38000004 = .ok (.tint 4) ∧ decode 0x3401FE01 = .ok (.tleaf 1 0xFF) ∧ decode 0x44000E08 = .ok (.tright 8 7) ∧
  decode 0x640C1671 = .ok (.pbits 13 0x1671) ∧ decode 0x8800000E = .ok (.outr 14) ∧ decode 0xA0030001 = .ok (.dcnt 3 1)

/-! ## Reset, invariant, whole-machine rules -/

/-- 10_state R36: the reset state, after hardware reset (State.reset) and after SRESET, for every capacity; STATUS then reads 0x300 and
`err_o` is 0; a lookup before any load raises CORRUPT_CODE_TABLE, a walk before any load CORRUPT_STREAM_NOCHILD; no byte
of a buffer is readable. -/
def Obligations.ResetStateValues : Prop :=
  (∀ pc oc : BitVec 25, ∀ t : State, t = State.resetFor pc oc →
    (∀ sym, (ctEntry t sym).len = 0 ∧ (ctEntry t sym).code = 0) ∧
    (∀ i, tnNode t i = ⟨.invalid, 0, .null, .null⟩) ∧
    t.root = .null ∧ t.acc = 0 ∧ t.nb = 0 ∧ t.ebits = 0 ∧ t.payLen = 0 ∧ t.tbcin = 0 ∧ t.dbits = 0 ∧ t.dpos = 0 ∧
    t.cur = .null ∧ t.outLen = 0 ∧ t.err = 0 ∧ t.einfo = 0 ∧
    statusWord t = 0x00000300 ∧ errO t = false ∧
    (∀ sym, Raises (.esym sym) t .corruptCodeTable (sym.setWidth 32)) ∧
    (∀ idx, Raises (.payr idx) t .badIndex (idx.setWidth 32) ∧ Raises (.outr idx) t .badIndex (idx.setWidth 32))) ∧
  (∀ s : State, exec .sreset s = .next
    { State.resetFor s.payCap s.outCap with inputs := s.inputs, rsp := some ⟨.ok, 0⟩ }) ∧
  (∀ s : State, s.err = 0 → s.tn = [] → s.root = .null → s.cur = .null → CursorBitThere s →
    Raises .dstep s .corruptStreamNoChild (low s.dpos)) ∧
  State.reset = State.resetFor Config.payCap Config.outCap

/-- The invariant holds at reset, for every capacity in 1..2^24 (00_scope R4) and for State.reset. -/
def Obligations.ResetMeetsInvariant : Prop :=
  (∀ pc oc : BitVec 25, 1 ≤ pc.toNat → pc.toNat ≤ 16777216 → 1 ≤ oc.toNat → oc.toNat ≤ 16777216 →
    (State.resetFor pc oc).Inv) ∧ State.reset.Inv

/-- Every step from every state that meets the invariant keeps it (10_state R20, R25, R26, R27; 60_exceptions R180). -/
def Obligations.StepKeepsInvariant : Prop :=
  ∀ s t : State, s.Inv → step s = .next t → t.Inv

/-- 30_encoding R60, 70_reset R220: every command word, whatever the state, is answered by a next state with one response,
and no other input is consumed; the machine never stops. -/
def Obligations.EveryCommandIsAnswered : Prop :=
  (∀ s : State, ∃ t, step s = .next t) ∧
  (∀ (s : State) (w : Word) (rest : List Input), s.inputs = .command w :: rest →
    ∃ t r, step s = .next t ∧ t.rsp = some r ∧ t.inputs = rest)

/-- 60_exceptions R185: once `ERR ≠ 0`, no command word but SRESET's changes ERR or EINFO. -/
def Obligations.FirstFaultIsKept : Prop :=
  ∀ (s t : State) (w : Word) (rest : List Input), s.err ≠ 0 → s.inputs = .command w :: rest → decode w ≠ .ok .sreset →
    step s = .next t → t.err = s.err ∧ t.einfo = s.einfo

/-- 60_exceptions R186: in the fault state RDREG and SRESET are executed normally; every other word, legal or illegal, gets
`(REFUSED, 0)` and changes no state. -/
def Obligations.FaultStateRefuses : Prop :=
  ∀ (s : State) (w : Word) (rest : List Input), s.err ≠ 0 → s.inputs = .command w :: rest →
    (∀ r, decode w = .ok (.rdreg r) →
      ∃ t d, step s = .next t ∧ d.toNat = regValue s r ∧ t = { s with inputs := rest, rsp := some ⟨.ok, d⟩ }) ∧
    (decode w = .ok .sreset →
      step s = .next { State.resetFor s.payCap s.outCap with inputs := rest, rsp := some ⟨.ok, 0⟩ }) ∧
    ((∀ r, decode w ≠ .ok (.rdreg r)) → decode w ≠ .ok .sreset →
      step s = .next { s with inputs := rest, rsp := some ⟨.refused, 0⟩ })

/-- 60_exceptions R188: a step that leaves the fault state is SRESET's or a hardware reset's, and it leaves the whole block
in the reset state. -/
def Obligations.FaultStateLeftByResetOnly : Prop :=
  ∀ s t : State, s.err ≠ 0 → step s = .next t → t.err = 0 →
    ∃ rest, ((∃ w, s.inputs = .command w :: rest ∧ decode w = .ok .sreset) ∨ (∃ d, s.inputs = .reset d :: rest)) ∧
      t = { State.resetFor s.payCap s.outCap with inputs := rest, rsp := t.rsp }

/-- 60_exceptions R184: a command but DRUN that raises a fault other than CORRUPT_STREAM_TAIL writes nothing but ERR, EINFO
and the response; CORRUPT_STREAM_TAIL is DSTEP's, with the last bit consumed. -/
def Obligations.FaultsArePrecise : Prop :=
  ∀ (i : Instr) (s t : State), i ≠ .drun → s.err = 0 → exec i s = .next t → t.err ≠ 0 →
    (t.err ≠ 3 → t = { s with err := t.err, einfo := t.einfo, rsp := some ⟨.fault, t.err.setWidth 32⟩ }) ∧
    (t.err = 3 → i = .dstep ∧ t.dpos = s.dpos + 1 ∧ t.dpos = t.dbits ∧ t.cur ≠ t.root ∧
      t = { s with dpos := t.dpos, cur := t.cur, err := 3, einfo := low t.dpos, rsp := some ⟨.fault, 3⟩ })

/-- 60_exceptions R180, the columns "raised by", "condition" and "EINFO": which commands leave which code, and with what
information. (ILLEGAL_COMMAND is raised by no command but by an illegal word: `IllegalWordsFault`.) -/
def Obligations.FaultCausesAndInformation : Prop :=
  ∀ (i : Instr) (s t : State), s.err = 0 → exec i s = .next t → t.err ≠ 0 →
    (t.err = 1 ∧ ∃ sym, i = .esym sym ∧ (ctEntry s sym).len = 0 ∧ t.einfo = sym.setWidth 32) ∨
    (t.err = 2 ∧ (i = .dstep ∨ i = .drun) ∧ CursorBitThere t ∧ t.einfo = low t.dpos ∧
      (child t (cursorBit t) = .null ∨ ∃ c, child t (cursorBit t) = .node c ∧ (tnNode t c).kind = .invalid)) ∨
    (t.err = 3 ∧ (i = .dstep ∨ i = .drun) ∧ t.dpos = t.dbits ∧ t.cur ≠ t.root ∧ t.einfo = low t.dbits) ∨
    (t.err = 4 ∧ (i = .ubit ∨ i = .dstep ∨ i = .drun) ∧ t.dpos.toNat < t.dbits.toNat ∧
      t.payLen.toNat ≤ t.dpos.toNat / 8 ∧ t.einfo = low t.dpos) ∨
    (t.err = 5 ∧ t.einfo = 0 ∧
      ((∃ n v, i = .pbits n v ∧ s.payCap.toNat < s.payLen.toNat + (s.nb.toNat + n.toNat) / 8) ∨
       (∃ sym, i = .esym sym ∧ (ctEntry s sym).len ≠ 0 ∧
         s.payCap.toNat < s.payLen.toNat + (s.nb.toNat + (ctEntry s sym).len.toNat) / 8) ∨
       (i = .pflush ∧ s.nb ≠ 0 ∧ s.payLen = s.payCap) ∨ (∃ b, i = .payw b ∧ s.payLen = s.payCap))) ∨
    (t.err = 5 ∧ (i = .dstep ∨ i = .drun) ∧ t.einfo = 1 ∧ t.outLen = t.outCap ∧ CursorBitThere t ∧
      ∃ c, child t (cursorBit t) = .node c ∧ (tnNode t c).kind = .leaf) ∨
    (t.err = 7 ∧ ∃ idx : BitVec 24, t.einfo = idx.setWidth 32 ∧
      ((i = .payr idx ∧ s.payLen.toNat ≤ idx.toNat) ∨ (i = .outr idx ∧ s.outLen.toNat ≤ idx.toNat)))

/-- 60_exceptions R181: the seventeen commands that raise no fault of their own; each can fail only by being refused. -/
def Obligations.CommandsThatNeverFault : Prop :=
  ∀ (i : Instr) (s t : State), neverFaults i = true → exec i s = .next t →
    (s.err = 0 → t.err = 0 ∧ ∃ d, t.rsp = some ⟨.ok, d⟩) ∧
    (s.err ≠ 0 → t.rsp = some ⟨.refused, 0⟩ ∨ i = .sreset ∨ ∃ r, i = .rdreg r)

/-- 60_exceptions R182, 30_encoding R66: outside the fault state, `err_o` rises with a command exactly when that command's
response is FAULT, whose data is ERR. -/
def Obligations.ErrorLineRisesWithFault : Prop :=
  ∀ (s t : State) (w : Word) (rest : List Input), s.err = 0 → s.inputs = .command w :: rest → step s = .next t →
    (errO t = true ↔ ∃ d, t.rsp = some ⟨.fault, d⟩) ∧ (∀ d, t.rsp = some ⟨.fault, d⟩ → d = t.err.setWidth 32)

/-- 10_state R11: among all commands only CTCLR, CTLEN, CTBIT and SRESET write CT, and beside them hardware reset. -/
def Obligations.CodeTableIsReadOnly : Prop :=
  (∀ (i : Instr) (s t : State), writesCt i = false → exec i s = .next t → t.ct = s.ct) ∧
  (∀ s t : State, step s = .next t → t.ct ≠ s.ct →
    (∃ w rest i, s.inputs = .command w :: rest ∧ decode w = .ok i ∧ writesCt i = true) ∨
    (∃ d rest, s.inputs = .reset d :: rest))

/-- 10_state R24, first sentence: only the tree's load commands, SRESET and hardware reset write TN and ROOT. -/
def Obligations.TreeIsReadOnly : Prop :=
  (∀ (i : Instr) (s t : State), writesTree i = false → exec i s = .next t → t.tn = s.tn ∧ t.root = s.root) ∧
  (∀ s t : State, step s = .next t → (t.tn ≠ s.tn ∨ t.root ≠ s.root) →
    (∃ w rest i, s.inputs = .command w :: rest ∧ decode w = .ok i ∧ writesTree i = true) ∨
    (∃ d rest, s.inputs = .reset d :: rest))

/-- 20_memory R48: a byte once appended keeps its value until its buffer is emptied: PAY by PCLR or SRESET, OUT by DSTART
or SRESET. -/
def Obligations.BuffersAreAppendOnly : Prop :=
  ∀ (i : Instr) (s t : State), s.Inv → exec i s = .next t →
    (i ≠ .pclr → i ≠ .sreset → s.payLen.toNat ≤ t.payLen.toNat ∧ ∀ a, a < s.payLen.toNat → payByte t a = payByte s a) ∧
    (i ≠ .dstart → i ≠ .sreset → s.outLen.toNat ≤ t.outLen.toNat ∧ ∀ a, a < s.outLen.toNat → outByte t a = outByte s a)

/-! ## The code table -/

/-- 40_config R80, CTCLR. -/
def Obligations.CtclrEmptiesTable : Prop :=
  decode 0x20000000 = .ok .ctclr ∧
  ∀ s : State, s.err = 0 → ∃ t, exec .ctclr s = .next t ∧
    (∀ sym, (ctEntry t sym).len = 0 ∧ ∀ i, (ctEntry t sym).code.getLsbD i = false) ∧
    t.rsp = some ⟨.ok, 0⟩ ∧ t = { s with ct := t.ct, rsp := t.rsp } ∧ SameBytes s t ∧
    (∀ sym, Raises (.esym sym) t .corruptCodeTable (sym.setWidth 32))

/-- 40_config R81, CTLEN. -/
def Obligations.CtlenOpensEntry : Prop :=
  ∀ (sym : Sym) (len : BitVec 8),
    decode (0x24000000 ||| (sym.setWidth 32 <<< 8) ||| len.setWidth 32) = .ok (.ctlen sym len) ∧
    ∀ s : State, s.canonical = true → s.err = 0 → ∃ t, exec (.ctlen sym len) s = .next t ∧
      (ctEntry t sym).len = len ∧ (∀ i, (ctEntry t sym).code.getLsbD i = false) ∧
      codeOf t sym = List.replicate len.toNat false ∧
      (∀ x, x ≠ sym → ctEntry t x = ctEntry s x) ∧
      t.rsp = some ⟨.ok, 0⟩ ∧ t = { s with ct := t.ct, rsp := t.rsp } ∧ SameBytes s t

/-- 40_config R82, CTBIT: one bit of one entry, for an `idx` below, at and past the entry's length alike. -/
def Obligations.CtbitWritesOneBit : Prop :=
  ∀ (sym : Sym) (idx : BitVec 8) (b : Bool),
    decode (0x28000000 ||| ((BitVec.ofBool b).setWidth 32 <<< 16) ||| (sym.setWidth 32 <<< 8) ||| idx.setWidth 32)
      = .ok (.ctbit sym idx b) ∧
    ∀ s : State, s.canonical = true → s.err = 0 → ∃ t, exec (.ctbit sym idx b) s = .next t ∧
      (ctEntry t sym).len = (ctEntry s sym).len ∧
      (∀ i, i < 256 → (ctEntry t sym).code.getLsbD i = if i = idx.toNat then b else (ctEntry s sym).code.getLsbD i) ∧
      (∀ x, x ≠ sym → ctEntry t x = ctEntry s x) ∧
      t.rsp = some ⟨.ok, 0⟩ ∧ t = { s with ct := t.ct, rsp := t.rsp } ∧ SameBytes s t

/-- 40_config R83, CTRD: data[7:0] the length, data[8] the code bit, the rest 0. -/
def Obligations.CtrdReadsEntry : Prop :=
  ∀ (sym : Sym) (idx : BitVec 8),
    decode (0x2C000000 ||| (sym.setWidth 32 <<< 8) ||| idx.setWidth 32) = .ok (.ctrd sym idx) ∧
    ∀ s : State, s.err = 0 → ∃ t d, exec (.ctrd sym idx) s = .next t ∧ t = { s with rsp := some ⟨.ok, d⟩ } ∧
      d.toNat = (ctEntry s sym).len.toNat + 256 * flagValue ((ctEntry s sym).code.getLsbD idx.toNat = true) ∧
      SameBytes s t

/-! ## The tree -/

/-- 40_config R84, TCLR: every node INVALID, ROOT NULL, CUR kept. -/
def Obligations.TclrEmptiesTree : Prop :=
  decode 0x30000000 = .ok .tclr ∧
  ∀ s : State, s.err = 0 → ∃ t, exec .tclr s = .next t ∧
    (∀ i, tnNode t i = ⟨.invalid, 0, .null, .null⟩) ∧ t.root = .null ∧ rootV t = false ∧
    (atRoot t = true ↔ s.cur = .null) ∧
    t.rsp = some ⟨.ok, 0⟩ ∧ t = { s with tn := t.tn, root := .null, rsp := t.rsp } ∧ SameBytes s t

/-- 40_config R85, R86, R87: TLEAF, TINT, TSNGL write a whole node with no children; every other node is as before. -/
def Obligations.NodeCommandsWriteNode : Prop :=
  ∀ (idx : NodeIdx) (sym : Sym),
    decode (0x34000000 ||| (sym.setWidth 32 <<< 9) ||| idx.setWidth 32) = .ok (.tleaf idx sym) ∧
    decode (0x38000000 ||| idx.setWidth 32) = .ok (.tint idx) ∧
    decode (0x3C000000 ||| idx.setWidth 32) = .ok (.tsngl idx) ∧
    ∀ s : State, s.canonical = true → s.err = 0 → ∀ (i : Instr) (n : Node),
      (i = .tleaf idx sym ∧ n = ⟨.leaf, sym, .null, .null⟩) ∨ (i = .tint idx ∧ n = ⟨.internal, 0, .null, .null⟩) ∨
        (i = .tsngl idx ∧ n = ⟨.single, 0, .null, .null⟩) →
      ∃ t, exec i s = .next t ∧ tnNode t idx = n ∧ (∀ x, x ≠ idx → tnNode t x = tnNode s x) ∧
        t.rsp = some ⟨.ok, 0⟩ ∧ t = { s with tn := t.tn, rsp := t.rsp } ∧ SameBytes s t

/-- 40_config R88, R89: TLEFT and TRIGHT write one pointer of a node of any kind, itself as its own child included, and
nothing else of it. -/
def Obligations.ChildCommandsWritePointer : Prop :=
  ∀ idx c : NodeIdx,
    decode (0x40000000 ||| (c.setWidth 32 <<< 9) ||| idx.setWidth 32) = .ok (.tleft idx c) ∧
    decode (0x44000000 ||| (c.setWidth 32 <<< 9) ||| idx.setWidth 32) = .ok (.tright idx c) ∧
    ∀ s : State, s.canonical = true → s.err = 0 →
      (∃ t, exec (.tleft idx c) s = .next t ∧ tnNode t idx = { tnNode s idx with left := .node c } ∧
        (∀ x, x ≠ idx → tnNode t x = tnNode s x) ∧
        t.rsp = some ⟨.ok, 0⟩ ∧ t = { s with tn := t.tn, rsp := t.rsp } ∧ SameBytes s t) ∧
      (∃ t, exec (.tright idx c) s = .next t ∧ tnNode t idx = { tnNode s idx with right := .node c } ∧
        (∀ x, x ≠ idx → tnNode t x = tnNode s x) ∧
        t.rsp = some ⟨.ok, 0⟩ ∧ t = { s with tn := t.tn, rsp := t.rsp } ∧ SameBytes s t)

/-- 40_config R90, TROOT: ROOT, for a node of any kind; CUR is not changed. -/
def Obligations.TrootSetsRoot : Prop :=
  ∀ idx : NodeIdx, decode (0x48000000 ||| idx.setWidth 32) = .ok (.troot idx) ∧
    ∀ s : State, s.err = 0 → ∃ t, exec (.troot idx) s = .next t ∧
      t = { s with root := .node idx, rsp := some ⟨.ok, 0⟩ } ∧ rootV t = true ∧ (atRoot t = true ↔ s.cur = .node idx) ∧
      SameBytes s t

/-- 40_config R91, TRD: data[1:0] kind, [9:2] sym, [19:10] left, [29:20] right. -/
def Obligations.TrdReadsNode : Prop :=
  ∀ idx : NodeIdx, decode (0x4C000000 ||| idx.setWidth 32) = .ok (.trd idx) ∧
    ∀ s : State, s.err = 0 → ∃ t d, exec (.trd idx) s = .next t ∧ t = { s with rsp := some ⟨.ok, d⟩ } ∧
      d.toNat = (tnNode s idx).kind.code.toNat + 4 * (tnNode s idx).sym.toNat + 1024 * ptrValue (tnNode s idx).left
        + 1048576 * ptrValue (tnNode s idx).right ∧
      SameBytes s t

/-! ## The packer and the encoder -/

/-- 41_bitpacker R100: PushBit appends one bit after those the packer holds, keeps the unfilled bits of ACC zero, and
counts: PAYLEN and NB are the quotient and remainder of the number of bits; consequence (b) for PBITS and ESYM. -/
def Obligations.PushBitAppendsOneBit : Prop :=
  (∀ (b : Bool) (s : State), s.canonical = true → s.payLen.toNat + (s.nb.toNat + 1) / 8 < 33554432 →
    packedBits (pushBit b s) = packedBits s ++ [b] ∧ (AccPad s → AccPad (pushBit b s)) ∧
    8 * (pushBit b s).payLen.toNat + (pushBit b s).nb.toNat = 8 * s.payLen.toNat + s.nb.toNat + 1 ∧
    pushBit b s = { s with acc := (pushBit b s).acc, nb := (pushBit b s).nb, pay := (pushBit b s).pay,
                           payLen := (pushBit b s).payLen }) ∧
  (∀ s t : State, exec .pclr s = .next t → s.err = 0 → Tracks t ∧ packedBits t = []) ∧
  (∀ (i : Instr) (s t : State), ((∃ n v, i = .pbits n v) ∨ ∃ sym, i = .esym sym) → s.canonical = true → Tracks s →
    exec i s = .next t →
    Tracks t ∧ t.payLen.toNat = t.ebits.toNat / 8 ∧ t.nb.toNat = t.ebits.toNat % 8)

/-- 41_bitpacker R101, PBITS: the bits `v[n-1] … v[0]` are pushed, or, where the bytes this completes do not fit,
BUFFER_FULL(0) and nothing else. -/
def Obligations.PbitsPushesBits : Prop :=
  ∀ (n : BitVec 5) (v : BitVec 16),
    ((Instr.pbits n v).wellFormed = true →
      decode (0x64000000 ||| BitVec.ofNat 32 ((n.toNat - 1) * 65536) ||| v.setWidth 32) = .ok (.pbits n v)) ∧
    ∀ s : State, s.canonical = true → s.err = 0 →
      (s.payLen.toNat + (s.nb.toNat + n.toNat) / 8 ≤ s.payCap.toNat →
        ∃ t, exec (.pbits n v) s = .next t ∧ Pushed (pbitsBits n v) 0 s t) ∧
      (s.payCap.toNat < s.payLen.toNat + (s.nb.toNat + n.toNat) / 8 → Raises (.pbits n v) s .bufferFull 0)

/-- 41_bitpacker R102, PCLR: the packer, EBITS and PAY are emptied; every byte of PAY becomes unreadable; all else stays.
(What PAY's bytes then are, the rule leaves open, and so does this statement.) -/
def Obligations.PclrEmptiesPacker : Prop :=
  decode 0x60000000 = .ok .pclr ∧
  ∀ s : State, s.err = 0 → ∃ t, exec .pclr s = .next t ∧
    t = { s with acc := 0, nb := 0, ebits := 0, pay := t.pay, payLen := 0, rsp := some ⟨.ok, 0⟩ } ∧
    (∀ a, outByte t a = outByte s a) ∧ packedBits t = [] ∧
    (∀ idx, Raises (.payr idx) t .badIndex (idx.setWidth 32)) ∧
    (s.dpos.toNat < s.dbits.toNat →
      Raises .ubit t .payloadShort (low s.dpos) ∧ Raises .dstep t .payloadShort (low s.dpos))

/-- 41_bitpacker R103, PFLUSH: with NB = 0 nothing; else BUFFER_FULL(0) when PAY is full; else ACC, whose unfilled bits are
zero, becomes the next byte. EBITS is never changed. Where the packer holds exactly the bits counted, PAYLEN is
`ceil(EBITS / 8)` afterwards. -/
def Obligations.PflushPadsAndAppends : Prop :=
  decode 0x68000000 = .ok .pflush ∧
  ∀ s : State, s.Inv → s.err = 0 →
    (s.nb = 0 → exec .pflush s = .next { s with rsp := some ⟨.ok, 0⟩ } ∧
      (Tracks s → s.payLen.toNat = (s.ebits.toNat + 7) / 8)) ∧
    (s.nb ≠ 0 → s.payLen = s.payCap → Raises .pflush s .bufferFull 0) ∧
    (s.nb ≠ 0 → s.payLen ≠ s.payCap → ∃ t, exec .pflush s = .next t ∧
      payByte t s.payLen.toNat = s.acc ∧ (∀ i, i < 8 - s.nb.toNat → (payByte t s.payLen.toNat).getLsbD i = false) ∧
      (∀ a, a ≠ s.payLen.toNat → payByte t a = payByte s a) ∧ (∀ a, outByte t a = outByte s a) ∧
      t.payLen.toNat = s.payLen.toNat + 1 ∧ (Tracks s → t.payLen.toNat = (t.ebits.toNat + 7) / 8) ∧
      t = { s with acc := 0, nb := 0, pay := t.pay, payLen := t.payLen, rsp := some ⟨.ok, 0⟩ })

/-- 42_encoder R110, ESYM: no code, CORRUPT_CODE_TABLE(sym), whatever room there is; else no room, BUFFER_FULL(0); else the
code is pushed, `code[0]` first, and the response is its length. -/
def Obligations.EsymAppendsCode : Prop :=
  ∀ sym : Sym, decode (0x70000000 ||| sym.setWidth 32) = .ok (.esym sym) ∧
    ∀ s : State, s.canonical = true → s.err = 0 →
      ((ctEntry s sym).len = 0 → Raises (.esym sym) s .corruptCodeTable (sym.setWidth 32)) ∧
      ((ctEntry s sym).len ≠ 0 →
        s.payCap.toNat < s.payLen.toNat + (s.nb.toNat + (ctEntry s sym).len.toNat) / 8 →
        Raises (.esym sym) s .bufferFull 0) ∧
      ((ctEntry s sym).len ≠ 0 →
        s.payLen.toNat + (s.nb.toNat + (ctEntry s sym).len.toNat) / 8 ≤ s.payCap.toNat →
        ∃ t, exec (.esym sym) s = .next t ∧ Pushed (codeOf s sym) ((ctEntry s sym).len.setWidth 32) s t)

/-- 42_encoder R111: the BitString of a sequence of ESYM from a cleared packer, none faulting, is the concatenation of the
codes in input order, and EBITS the sum of their lengths; with no ESYM it is empty and PFLUSH appends nothing. -/
def Obligations.EsymSequenceConcatenates : Prop :=
  (∀ (bytes : List Byte) (s t : State), s.canonical = true → s.err = 0 → s.payLen = 0 → s.nb = 0 → s.ebits = 0 →
    runAll (estr bytes) s = .next t → t.err = 0 →
    packedBits t = bytes.flatMap (codeOf s) ∧
    t.ebits.toNat = (bytes.map (fun b => (ctEntry s b).len.toNat)).sum) ∧
  (∀ s : State, s.err = 0 → s.payLen = 0 → s.nb = 0 → s.ebits = 0 →
    ∃ t, runAll (estr [] ++ [.pflush]) s = .next t ∧ t.payLen = 0 ∧ t.ebits = 0 ∧ packedBits t = [])

/-! ## The unpacker -/

/-- 43_bitunpacker R122, DCNT: 16 bits of TBCIN at 16k, the other 48 unchanged; nothing else. -/
def Obligations.DcntWritesSlice : Prop :=
  ∀ (k : BitVec 2) (imm : BitVec 16),
    decode (0xA0000000 ||| (k.setWidth 32 <<< 16) ||| imm.setWidth 32) = .ok (.dcnt k imm) ∧
    ∀ s : State, s.err = 0 → ∃ t, exec (.dcnt k imm) s = .next t ∧
      (∀ j, j < 64 → t.tbcin.getLsbD j = if j / 16 = k.toNat then imm.getLsbD (j % 16) else s.tbcin.getLsbD j) ∧
      t = { s with tbcin := t.tbcin, rsp := some ⟨.ok, 0⟩ } ∧ SameBytes s t

/-- 43_bitunpacker R121, DSTART: the count and the root latched, bit 0, the output emptied and unreadable. (What OUT's bytes
then are, the rule leaves open, and so does this statement.) -/
def Obligations.DstartBeginsDecode : Prop :=
  decode 0xA4000000 = .ok .dstart ∧
  ∀ s : State, s.err = 0 → ∃ t, exec .dstart s = .next t ∧
    t = { s with dbits := s.tbcin, dpos := 0, cur := s.root, out := t.out, outLen := 0, rsp := some ⟨.ok, 0⟩ } ∧
    (∀ a, payByte t a = payByte s a) ∧ (dend t = true ↔ s.tbcin = 0) ∧ atRoot t = true ∧
    (∀ idx, Raises (.outr idx) t .badIndex (idx.setWidth 32))

/-- 43_bitunpacker R123 (with R120), UBIT: END at or past the end; PAYLOAD_SHORT where the byte is missing; else the bit
at the cursor, and DPOS one further. -/
def Obligations.UbitReadsNextBit : Prop :=
  decode 0xA8000000 = .ok .ubit ∧
  ∀ s : State, s.err = 0 →
    (s.dbits.toNat ≤ s.dpos.toNat → exec .ubit s = .next { s with rsp := some ⟨.ended, 0⟩ }) ∧
    (s.dpos.toNat < s.dbits.toNat → s.payLen.toNat ≤ s.dpos.toNat / 8 → Raises .ubit s .payloadShort (low s.dpos)) ∧
    (CursorBitThere s → ∃ t, exec .ubit s = .next t ∧
      t = { s with dpos := s.dpos + 1, rsp := some ⟨.ok, if cursorBit s then 1 else 0⟩ } ∧
      t.dpos.toNat = s.dpos.toNat + 1 ∧ SameBytes s t ∧ (dend t = true ↔ s.dpos.toNat + 1 = s.dbits.toNat))

/-- 43_bitunpacker R123, "reads exactly that many bits", with 20_memory R40: UBIT number `k` after DSTART returns bit `k` of
PAY, most significant bit first, for each `k` below DBITS, and every one after those responds END and reads nothing. -/
def Obligations.UbitReadsExactlyTheCount : Prop :=
  ∀ (s : State) (k : Nat), s.err = 0 → s.dpos = 0 → s.dbits.toNat ≤ 8 * s.payLen.toNat →
    (k < s.dbits.toNat → runAll (List.replicate (k + 1) .ubit) s = .next
      { s with dpos := BitVec.ofNat 64 (k + 1),
               rsp := some ⟨.ok, if (payByte s (k / 8)).getLsbD (7 - k % 8) then 1 else 0⟩ }) ∧
    (s.dbits.toNat ≤ k → runAll (List.replicate (k + 1) .ubit) s = .next
      { s with dpos := s.dbits, rsp := some ⟨.ended, 0⟩ })

/-- 43_bitunpacker R124: the pad bits of the last byte and surplus bytes make no difference. Two payloads that agree on
bits 0..DBITS-1 and both hold the bytes of those bits give the same response and the same state, but for PAY itself, to
UBIT, DSTEP and DRUN. -/
def Obligations.PadBitsAreIgnored : Prop :=
  ∀ (i : Instr) (s s' t : State), (i = .ubit ∨ i = .dstep ∨ i = .drun) → s' = { s with pay := s'.pay, payLen := s'.payLen } →
    s.dbits.toNat ≤ 8 * s.payLen.toNat → s.dbits.toNat ≤ 8 * s'.payLen.toNat →
    (∀ p, p < s.dbits.toNat → payBit s' p = payBit s p) →
    exec i s = .next t → exec i s' = .next { t with pay := s'.pay, payLen := s'.payLen }

/-! ## The decoder -/

/-- 44_decoder R130: the child a bit leads to, for a cursor on each kind of node and for NULL; and when the move is
impossible. -/
def Obligations.ChildOfCursor : Prop :=
  (∀ (s : State) (b : Bool),
    (s.cur = .null → child s b = .null) ∧
    (∀ i, s.cur = .node i →
      ((tnNode s i).kind = .internal → child s b = if b then (tnNode s i).right else (tnNode s i).left) ∧
      ((tnNode s i).kind = .single → child s b = if b then .null else (tnNode s i).left) ∧
      ((tnNode s i).kind = .leaf → child s b = .null) ∧
      ((tnNode s i).kind = .invalid → child s b = .null))) ∧
  (∀ s : State, s.err = 0 → CursorBitThere s →
    (child s (cursorBit s) = .null ∨ ∃ c, child s (cursorBit s) = .node c ∧ (tnNode s c).kind = .invalid) →
    Raises .dstep s .corruptStreamNoChild (low s.dpos))

/-- 44_decoder R131, DSTEP, line by line. -/
def Obligations.DstepMovesOneBit : Prop :=
  decode 0xAC000000 = .ok .dstep ∧
  ∀ s : State, s.Inv → s.err = 0 →
    (s.dbits.toNat ≤ s.dpos.toNat → exec .dstep s = .next { s with rsp := some ⟨.ended, 0⟩ }) ∧
    (s.dpos.toNat < s.dbits.toNat → s.payLen.toNat ≤ s.dpos.toNat / 8 → Raises .dstep s .payloadShort (low s.dpos)) ∧
    (CursorBitThere s →
      (child s (cursorBit s) = .null → Raises .dstep s .corruptStreamNoChild (low s.dpos)) ∧
      (∀ c, child s (cursorBit s) = .node c →
        ((tnNode s c).kind = .invalid → Raises .dstep s .corruptStreamNoChild (low s.dpos)) ∧
        ((tnNode s c).kind = .leaf → s.outLen = s.outCap → Raises .dstep s .bufferFull 1) ∧
        ((tnNode s c).kind = .leaf → s.outLen ≠ s.outCap → ∃ t, exec .dstep s = .next t ∧
          outByte t s.outLen.toNat = (tnNode s c).sym ∧ t.outLen.toNat = s.outLen.toNat + 1 ∧
          (∀ a, a ≠ s.outLen.toNat → outByte t a = outByte s a) ∧ (∀ a, payByte t a = payByte s a) ∧
          t = { s with dpos := s.dpos + 1, cur := s.root, out := t.out, outLen := t.outLen,
                       rsp := some ⟨.ok, BitVec.ofNat 32 (256 + (tnNode s c).sym.toNat)⟩ }) ∧
        ((tnNode s c).kind = .internal ∨ (tnNode s c).kind = .single →
          s.dpos.toNat + 1 = s.dbits.toNat → s.root ≠ .node c →
          exec .dstep s = .next { s with dpos := s.dpos + 1, cur := .node c, err := 3, einfo := low s.dbits,
                                         rsp := some ⟨.fault, 3⟩ }) ∧
        ((tnNode s c).kind = .internal ∨ (tnNode s c).kind = .single →
          (s.dpos.toNat + 1 ≠ s.dbits.toNat ∨ s.root = .node c) →
          exec .dstep s = .next { s with dpos := s.dpos + 1, cur := .node c, rsp := some ⟨.ok, 0⟩ })))

/-- 10_state R29: a DSTEP never leaves CUR on a LEAF, unless CUR is where it was or is ROOT. -/
def Obligations.DstepNeverRestsOnLeaf : Prop :=
  ∀ s t : State, exec .dstep s = .next t → t.cur = s.cur ∨ t.cur = t.root ∨
    ∃ c, t.cur = .node c ∧ ((tnNode t c).kind = .internal ∨ (tnNode t c).kind = .single)

/-- 44_decoder R132: DRUN is the repetition of DSTEP. From every state with `ERR = 0` some number of DSTEP, at most
`DBITS - DPOS`, reaches a state that is DRUN's final state: either a fault, the same one, or an exhausted sequence, to which
DSTEP responds END and DRUN `(OK, OUTLEN)`. -/
def Obligations.DrunIteratesDstep : Prop :=
  decode 0xB0000000 = .ok .drun ∧
  ∀ s : State, s.err = 0 → ∃ k u, k ≤ s.dbits.toNat - s.dpos.toNat ∧ runAll (List.replicate k .dstep) s = .next u ∧
    ((u.err ≠ 0 ∧ exec .drun s = .next u) ∨
     (u.err = 0 ∧ u.dbits.toNat ≤ u.dpos.toNat ∧ exec .dstep u = .next { u with rsp := some ⟨.ended, 0⟩ } ∧
      exec .drun s = .next { u with rsp := some ⟨.ok, u.outLen.setWidth 32⟩ }))

/-- 44_decoder R133: a sequence of zero bits decodes to zero bytes without a fault, with or without a tree. -/
def Obligations.ZeroBitsDecodeToNothing : Prop :=
  ∀ s : State, s.err = 0 → s.tbcin = 0 → ∃ t, exec .dstart s = .next t ∧ t.outLen = 0 ∧ t.cur = t.root ∧
    exec .dstep t = .next { t with rsp := some ⟨.ended, 0⟩ } ∧ exec .drun t = .next { t with rsp := some ⟨.ok, 0⟩ }

/-- 44_decoder R134: with `TN[0] = LEAF(sym)`, `TN[1] = SINGLE(left = PTR(0))`, `ROOT = PTR(1)`: a 0 bit emits `sym` and
returns to the root, a 1 bit raises CORRUPT_STREAM_NOCHILD, and DBITS zero bits give DBITS times `sym`. -/
def Obligations.SingleSymbolTreeDecodes : Prop :=
  ∀ (s : State) (sym : Sym), s.Inv → s.err = 0 → (tnNode s 0).kind = .leaf → (tnNode s 0).sym = sym →
    (tnNode s 1).kind = .single → (tnNode s 1).left = .node 0 → s.root = .node 1 → s.cur = s.root →
    (CursorBitThere s → cursorBit s = true → Raises .dstep s .corruptStreamNoChild (low s.dpos)) ∧
    (CursorBitThere s → cursorBit s = false → s.outLen ≠ s.outCap → ∃ t, exec .dstep s = .next t ∧ t.err = 0 ∧
      t.cur = t.root ∧ t.dpos = s.dpos + 1 ∧ outputBytes t = outputBytes s ++ [sym]) ∧
    (s.dpos = 0 → s.outLen = 0 → s.dbits.toNat ≤ 8 * s.payLen.toNat → s.dbits.toNat ≤ s.outCap.toNat →
      (∀ p, p < s.dbits.toNat → payBit s p = false) →
      ∃ t, exec .drun s = .next t ∧ t.err = 0 ∧ outputBytes t = List.replicate s.dbits.toNat sym ∧
        t.rsp = some ⟨.ok, BitVec.ofNat 32 s.dbits.toNat⟩)

/-- 44_decoder R135: the round trip. Whenever every symbol's code in CT is the path in TN from ROOT to a leaf of that
symbol, and the capacities suffice, encoding any sequence of symbols that have codes and decoding the payload with the
EBITS read raises no fault and gives the sequence back. -/
def Obligations.EncodeThenDecodeRoundTrips : Prop :=
  ∀ (bytes : List Byte) (s : State), s.Inv → s.err = 0 → codesArePaths s →
    (∀ b ∈ bytes, (ctEntry s b).len ≠ 0) →
    ((bytes.map (fun b => (ctEntry s b).len.toNat)).sum + 7) / 8 ≤ s.payCap.toNat → bytes.length ≤ s.outCap.toNat →
    ∃ t u, runAll (encodeSession bytes) s = .next t ∧ t.err = 0 ∧ t.nb = 0 ∧ t.rsp = some ⟨.ok, 0⟩ ∧
      runAll (decodeSession t.ebits) t = .next u ∧ endsAtRoot u ∧ outputBytes u = bytes ∧
      u.rsp = some ⟨.ok, BitVec.ofNat 32 bytes.length⟩

/-- 70_reset R203: a finished encode session ends with ERR = 0 and NB = 0; a finished decode session, ended by DRUN's OK or
by DSTEP's END, with ERR = 0, DPOS = DBITS = the count and the cursor at the root. A DRUN that responds OK, issued with the cursor at the root or bits left, ends so from any state of
the invariant, with OUTLEN as its response. The host that steps to END reads the output that the host that runs DRUN reads. -/
def Obligations.DecodeSessionEndsAtRoot : Prop :=
  (∀ (bytes : List Byte) (s t : State), encodeFinished bytes s t → t.err = 0 ∧ t.nb = 0) ∧
  (∀ (count : Count) (last : Instr) (s t : State), decodeFinished count last s t →
    endsAtRoot t ∧ t.dpos = count ∧ t.dbits = count ∧ t.cur = t.root) ∧
  (∀ (s t : State) (d : Word), s.Inv → s.err = 0 → (s.dpos ≠ s.dbits ∨ s.cur = s.root) → exec .drun s = .next t →
    t.rsp = some ⟨.ok, d⟩ → endsAtRoot t ∧ t.dpos = t.dbits ∧ t.cur = t.root ∧ d = t.outLen.setWidth 32) ∧
  (∀ (table : FreqTable) (tree : HuffTree) (count : Count) (payload out : List Byte) (s t : State), s.Inv →
    decodeByStepsOnBlock table tree count payload s = .got out t →
    endsAtRoot t ∧ out = outputBytes t ∧ ∃ u, decodeOnBlock table tree count payload s = .got out u)

/-! ## Buffers, registers, system, pseudo-commands -/

/-- 45_readout_system R140, PAYW: BUFFER_FULL(0) when PAY is full, else the byte is appended; ACC, NB and EBITS are
untouched. -/
def Obligations.PaywAppendsByte : Prop :=
  ∀ byte : Byte, decode (0x80000000 ||| byte.setWidth 32) = .ok (.payw byte) ∧
    ∀ s : State, s.Inv → s.err = 0 →
      (s.payLen = s.payCap → Raises (.payw byte) s .bufferFull 0) ∧
      (s.payLen ≠ s.payCap → ∃ t, exec (.payw byte) s = .next t ∧ payByte t s.payLen.toNat = byte ∧
        (∀ a, a ≠ s.payLen.toNat → payByte t a = payByte s a) ∧ (∀ a, outByte t a = outByte s a) ∧
        t.payLen.toNat = s.payLen.toNat + 1 ∧
        t = { s with pay := t.pay, payLen := t.payLen, rsp := some ⟨.ok, 0⟩ })

/-- 45_readout_system R140 with 44_decoder R136: loading a payload, PCLR and one PAYW per byte, leaves exactly its bytes in
PAY, in payload order, the packer empty, and everything outside the encode side as it was. -/
def Obligations.LoadedPayloadIsThere : Prop :=
  ∀ (payload : List Byte) (s : State), s.Inv → s.err = 0 → payload.length ≤ s.payCap.toNat →
    ∃ t, runAll (loadPayload payload) s = .next t ∧ payloadBytes t = payload ∧ t.payLen.toNat = payload.length ∧
      (∀ a, outByte t a = outByte s a) ∧
      t = { s with acc := 0, nb := 0, ebits := 0, pay := t.pay, payLen := t.payLen, rsp := some ⟨.ok, 0⟩ }

/-- 45_readout_system R141, R142, PAYR and OUTR: the byte, or BAD_INDEX(idx) at or past the buffer's length. -/
def Obligations.ByteReadsOrBadIndex : Prop :=
  ∀ idx : BitVec 24, decode (0x84000000 ||| idx.setWidth 32) = .ok (.payr idx) ∧
    decode (0x88000000 ||| idx.setWidth 32) = .ok (.outr idx) ∧
    ∀ s : State, s.err = 0 →
      (s.payLen.toNat ≤ idx.toNat → Raises (.payr idx) s .badIndex (idx.setWidth 32)) ∧
      (idx.toNat < s.payLen.toNat → ∃ t, exec (.payr idx) s = .next t ∧
        t = { s with rsp := some ⟨.ok, (payByte s idx.toNat).setWidth 32⟩ } ∧ SameBytes s t) ∧
      (s.outLen.toNat ≤ idx.toNat → Raises (.outr idx) s .badIndex (idx.setWidth 32)) ∧
      (idx.toNat < s.outLen.toNat → ∃ t, exec (.outr idx) s = .next t ∧
        t = { s with rsp := some ⟨.ok, (outByte s idx.toNat).setWidth 32⟩ } ∧ SameBytes s t)

/-- 45_readout_system R143 with 10_state R31, R32: RDREG with each of the sixteen numbers, written out, reads the register
of that number, field by field, in the fault state too, and writes nothing; no number and no register is left out. -/
def Obligations.RdregReadsRegister : Prop :=
  (∀ (n : BitVec 4) (r : Reg), (n.toNat, r) ∈ registerNumbers →
    decode (0x08000000 ||| n.setWidth 32) = .ok (.rdreg r) ∧
    ∀ s : State, ∃ t d, exec (.rdreg r) s = .next t ∧ t = { s with rsp := some ⟨.ok, d⟩ } ∧ d.toNat = regValue s r ∧
      SameBytes s t) ∧
  (∀ n : BitVec 4, ∃ r, (n.toNat, r) ∈ registerNumbers) ∧ (∀ r : Reg, ∃ n : BitVec 4, (n.toNat, r) ∈ registerNumbers)

/-- 45_readout_system R144, SRESET: the reset state, in the fault state too; STATUS then reads 0x300. The word with a
must-be-zero bit set is not SRESET. -/
def Obligations.SresetResetsBlock : Prop :=
  decode 0x04000000 = .ok .sreset ∧ (∀ w : Word, decode w = .ok .sreset → w = 0x04000000) ∧
  ∀ s : State, ∃ t, exec .sreset s = .next t ∧
    t = { State.resetFor s.payCap s.outCap with inputs := s.inputs, rsp := some ⟨.ok, 0⟩ } ∧ statusWord t = 0x00000300

/-- 30_encoding R69: what the pseudo-commands CTDEF and DSET64 leave. -/
def Obligations.PseudoCommandsLoad : Prop :=
  (∀ (sym : Sym) (bits : List Bool) (s : State), s.canonical = true → s.err = 0 → 1 ≤ bits.length → bits.length ≤ 255 →
    ∃ t, runAll (ctdef sym bits) s = .next t ∧ codeOf t sym = bits ∧ (∀ x, x ≠ sym → ctEntry t x = ctEntry s x) ∧
      t = { s with ct := t.ct, rsp := some ⟨.ok, 0⟩ }) ∧
  (∀ (v : Count) (s : State), s.err = 0 → runAll (dset64 v) s = .next { s with tbcin := v, rsp := some ⟨.ok, 0⟩ })

/-! ## The host's tables and container -/

/-- 47_host_reference R150, R151 (host): the frequency table's counts are those of the bytes, at least 1, for every byte
that occurs and no other, ascending by symbol, and their sum is the input's length. -/
def Obligations.FrequencyTableCounts : Prop :=
  ∀ bytes : List Byte,
    Ascending (analyze bytes) ∧ (∀ p ∈ analyze bytes, p.2 = bytes.count p.1 ∧ 1 ≤ p.2) ∧
    (∀ b ∈ bytes, b ∈ (analyze bytes).map (fun p => p.1)) ∧
    ((analyze bytes).map (fun p => p.2)).sum = bytes.length

/-- 47_host_reference R158 (host): the codes of any tree are prefix-free: of two entries none's code is a prefix of the
other's. -/
def Obligations.GeneratedCodesArePrefixFree : Prop :=
  ∀ t : HuffTree, (generate t).Pairwise (fun a b => ¬ a.2 <+: b.2 ∧ ¬ b.2 <+: a.2) ∧ ∀ c ∈ generate t, c.2 ≠ []

/-- 47_host_reference R151, R163, R164 (host): the writer sorts, the reader gives back what the writer wrote. Two parts are
the model's (log entry 8): that a file so written is ACCEPTED, whatever its payload's length and totalBitCount and without a
threshold on its symbol count (DESIGN CHOICE), and that R164's "structurally impossible input" MEANS a table that is empty,
not strictly ascending or has a zero count, which the reader REJECTS (DEDUCED). -/
def Obligations.ContainerRoundTrips : Prop :=
  (∀ c : Container, c.table ≠ [] → Ascending c.table → (∀ p ∈ c.table, 1 ≤ p.2 ∧ p.2 < 4294967296) →
    readContainer (writeContainer c) = some c ∧ looksLikeContainer (writeContainer c) = true ∧
    (writeContainer c).length = 20 + 5 * c.table.length + c.payload.length) ∧
  (∀ c : Container, (c.table.map (fun p => p.1)).Nodup → ∃ table, table.Perm c.table ∧ Ascending table ∧
    writeContainer c = writeContainer { c with table := table }) ∧
  (∀ (bs : List Byte) (c : Container), readContainer bs = some c →
    c.table ≠ [] ∧ Ascending c.table ∧ (∀ p ∈ c.table, 1 ≤ p.2) ∧ looksLikeContainer bs = true ∧
    bs.length = 20 + 5 * c.table.length + c.payload.length) ∧
  (∀ bs : List Byte, looksLikeContainer bs = true → 12 ≤ bs.length)

/-! ## The host's sessions with the block -/

/-- 47_host_reference R168, rows encode, decode and read-out (host), with 42_encoder R112 and 44_decoder R136: a session in
which no response was FAULT or REFUSED ends with ERR = 0, and what the host read through RDREG, PAYR and OUTR is EBITS,
`PAY[0..PAYLEN-1]` and `OUT[0..OUTLEN-1]`. -/
def Obligations.ReadOutGivesBuffers : Prop :=
  (∀ (codes : List (Sym × List Bool)) (bytes : List Byte) (s t : State) (count : Count) (payload : List Byte), s.Inv →
    encodeOnBlock codes bytes s = .got (count, payload) t → t.err = 0 ∧ count = t.ebits ∧ payload = payloadBytes t) ∧
  (∀ (table : FreqTable) (tree : HuffTree) (count : Count) (payload out : List Byte) (s t : State), s.Inv →
    decodeOnBlock table tree count payload s = .got out t → t.err = 0 ∧ t.dbits = count ∧ out = outputBytes t)

/-- 47_host_reference R167 and R168, row recovery (host): a FAULT or REFUSED response ends the session; compress and
decompress then report the whole file as failed, with the ERR and EINFO the block held, and SRESET has put the block into the
reset state. They never stop, and whenever they report a block fault the ERR reported is not 0 and the block is in the reset
state; that clause does not say which session the report comes from. That the tables are not reloaded at once
but by the next session is the model's choice (log entry 8). -/
def Obligations.HostRecoversBySreset : Prop :=
  (∀ (i : Instr) (rest : List Instr) (s t : State) (d : Word), exec i s = .next t →
    t.rsp = some ⟨.fault, d⟩ ∨ t.rsp = some ⟨.refused, d⟩ → issueAll (i :: rest) s = .failed t) ∧
  (∀ (bytes : List Byte) (s u : State) (tree : HuffTree), build (analyze bytes) = some tree →
    encodeOnBlock (generate tree) bytes s = .failed u → u.err ≠ 0 ∧ compress bytes s = afterRecovery s u) ∧
  (∀ (file : List Byte) (s u : State) (c : Container) (tree : HuffTree), readContainer file = some c →
    build c.table = some tree → decodeOnBlock c.table tree c.totalBits c.payload s = .failed u →
    u.err ≠ 0 ∧ decompress file s = afterRecovery s u) ∧
  (∀ (bytes : List Byte) (s : State) (run : List Byte → State → HostResult × State), run = compress ∨ run = decompress →
    (run bytes s).1 ≠ .stopped ∧
    ∀ (err : BitVec 8) (info : Word) (t : State), run bytes s = (.blockFault err info, t) →
      ∃ u : State, u.err ≠ 0 ∧ (.blockFault err info, t) = afterRecovery s u)
end

