-- ==== Sys2Proof/Laws/Cells.lean ====
section
/-! SUPPORT. The laws of the stores: a read after a write, writes keep the canonical form, equal contents are equal lists. -/

namespace Sys2Proof.Machine

variable {α : Type} [DecidableEq α] {d : α}

theorem Cells.wfFrom_cons {lo k : Nat} {v : α} {m : List (Nat × α)} :
    Cells.wfFrom d lo ((k, v) :: m) = true ↔ lo ≤ k ∧ v ≠ d ∧ Cells.wfFrom d (k + 1) m = true := by
  simp [Cells.wfFrom, and_assoc]

theorem Cells.wfFrom_mono {lo lo' : Nat} {m : List (Nat × α)} (h : Cells.wfFrom d lo m = true) (hlo : lo' ≤ lo) :
    Cells.wfFrom d lo' m = true := by
  cases m with
  | nil => rfl
  | cons c m =>
    obtain ⟨k, v⟩ := c
    rw [Cells.wfFrom_cons] at h ⊢
    exact ⟨hlo.trans h.1, h.2⟩

theorem Cells.wfFrom_wf {lo : Nat} {m : List (Nat × α)} (h : Cells.wfFrom d lo m = true) : Cells.wf d m = true :=
  Cells.wfFrom_mono h (Nat.zero_le lo)

/-- An index before the first listed one reads as the default. -/
theorem Cells.read_of_lt {lo a : Nat} {m : List (Nat × α)} (h : Cells.wfFrom d lo m = true) (ha : a < lo) :
    Cells.read d m a = d := by
  induction m generalizing lo with
  | nil => rfl
  | cons c m ih =>
    obtain ⟨k, v⟩ := c
    obtain ⟨hk, -, hm⟩ := Cells.wfFrom_cons.1 h
    rw [Cells.read, if_neg (by omega)]
    exact ih hm (by omega)

/-- A read after a write: the value written there, every other index as before. -/
theorem Cells.read_write_from {lo : Nat} {m : List (Nat × α)} (h : Cells.wfFrom d lo m = true) (a b : Nat) (v : α) :
    Cells.read d (Cells.write d m a v) b = if a = b then v else Cells.read d m b := by
  induction m generalizing lo with
  | nil => by_cases hv : v = d <;> simp [Cells.write, Cells.read, hv]
  | cons c m ih =>
    obtain ⟨k, u⟩ := c
    obtain ⟨hk, -, hm⟩ := Cells.wfFrom_cons.1 h
    have hnext : ∀ x, x ≤ k → Cells.read d m x = d := fun x hx => Cells.read_of_lt hm (by omega)
    rw [Cells.write]
    by_cases h1 : k = a
    · subst h1
      by_cases hv : v = d
      · rw [if_pos rfl, if_pos hv]
        by_cases hb : k = b
        · rw [if_pos hb, hv]; exact hnext b (by omega)
        · rw [if_neg hb, Cells.read, if_neg hb]
      · by_cases hb : k = b <;> simp [hv, Cells.read, hb]
    · by_cases h2 : a < k
      · by_cases hv : v = d
        · rw [if_neg h1, if_pos h2, if_pos hv]
          by_cases hb : a = b
          · subst hb; rw [if_pos rfl, Cells.read, if_neg h1, hv]; exact hnext a (by omega)
          · rw [if_neg hb]
        · rw [if_neg h1, if_pos h2, if_neg hv, Cells.read]
      · rw [if_neg h1, if_neg h2, Cells.read, Cells.read]
        by_cases hb : k = b
        · rw [if_pos hb, if_pos hb, if_neg (by omega)]
        · rw [if_neg hb, if_neg hb, ih hm]

theorem Cells.read_write {m : List (Nat × α)} (h : Cells.wf d m = true) (a b : Nat) (v : α) :
    Cells.read d (Cells.write d m a v) b = if a = b then v else Cells.read d m b :=
  Cells.read_write_from h a b v

/-- A write keeps the canonical form. -/
theorem Cells.wfFrom_write {lo a : Nat} {m : List (Nat × α)} (h : Cells.wfFrom d lo m = true) (ha : lo ≤ a) (v : α) :
    Cells.wfFrom d lo (Cells.write d m a v) = true := by
  induction m generalizing lo with
  | nil => by_cases hv : v = d <;> simp [Cells.write, Cells.wfFrom, hv, ha]
  | cons c m ih =>
    obtain ⟨k, u⟩ := c
    obtain ⟨hk, hu, hm⟩ := Cells.wfFrom_cons.1 h
    unfold Cells.write
    split_ifs with h1 h2 h3 h4
    · exact Cells.wfFrom_mono hm (by omega)
    · exact Cells.wfFrom_cons.2 ⟨ha, h2, by subst h1; exact hm⟩
    · exact h
    · exact Cells.wfFrom_cons.2 ⟨ha, h4, Cells.wfFrom_cons.2 ⟨by omega, hu, hm⟩⟩
    · exact Cells.wfFrom_cons.2 ⟨hk, hu, ih hm (by omega)⟩

theorem Cells.wf_write {m : List (Nat × α)} (h : Cells.wf d m = true) (a : Nat) (v : α) :
    Cells.wf d (Cells.write d m a v) = true := Cells.wfFrom_write h (Nat.zero_le a) v

/-- A write lists no index that was not listed or is not the one written. -/
theorem Cells.mem_write {m : List (Nat × α)} {a : Nat} {v : α} {c : Nat × α} (h : c ∈ Cells.write d m a v) :
    c = (a, v) ∨ c ∈ m := by
  induction m with
  | nil => unfold Cells.write at h; split_ifs at h <;> simp_all
  | cons x m ih =>
    obtain ⟨k, u⟩ := x
    unfold Cells.write at h
    split_ifs at h <;> simp at h ⊢ <;> tauto

omit [DecidableEq α] in
theorem Cells.below_iff {n : Nat} {m : List (Nat × α)} : Cells.below n m = true ↔ ∀ c ∈ m, c.1 < n := by
  simp [Cells.below, List.all_eq_true]

theorem Cells.below_write {n n' a : Nat} {m : List (Nat × α)} {v : α} (h : Cells.below n m = true) (hn : n ≤ n')
    (ha : a < n') : Cells.below n' (Cells.write d m a v) = true := by
  rw [Cells.below_iff] at h ⊢
  intro c hc
  rcases Cells.mem_write hc with rfl | hc
  · exact ha
  · exact (h c hc).trans_le hn

omit [DecidableEq α] in
theorem Cells.read_of_below {n a : Nat} {m : List (Nat × α)} (h : Cells.below n m = true) (ha : n ≤ a) :
    Cells.read d m a = d := by
  induction m with
  | nil => rfl
  | cons c m ih =>
    obtain ⟨k, v⟩ := c
    simp only [Cells.below, List.all_cons, Bool.and_eq_true, decide_eq_true_eq] at h
    rw [Cells.read, if_neg (by omega)]
    exact ih (by simpa [Cells.below] using h.2)

omit [DecidableEq α] in
/-- A listed element or the default: what a read can give. -/
theorem Cells.read_mem (m : List (Nat × α)) (a : Nat) : Cells.read d m a = d ∨ (a, Cells.read d m a) ∈ m := by
  induction m with
  | nil => exact .inl rfl
  | cons c m ih =>
    obtain ⟨k, v⟩ := c
    by_cases h : k = a
    · subst h; right; simp [Cells.read]
    · rcases ih with ih | ih
      · left; simpa [Cells.read, h] using ih
      · right; simp [Cells.read, h, ih]

/-- Canonical stores with the same contents are the same list. -/
theorem Cells.ext_from {lo : Nat} {m m' : List (Nat × α)} (h : Cells.wfFrom d lo m = true)
    (h' : Cells.wfFrom d lo m' = true) (heq : ∀ a, Cells.read d m a = Cells.read d m' a) : m = m' := by
  induction m generalizing lo m' with
  | nil =>
    cases m' with
    | nil => rfl
    | cons c m' =>
      obtain ⟨k, v⟩ := c
      have := heq k
      simp [Cells.read] at this
      exact absurd this.symm (Cells.wfFrom_cons.1 h').2.1
  | cons c m ih =>
    obtain ⟨k, v⟩ := c
    obtain ⟨hk, hv, hm⟩ := Cells.wfFrom_cons.1 h
    cases m' with
    | nil =>
      have := heq k
      simp [Cells.read] at this
      exact absurd this hv
    | cons c' m' =>
      obtain ⟨k', v'⟩ := c'
      obtain ⟨hk', hv', hm'⟩ := Cells.wfFrom_cons.1 h'
      have hkk : k = k' := by
        rcases Nat.lt_trichotomy k k' with hlt | heq' | hgt
        · have := heq k
          rw [Cells.read, if_pos rfl, Cells.read, if_neg (by omega), Cells.read_of_lt hm' (by omega)] at this
          exact absurd this hv
        · exact heq'
        · have := heq k'
          rw [Cells.read, if_neg (by omega), Cells.read_of_lt hm (by omega), Cells.read, if_pos rfl] at this
          exact absurd this.symm hv'
      subst hkk
      have hvv : v = v' := by simpa [Cells.read] using heq k
      subst hvv
      rw [ih hm hm' fun a => ?_]
      by_cases ha : k = a
      · subst ha; rw [Cells.read_of_lt hm (by omega), Cells.read_of_lt hm' (by omega)]
      · simpa [Cells.read, ha] using heq a

theorem Cells.ext {m m' : List (Nat × α)} (h : Cells.wf d m = true) (h' : Cells.wf d m' = true)
    (heq : ∀ a, Cells.read d m a = Cells.read d m' a) : m = m' := Cells.ext_from h h' heq

/-! ## Buffers -/

/-- Every write to a buffer keeps its canonical form. -/
theorem Memory.wf_write {m : Memory} (h : m.wf = true) (i : Nat) (b : Byte) : (m.write i b).wf = true :=
  Cells.wf_write h i b

theorem Memory.read_write {m : Memory} (h : m.wf = true) (i j : Nat) (b : Byte) :
    (m.write i b).read j = if i = j then b else m.read j := Cells.read_write h i j b

/-- The buffers of the machine at reset are in canonical form. -/
theorem reset_memory_wf : State.reset.pay.wf = true ∧ State.reset.out.wf = true := by decide

end Sys2Proof.Machine
end

