-- ==== Sys2Proof/Laws/Decode.lean ====
section
/-! SUPPORT. Decoding and encoding in numbers: what a word must be to decode, and what a command's word is. -/

namespace Sys2Proof

/-- How many low bits a format's operand fields take; its must-be-zero bits are those from there up to 25. -/
def Format.operandBits : Format → Nat
  | .z => 0 | .r => 4 | .s => 8 | .sl => 16 | .sb => 17 | .n => 9 | .ns => 17 | .nc => 18 | .b => 20 | .i => 24 | .k => 18

theorem Format.operandBits_le (f : Format) : f.operandBits ≤ 26 := by cases f <;> decide

theorem Format.mbz_getLsbD (f : Format) (i : Fin 32) :
    f.mbz.getLsbD i = (decide (f.operandBits ≤ i.val) && decide (i.val < 26)) := by
  revert i; cases f <;> decide

/-- The must-be-zero check, in numbers. -/
theorem Format.and_mbz_eq_zero (f : Format) (w : Word) : w &&& f.mbz = 0 ↔ w.toNat % 2 ^ 26 < 2 ^ f.operandBits := by
  have h1 : w &&& f.mbz = 0 ↔ ∀ i : Nat, f.operandBits ≤ i → i < 26 → w.toNat.testBit i = false := by
    constructor
    · intro h i h1 h2
      have hw := congrArg (fun x : Word => x.getLsbD i) h
      have hm := f.mbz_getLsbD ⟨i, by omega⟩
      simp only [BitVec.getLsbD_and, hm, h1, h2] at hw
      simpa [BitVec.getLsbD] using hw
    · intro h
      apply BitVec.eq_of_getLsbD_eq
      intro i hi
      have hm := f.mbz_getLsbD ⟨i, hi⟩
      simp only at hm
      rw [BitVec.getLsbD_and, hm]
      by_cases hc : f.operandBits ≤ i ∧ i < 26
      · simp [BitVec.getLsbD, h i hc.1 hc.2]
      · have : (decide (f.operandBits ≤ i) && decide (i < 26)) = false := by simpa using hc
        simp [this]
  rw [h1]
  constructor
  · intro h
    apply Nat.lt_pow_two_of_testBit
    intro i hi
    rw [Nat.testBit_mod_two_pow]
    by_cases h26 : i < 26
    · simp [h i hi h26]
    · simp [h26]
  · intro h i h2 h3
    have hb : (w.toNat % 2 ^ 26).testBit i = false :=
      Nat.testBit_lt_two_pow (h.trans_le (Nat.pow_le_pow_right (by decide) h2))
    rw [Nat.testBit_mod_two_pow] at hb
    simpa [h3] using hb

theorem Op.ofCode_code (o : Op) : Op.ofCode o.code = some o := by cases o <;> decide

theorem Op.mem_all (o : Op) : o ∈ Op.all := by cases o <;> decide

theorem Op.ofCode_eq_some {c : BitVec 6} {o : Op} : Op.ofCode c = some o ↔ o.code = c := by
  constructor
  · intro h
    have := List.find?_some h
    simpa using this
  · rintro rfl
    exact o.ofCode_code

theorem Op.ofCode_eq_none {c : BitVec 6} : Op.ofCode c = none ↔ ∀ o : Op, o.code ≠ c := by
  constructor
  · rintro h o rfl
    rw [o.ofCode_code] at h
    cases h
  · intro h
    cases ho : Op.ofCode c with
    | none => rfl
    | some o => exact absurd (Op.ofCode_eq_some.1 ho) (h o)

/-- The opcode field, in numbers. -/
theorem opcode_toNat (w : Word) : (w.extractLsb' 26 6).toNat = w.toNat / 2 ^ 26 := by
  rw [BitVec.extractLsb'_toNat, Nat.shiftRight_eq_div_pow, Nat.mod_eq_of_lt]
  have := w.isLt
  omega

/-- What decoding a word gives, in numbers: the row of its opcode, if the bits above the row's operand fields are 0. -/
theorem decode_eq_ok {w : Word} {i : Instr} :
    decode w = .ok i ↔
      ∃ o : Op, w.toNat / 2 ^ 26 = o.code.toNat ∧ w.toNat % 2 ^ 26 < 2 ^ o.format.operandBits ∧ i = assemble o w := by
  unfold decode
  cases ho : Op.ofCode (w.extractLsb' 26 6) with
  | none =>
    refine ⟨fun h => (by cases h), fun ⟨o, h1, _, _⟩ => ?_⟩
    refine absurd ?_ (Op.ofCode_eq_none.1 ho o)
    exact BitVec.eq_of_toNat_eq (by rw [opcode_toNat, h1])
  | some o =>
    have hc := Op.ofCode_eq_some.1 ho
    simp only [Format.and_mbz_eq_zero]
    constructor
    · intro h
      split_ifs at h with hz
      cases h
      exact ⟨o, by rw [hc, opcode_toNat], hz, rfl⟩
    · rintro ⟨o', h1, h2, rfl⟩
      have : o' = o := by
        have h3 : Op.ofCode o'.code = some o := by
          rw [show o'.code = w.extractLsb' 26 6 from BitVec.eq_of_toNat_eq (by rw [opcode_toNat, h1]), ho]
        rw [o'.ofCode_code] at h3
        exact Option.some.inj h3
      subst this
      rw [if_pos h2]

theorem assemble_op (o : Op) (w : Word) : (assemble o w).op = o := by cases o <;> rfl

theorem Reg.ofNumber_number (r : Reg) : Reg.ofNumber r.number = r := by cases r <;> decide

theorem Reg.number_ofNumber (r : BitVec 4) : (Reg.ofNumber r).number = r := by revert r; decide

/-- An OR of parts that do not overlap is their sum. -/
theorem mul_pow_or (a b k : Nat) (h : b < 2 ^ k) : a * 2 ^ k ||| b = a * 2 ^ k + b := by
  rw [← Nat.shiftLeft_eq, Nat.shiftLeft_add_eq_or_of_lt h]

/-- The operand fields of a command as a number. -/
def Instr.fieldValue : Instr → Nat
  | .sreset | .ctclr | .tclr | .pclr | .pflush | .dstart | .ubit | .dstep | .drun => 0
  | .rdreg r => r.number.toNat
  | .ctlen sym len => sym.toNat * 2 ^ 8 + len.toNat
  | .ctbit sym idx b => b.toNat * 2 ^ 16 + (sym.toNat * 2 ^ 8 + idx.toNat)
  | .ctrd sym idx => sym.toNat * 2 ^ 8 + idx.toNat
  | .tleaf idx sym => sym.toNat * 2 ^ 9 + idx.toNat
  | .tint idx | .tsngl idx | .troot idx | .trd idx => idx.toNat
  | .tleft idx child | .tright idx child => child.toNat * 2 ^ 9 + idx.toNat
  | .pbits n v => ((n - 1).toNat % 16) * 2 ^ 16 + v.toNat
  | .esym sym => sym.toNat
  | .payw byte => byte.toNat
  | .payr idx | .outr idx => idx.toNat
  | .dcnt k imm => k.toNat * 2 ^ 16 + imm.toNat

theorem two_fields_toNat {m n : Nat} (a : BitVec m) (b : BitVec n) (h : m + n ≤ 32) :
    ((a.setWidth 32 <<< n) ||| b.setWidth 32).toNat = a.toNat * 2 ^ n + b.toNat := by
  have ha := a.isLt
  have hb := b.isLt
  have h1 : 2 ^ m * 2 ^ n ≤ 2 ^ 32 := by rw [← Nat.pow_add]; exact Nat.pow_le_pow_right (by decide) h
  have h2 : a.toNat * 2 ^ n < 2 ^ 32 := lt_of_lt_of_le (Nat.mul_lt_mul_of_pos_right ha (by positivity)) h1
  have h3 : 2 ^ m ≤ 2 ^ 32 := Nat.pow_le_pow_right (by decide) (by omega)
  have h4 : 2 ^ n ≤ 2 ^ 32 := Nat.pow_le_pow_right (by decide) (by omega)
  rw [BitVec.toNat_or, BitVec.toNat_shiftLeft, BitVec.toNat_setWidth, BitVec.toNat_setWidth,
    Nat.mod_eq_of_lt (a := a.toNat) (by omega), Nat.mod_eq_of_lt (a := b.toNat) (by omega), Nat.shiftLeft_eq,
    Nat.mod_eq_of_lt h2, mul_pow_or _ _ _ hb]

theorem Instr.fields_toNat (i : Instr) : i.fields.toNat = i.fieldValue := by
  cases i <;> try rfl
  case ctlen sym len => exact two_fields_toNat sym len (by decide)
  case ctbit sym idx b =>
    have hs := sym.isLt
    have hi := idx.isLt
    have h := two_fields_toNat sym idx (by decide)
    have hb : ((BitVec.ofBool b).setWidth 32 <<< 16 : Word).toNat = b.toNat * 2 ^ 16 := by cases b <;> rfl
    rw [Instr.fields, BitVec.or_assoc, BitVec.toNat_or, h, hb, mul_pow_or _ _ _ (by omega)]
    rfl
  case ctrd sym idx => exact two_fields_toNat sym idx (by decide)
  case tleaf idx sym => exact two_fields_toNat sym idx (by decide)
  case tleft idx child => exact two_fields_toNat child idx (by decide)
  case tright idx child => exact two_fields_toNat child idx (by decide)
  case pbits n v =>
    rw [Instr.fields, two_fields_toNat _ v (by decide), BitVec.toNat_setWidth]
    rfl
  case dcnt k imm => exact two_fields_toNat k imm (by decide)

theorem Instr.fieldValue_lt (i : Instr) : i.fieldValue < 2 ^ i.op.format.operandBits := by
  cases i <;> simp only [Instr.fieldValue, Instr.op, Op.format, Op.row, Format.operandBits] <;>
    first
      | omega
      | (rename_i _ _ b; have := b.toNat_le; omega)

/-- The word of a command as a number: its opcode and its operand fields. -/
theorem encode_toNat (i : Instr) : (encode i).toNat = i.op.code.toNat * 2 ^ 26 + i.fieldValue := by
  have hf := i.fieldValue_lt
  have hle : 2 ^ i.op.format.operandBits ≤ 2 ^ 26 := Nat.pow_le_pow_right (by decide) i.op.format.operandBits_le
  have hc := i.op.code.isLt
  rw [encode, BitVec.toNat_or, Instr.fields_toNat, Op.matchWord, BitVec.toNat_shiftLeft, BitVec.toNat_setWidth,
    Nat.mod_eq_of_lt (a := i.op.code.toNat) (by omega), Nat.shiftLeft_eq, Nat.mod_eq_of_lt (by omega),
    mul_pow_or _ _ _ (by omega)]

end Sys2Proof
end

