-- ==== Sys2Proof/Laws/HostDriver.lean ====
section
/-! SUPPORT. One lemma per operation of the host's driver: what going on, issuing one command and issuing a list can do;
the writer's sort permutes; a cause is read back from its code. -/

namespace Sys2Proof.Machine

variable {α β : Type}

@[simp] theorem Reply.andThen_got (a : α) (s : State) (f : α → State → Reply β) : (Reply.got a s).andThen f = f a s := rfl
@[simp] theorem Reply.andThen_failed (s : State) (f : α → State → Reply β) : (Reply.failed s).andThen f = .failed s := rfl
@[simp] theorem Reply.andThen_stopped (s : State) (f : α → State → Reply β) : (Reply.stopped s).andThen f = .stopped s := rfl

/-- A result comes from a result. -/
theorem Reply.andThen_eq_got {r : Reply α} {f : α → State → Reply β} {b : β} {t : State} :
    r.andThen f = .got b t ↔ ∃ a s, r = .got a s ∧ f a s = .got b t := by
  cases r <;> simp

/-- A failure is the first part's or the second's. -/
theorem Reply.andThen_eq_failed {r : Reply α} {f : α → State → Reply β} {t : State} :
    r.andThen f = .failed t ↔ r = .failed t ∨ ∃ a s, r = .got a s ∧ f a s = .failed t := by
  cases r <;> simp

/-- What issuing a command gives, once it has answered. -/
theorem issue_of_next {i : Instr} {s t : State} {st : Status} {d : Word} (h : exec i s = .next t) (hr : t.rsp = some ⟨st, d⟩) :
    issue i s = if st = .fault ∨ st = .refused then .failed t else .got ⟨st, d⟩ t := by
  cases st <;> simp [issue, h, hr]

/-- A result is a next state whose response is OK or END. -/
theorem issue_eq_got {i : Instr} {s t : State} {r : Response} (h : issue i s = .got r t) :
    exec i s = .next t ∧ t.rsp = some r ∧ (r.st = .ok ∨ r.st = .ended) := by
  unfold issue at h
  split at h
  · rename_i u hu
    split at h <;> cases h <;> simp_all
  · cases h
  · cases h

/-- A failure is a next state whose response is FAULT or REFUSED. -/
theorem issue_eq_failed {i : Instr} {s t : State} (h : issue i s = .failed t) :
    exec i s = .next t ∧ ∃ d, t.rsp = some ⟨.fault, d⟩ ∨ t.rsp = some ⟨.refused, d⟩ := by
  unfold issue at h
  split at h
  · rename_i u hu
    split at h <;> cases h <;> simp_all
  · cases h
  · cases h

/-- Commands that all succeed are run one after the other, and each gives one word. -/
theorem issueAll_eq_got {is : List Instr} {s t : State} {ds : List Word} (h : issueAll is s = .got ds t) :
    runAll is s = .next t ∧ ds.length = is.length := by
  induction is generalizing s ds with
  | nil => cases h; exact ⟨rfl, rfl⟩
  | cons i is ih =>
    obtain ⟨d, u, hi, h⟩ := Reply.andThen_eq_got.1 h
    obtain ⟨ds', v, hs, h⟩ := Reply.andThen_eq_got.1 h
    cases h
    obtain ⟨hr, hl⟩ := ih hs
    exact ⟨by simp only [runAll, (issue_eq_got hi).1, hr], by simp [hl]⟩

/-- Issuing a list is issuing its first part, then its second. -/
theorem issueAll_append (is js : List Instr) (s : State) :
    issueAll (is ++ js) s =
      (issueAll is s).andThen fun ds t => (issueAll js t).andThen fun es u => .got (ds ++ es) u := by
  induction is generalizing s with
  | nil => cases h : issueAll js s <;> simp [issueAll, h]
  | cons i is ih =>
    simp only [List.cons_append, issueAll, ih]
    cases issue i s with
    | failed t => rfl
    | stopped t => rfl
    | got d t =>
      cases h : issueAll is t with
      | failed u => simp [h]
      | stopped u => simp [h]
      | got ds u => cases hj : issueAll js u <;> simp [h, hj]

theorem insertPair_perm (p : Sym × Nat) (table : FreqTable) : (insertPair p table).Perm (p :: table) := by
  induction table with
  | nil => exact .refl _
  | cons q qs ih =>
    unfold insertPair
    split
    · exact .refl _
    · exact (ih.cons q).trans (.swap p q qs)

theorem sortTable_perm (table : FreqTable) : (sortTable table).Perm table := by
  induction table with
  | nil => exact .refl _
  | cons p ps ih => exact (insertPair_perm p (sortTable ps)).trans (ih.cons p)

theorem Cause.ofCode_code (c : Cause) : Cause.ofCode c.code = some c := by cases c <;> decide

end Sys2Proof.Machine
end

