-- ==== Sys2Proof/Laws/State.lean ====
section
/-! SUPPORT. What each named update of the state does to each field: true by rfl, so that no proof unfolds a record
update. -/

namespace Sys2Proof.Machine

/-! ## respond -/

@[simp] theorem respond_ct (st : Status) (d : Word) (s : State) : (respond st d s).ct = s.ct := rfl
@[simp] theorem respond_tn (st : Status) (d : Word) (s : State) : (respond st d s).tn = s.tn := rfl
@[simp] theorem respond_root (st : Status) (d : Word) (s : State) : (respond st d s).root = s.root := rfl
@[simp] theorem respond_acc (st : Status) (d : Word) (s : State) : (respond st d s).acc = s.acc := rfl
@[simp] theorem respond_nb (st : Status) (d : Word) (s : State) : (respond st d s).nb = s.nb := rfl
@[simp] theorem respond_ebits (st : Status) (d : Word) (s : State) : (respond st d s).ebits = s.ebits := rfl
@[simp] theorem respond_pay (st : Status) (d : Word) (s : State) : (respond st d s).pay = s.pay := rfl
@[simp] theorem respond_payLen (st : Status) (d : Word) (s : State) : (respond st d s).payLen = s.payLen := rfl
@[simp] theorem respond_tbcin (st : Status) (d : Word) (s : State) : (respond st d s).tbcin = s.tbcin := rfl
@[simp] theorem respond_dbits (st : Status) (d : Word) (s : State) : (respond st d s).dbits = s.dbits := rfl
@[simp] theorem respond_dpos (st : Status) (d : Word) (s : State) : (respond st d s).dpos = s.dpos := rfl
@[simp] theorem respond_cur (st : Status) (d : Word) (s : State) : (respond st d s).cur = s.cur := rfl
@[simp] theorem respond_out (st : Status) (d : Word) (s : State) : (respond st d s).out = s.out := rfl
@[simp] theorem respond_outLen (st : Status) (d : Word) (s : State) : (respond st d s).outLen = s.outLen := rfl
@[simp] theorem respond_err (st : Status) (d : Word) (s : State) : (respond st d s).err = s.err := rfl
@[simp] theorem respond_einfo (st : Status) (d : Word) (s : State) : (respond st d s).einfo = s.einfo := rfl
@[simp] theorem respond_payCap (st : Status) (d : Word) (s : State) : (respond st d s).payCap = s.payCap := rfl
@[simp] theorem respond_outCap (st : Status) (d : Word) (s : State) : (respond st d s).outCap = s.outCap := rfl
@[simp] theorem respond_inputs (st : Status) (d : Word) (s : State) : (respond st d s).inputs = s.inputs := rfl
@[simp] theorem respond_rsp (st : Status) (d : Word) (s : State) : (respond st d s).rsp = some ⟨st, d⟩ := rfl

/-! ## raise -/

@[simp] theorem raise_ct (c : Cause) (info : Word) (s : State) : (raise c info s).ct = s.ct := rfl
@[simp] theorem raise_tn (c : Cause) (info : Word) (s : State) : (raise c info s).tn = s.tn := rfl
@[simp] theorem raise_root (c : Cause) (info : Word) (s : State) : (raise c info s).root = s.root := rfl
@[simp] theorem raise_acc (c : Cause) (info : Word) (s : State) : (raise c info s).acc = s.acc := rfl
@[simp] theorem raise_nb (c : Cause) (info : Word) (s : State) : (raise c info s).nb = s.nb := rfl
@[simp] theorem raise_ebits (c : Cause) (info : Word) (s : State) : (raise c info s).ebits = s.ebits := rfl
@[simp] theorem raise_pay (c : Cause) (info : Word) (s : State) : (raise c info s).pay = s.pay := rfl
@[simp] theorem raise_payLen (c : Cause) (info : Word) (s : State) : (raise c info s).payLen = s.payLen := rfl
@[simp] theorem raise_tbcin (c : Cause) (info : Word) (s : State) : (raise c info s).tbcin = s.tbcin := rfl
@[simp] theorem raise_dbits (c : Cause) (info : Word) (s : State) : (raise c info s).dbits = s.dbits := rfl
@[simp] theorem raise_dpos (c : Cause) (info : Word) (s : State) : (raise c info s).dpos = s.dpos := rfl
@[simp] theorem raise_cur (c : Cause) (info : Word) (s : State) : (raise c info s).cur = s.cur := rfl
@[simp] theorem raise_out (c : Cause) (info : Word) (s : State) : (raise c info s).out = s.out := rfl
@[simp] theorem raise_outLen (c : Cause) (info : Word) (s : State) : (raise c info s).outLen = s.outLen := rfl
@[simp] theorem raise_err (c : Cause) (info : Word) (s : State) : (raise c info s).err = c.code := rfl
@[simp] theorem raise_einfo (c : Cause) (info : Word) (s : State) : (raise c info s).einfo = info := rfl
@[simp] theorem raise_payCap (c : Cause) (info : Word) (s : State) : (raise c info s).payCap = s.payCap := rfl
@[simp] theorem raise_outCap (c : Cause) (info : Word) (s : State) : (raise c info s).outCap = s.outCap := rfl
@[simp] theorem raise_inputs (c : Cause) (info : Word) (s : State) : (raise c info s).inputs = s.inputs := rfl
@[simp] theorem raise_rsp (c : Cause) (info : Word) (s : State) : (raise c info s).rsp = some ⟨.fault, c.code.setWidth 32⟩ := rfl

/-! ## refuse -/

@[simp] theorem refuse_ct (s : State) : (refuse s).ct = s.ct := rfl
@[simp] theorem refuse_tn (s : State) : (refuse s).tn = s.tn := rfl
@[simp] theorem refuse_root (s : State) : (refuse s).root = s.root := rfl
@[simp] theorem refuse_acc (s : State) : (refuse s).acc = s.acc := rfl
@[simp] theorem refuse_nb (s : State) : (refuse s).nb = s.nb := rfl
@[simp] theorem refuse_ebits (s : State) : (refuse s).ebits = s.ebits := rfl
@[simp] theorem refuse_pay (s : State) : (refuse s).pay = s.pay := rfl
@[simp] theorem refuse_payLen (s : State) : (refuse s).payLen = s.payLen := rfl
@[simp] theorem refuse_tbcin (s : State) : (refuse s).tbcin = s.tbcin := rfl
@[simp] theorem refuse_dbits (s : State) : (refuse s).dbits = s.dbits := rfl
@[simp] theorem refuse_dpos (s : State) : (refuse s).dpos = s.dpos := rfl
@[simp] theorem refuse_cur (s : State) : (refuse s).cur = s.cur := rfl
@[simp] theorem refuse_out (s : State) : (refuse s).out = s.out := rfl
@[simp] theorem refuse_outLen (s : State) : (refuse s).outLen = s.outLen := rfl
@[simp] theorem refuse_err (s : State) : (refuse s).err = s.err := rfl
@[simp] theorem refuse_einfo (s : State) : (refuse s).einfo = s.einfo := rfl
@[simp] theorem refuse_payCap (s : State) : (refuse s).payCap = s.payCap := rfl
@[simp] theorem refuse_outCap (s : State) : (refuse s).outCap = s.outCap := rfl
@[simp] theorem refuse_inputs (s : State) : (refuse s).inputs = s.inputs := rfl
@[simp] theorem refuse_rsp (s : State) : (refuse s).rsp = some ⟨.refused, 0⟩ := rfl

/-! ## setCtEntry -/

@[simp] theorem setCtEntry_ct (sym : Sym) (e : CodeEntry) (s : State) : (setCtEntry sym e s).ct = Cells.write CodeEntry.empty s.ct sym.toNat e := rfl
@[simp] theorem setCtEntry_tn (sym : Sym) (e : CodeEntry) (s : State) : (setCtEntry sym e s).tn = s.tn := rfl
@[simp] theorem setCtEntry_root (sym : Sym) (e : CodeEntry) (s : State) : (setCtEntry sym e s).root = s.root := rfl
@[simp] theorem setCtEntry_acc (sym : Sym) (e : CodeEntry) (s : State) : (setCtEntry sym e s).acc = s.acc := rfl
@[simp] theorem setCtEntry_nb (sym : Sym) (e : CodeEntry) (s : State) : (setCtEntry sym e s).nb = s.nb := rfl
@[simp] theorem setCtEntry_ebits (sym : Sym) (e : CodeEntry) (s : State) : (setCtEntry sym e s).ebits = s.ebits := rfl
@[simp] theorem setCtEntry_pay (sym : Sym) (e : CodeEntry) (s : State) : (setCtEntry sym e s).pay = s.pay := rfl
@[simp] theorem setCtEntry_payLen (sym : Sym) (e : CodeEntry) (s : State) : (setCtEntry sym e s).payLen = s.payLen := rfl
@[simp] theorem setCtEntry_tbcin (sym : Sym) (e : CodeEntry) (s : State) : (setCtEntry sym e s).tbcin = s.tbcin := rfl
@[simp] theorem setCtEntry_dbits (sym : Sym) (e : CodeEntry) (s : State) : (setCtEntry sym e s).dbits = s.dbits := rfl
@[simp] theorem setCtEntry_dpos (sym : Sym) (e : CodeEntry) (s : State) : (setCtEntry sym e s).dpos = s.dpos := rfl
@[simp] theorem setCtEntry_cur (sym : Sym) (e : CodeEntry) (s : State) : (setCtEntry sym e s).cur = s.cur := rfl
@[simp] theorem setCtEntry_out (sym : Sym) (e : CodeEntry) (s : State) : (setCtEntry sym e s).out = s.out := rfl
@[simp] theorem setCtEntry_outLen (sym : Sym) (e : CodeEntry) (s : State) : (setCtEntry sym e s).outLen = s.outLen := rfl
@[simp] theorem setCtEntry_err (sym : Sym) (e : CodeEntry) (s : State) : (setCtEntry sym e s).err = s.err := rfl
@[simp] theorem setCtEntry_einfo (sym : Sym) (e : CodeEntry) (s : State) : (setCtEntry sym e s).einfo = s.einfo := rfl
@[simp] theorem setCtEntry_payCap (sym : Sym) (e : CodeEntry) (s : State) : (setCtEntry sym e s).payCap = s.payCap := rfl
@[simp] theorem setCtEntry_outCap (sym : Sym) (e : CodeEntry) (s : State) : (setCtEntry sym e s).outCap = s.outCap := rfl
@[simp] theorem setCtEntry_inputs (sym : Sym) (e : CodeEntry) (s : State) : (setCtEntry sym e s).inputs = s.inputs := rfl
@[simp] theorem setCtEntry_rsp (sym : Sym) (e : CodeEntry) (s : State) : (setCtEntry sym e s).rsp = s.rsp := rfl

/-! ## setTnNode -/

@[simp] theorem setTnNode_ct (i : NodeIdx) (n : Node) (s : State) : (setTnNode i n s).ct = s.ct := rfl
@[simp] theorem setTnNode_tn (i : NodeIdx) (n : Node) (s : State) : (setTnNode i n s).tn = Cells.write Node.empty s.tn i.toNat n := rfl
@[simp] theorem setTnNode_root (i : NodeIdx) (n : Node) (s : State) : (setTnNode i n s).root = s.root := rfl
@[simp] theorem setTnNode_acc (i : NodeIdx) (n : Node) (s : State) : (setTnNode i n s).acc = s.acc := rfl
@[simp] theorem setTnNode_nb (i : NodeIdx) (n : Node) (s : State) : (setTnNode i n s).nb = s.nb := rfl
@[simp] theorem setTnNode_ebits (i : NodeIdx) (n : Node) (s : State) : (setTnNode i n s).ebits = s.ebits := rfl
@[simp] theorem setTnNode_pay (i : NodeIdx) (n : Node) (s : State) : (setTnNode i n s).pay = s.pay := rfl
@[simp] theorem setTnNode_payLen (i : NodeIdx) (n : Node) (s : State) : (setTnNode i n s).payLen = s.payLen := rfl
@[simp] theorem setTnNode_tbcin (i : NodeIdx) (n : Node) (s : State) : (setTnNode i n s).tbcin = s.tbcin := rfl
@[simp] theorem setTnNode_dbits (i : NodeIdx) (n : Node) (s : State) : (setTnNode i n s).dbits = s.dbits := rfl
@[simp] theorem setTnNode_dpos (i : NodeIdx) (n : Node) (s : State) : (setTnNode i n s).dpos = s.dpos := rfl
@[simp] theorem setTnNode_cur (i : NodeIdx) (n : Node) (s : State) : (setTnNode i n s).cur = s.cur := rfl
@[simp] theorem setTnNode_out (i : NodeIdx) (n : Node) (s : State) : (setTnNode i n s).out = s.out := rfl
@[simp] theorem setTnNode_outLen (i : NodeIdx) (n : Node) (s : State) : (setTnNode i n s).outLen = s.outLen := rfl
@[simp] theorem setTnNode_err (i : NodeIdx) (n : Node) (s : State) : (setTnNode i n s).err = s.err := rfl
@[simp] theorem setTnNode_einfo (i : NodeIdx) (n : Node) (s : State) : (setTnNode i n s).einfo = s.einfo := rfl
@[simp] theorem setTnNode_payCap (i : NodeIdx) (n : Node) (s : State) : (setTnNode i n s).payCap = s.payCap := rfl
@[simp] theorem setTnNode_outCap (i : NodeIdx) (n : Node) (s : State) : (setTnNode i n s).outCap = s.outCap := rfl
@[simp] theorem setTnNode_inputs (i : NodeIdx) (n : Node) (s : State) : (setTnNode i n s).inputs = s.inputs := rfl
@[simp] theorem setTnNode_rsp (i : NodeIdx) (n : Node) (s : State) : (setTnNode i n s).rsp = s.rsp := rfl

/-! ## appendPay -/

@[simp] theorem appendPay_ct (b : Byte) (s : State) : (appendPay b s).ct = s.ct := rfl
@[simp] theorem appendPay_tn (b : Byte) (s : State) : (appendPay b s).tn = s.tn := rfl
@[simp] theorem appendPay_root (b : Byte) (s : State) : (appendPay b s).root = s.root := rfl
@[simp] theorem appendPay_acc (b : Byte) (s : State) : (appendPay b s).acc = s.acc := rfl
@[simp] theorem appendPay_nb (b : Byte) (s : State) : (appendPay b s).nb = s.nb := rfl
@[simp] theorem appendPay_ebits (b : Byte) (s : State) : (appendPay b s).ebits = s.ebits := rfl
@[simp] theorem appendPay_pay (b : Byte) (s : State) : (appendPay b s).pay = s.pay.write s.payLen.toNat b := rfl
@[simp] theorem appendPay_payLen (b : Byte) (s : State) : (appendPay b s).payLen = s.payLen + 1 := rfl
@[simp] theorem appendPay_tbcin (b : Byte) (s : State) : (appendPay b s).tbcin = s.tbcin := rfl
@[simp] theorem appendPay_dbits (b : Byte) (s : State) : (appendPay b s).dbits = s.dbits := rfl
@[simp] theorem appendPay_dpos (b : Byte) (s : State) : (appendPay b s).dpos = s.dpos := rfl
@[simp] theorem appendPay_cur (b : Byte) (s : State) : (appendPay b s).cur = s.cur := rfl
@[simp] theorem appendPay_out (b : Byte) (s : State) : (appendPay b s).out = s.out := rfl
@[simp] theorem appendPay_outLen (b : Byte) (s : State) : (appendPay b s).outLen = s.outLen := rfl
@[simp] theorem appendPay_err (b : Byte) (s : State) : (appendPay b s).err = s.err := rfl
@[simp] theorem appendPay_einfo (b : Byte) (s : State) : (appendPay b s).einfo = s.einfo := rfl
@[simp] theorem appendPay_payCap (b : Byte) (s : State) : (appendPay b s).payCap = s.payCap := rfl
@[simp] theorem appendPay_outCap (b : Byte) (s : State) : (appendPay b s).outCap = s.outCap := rfl
@[simp] theorem appendPay_inputs (b : Byte) (s : State) : (appendPay b s).inputs = s.inputs := rfl
@[simp] theorem appendPay_rsp (b : Byte) (s : State) : (appendPay b s).rsp = s.rsp := rfl

/-! ## appendOut -/

@[simp] theorem appendOut_ct (b : Byte) (s : State) : (appendOut b s).ct = s.ct := rfl
@[simp] theorem appendOut_tn (b : Byte) (s : State) : (appendOut b s).tn = s.tn := rfl
@[simp] theorem appendOut_root (b : Byte) (s : State) : (appendOut b s).root = s.root := rfl
@[simp] theorem appendOut_acc (b : Byte) (s : State) : (appendOut b s).acc = s.acc := rfl
@[simp] theorem appendOut_nb (b : Byte) (s : State) : (appendOut b s).nb = s.nb := rfl
@[simp] theorem appendOut_ebits (b : Byte) (s : State) : (appendOut b s).ebits = s.ebits := rfl
@[simp] theorem appendOut_pay (b : Byte) (s : State) : (appendOut b s).pay = s.pay := rfl
@[simp] theorem appendOut_payLen (b : Byte) (s : State) : (appendOut b s).payLen = s.payLen := rfl
@[simp] theorem appendOut_tbcin (b : Byte) (s : State) : (appendOut b s).tbcin = s.tbcin := rfl
@[simp] theorem appendOut_dbits (b : Byte) (s : State) : (appendOut b s).dbits = s.dbits := rfl
@[simp] theorem appendOut_dpos (b : Byte) (s : State) : (appendOut b s).dpos = s.dpos := rfl
@[simp] theorem appendOut_cur (b : Byte) (s : State) : (appendOut b s).cur = s.cur := rfl
@[simp] theorem appendOut_out (b : Byte) (s : State) : (appendOut b s).out = s.out.write s.outLen.toNat b := rfl
@[simp] theorem appendOut_outLen (b : Byte) (s : State) : (appendOut b s).outLen = s.outLen + 1 := rfl
@[simp] theorem appendOut_err (b : Byte) (s : State) : (appendOut b s).err = s.err := rfl
@[simp] theorem appendOut_einfo (b : Byte) (s : State) : (appendOut b s).einfo = s.einfo := rfl
@[simp] theorem appendOut_payCap (b : Byte) (s : State) : (appendOut b s).payCap = s.payCap := rfl
@[simp] theorem appendOut_outCap (b : Byte) (s : State) : (appendOut b s).outCap = s.outCap := rfl
@[simp] theorem appendOut_inputs (b : Byte) (s : State) : (appendOut b s).inputs = s.inputs := rfl
@[simp] theorem appendOut_rsp (b : Byte) (s : State) : (appendOut b s).rsp = s.rsp := rfl

/-! ## present -/

@[simp] theorem present_ct (w : Word) (s : State) : (present w s).ct = s.ct := rfl
@[simp] theorem present_tn (w : Word) (s : State) : (present w s).tn = s.tn := rfl
@[simp] theorem present_root (w : Word) (s : State) : (present w s).root = s.root := rfl
@[simp] theorem present_acc (w : Word) (s : State) : (present w s).acc = s.acc := rfl
@[simp] theorem present_nb (w : Word) (s : State) : (present w s).nb = s.nb := rfl
@[simp] theorem present_ebits (w : Word) (s : State) : (present w s).ebits = s.ebits := rfl
@[simp] theorem present_pay (w : Word) (s : State) : (present w s).pay = s.pay := rfl
@[simp] theorem present_payLen (w : Word) (s : State) : (present w s).payLen = s.payLen := rfl
@[simp] theorem present_tbcin (w : Word) (s : State) : (present w s).tbcin = s.tbcin := rfl
@[simp] theorem present_dbits (w : Word) (s : State) : (present w s).dbits = s.dbits := rfl
@[simp] theorem present_dpos (w : Word) (s : State) : (present w s).dpos = s.dpos := rfl
@[simp] theorem present_cur (w : Word) (s : State) : (present w s).cur = s.cur := rfl
@[simp] theorem present_out (w : Word) (s : State) : (present w s).out = s.out := rfl
@[simp] theorem present_outLen (w : Word) (s : State) : (present w s).outLen = s.outLen := rfl
@[simp] theorem present_err (w : Word) (s : State) : (present w s).err = s.err := rfl
@[simp] theorem present_einfo (w : Word) (s : State) : (present w s).einfo = s.einfo := rfl
@[simp] theorem present_payCap (w : Word) (s : State) : (present w s).payCap = s.payCap := rfl
@[simp] theorem present_outCap (w : Word) (s : State) : (present w s).outCap = s.outCap := rfl
@[simp] theorem present_inputs (w : Word) (s : State) : (present w s).inputs = .command w :: s.inputs := rfl
@[simp] theorem present_rsp (w : Word) (s : State) : (present w s).rsp = s.rsp := rfl

/-! ## toReset -/

@[simp] theorem toReset_ct (s : State) : (toReset s).ct = [] := rfl
@[simp] theorem toReset_tn (s : State) : (toReset s).tn = [] := rfl
@[simp] theorem toReset_root (s : State) : (toReset s).root = .null := rfl
@[simp] theorem toReset_acc (s : State) : (toReset s).acc = 0 := rfl
@[simp] theorem toReset_nb (s : State) : (toReset s).nb = 0 := rfl
@[simp] theorem toReset_ebits (s : State) : (toReset s).ebits = 0 := rfl
@[simp] theorem toReset_pay (s : State) : (toReset s).pay = [] := rfl
@[simp] theorem toReset_payLen (s : State) : (toReset s).payLen = 0 := rfl
@[simp] theorem toReset_tbcin (s : State) : (toReset s).tbcin = 0 := rfl
@[simp] theorem toReset_dbits (s : State) : (toReset s).dbits = 0 := rfl
@[simp] theorem toReset_dpos (s : State) : (toReset s).dpos = 0 := rfl
@[simp] theorem toReset_cur (s : State) : (toReset s).cur = .null := rfl
@[simp] theorem toReset_out (s : State) : (toReset s).out = [] := rfl
@[simp] theorem toReset_outLen (s : State) : (toReset s).outLen = 0 := rfl
@[simp] theorem toReset_err (s : State) : (toReset s).err = 0 := rfl
@[simp] theorem toReset_einfo (s : State) : (toReset s).einfo = 0 := rfl
@[simp] theorem toReset_payCap (s : State) : (toReset s).payCap = s.payCap := rfl
@[simp] theorem toReset_outCap (s : State) : (toReset s).outCap = s.outCap := rfl
@[simp] theorem toReset_inputs (s : State) : (toReset s).inputs = s.inputs := rfl
@[simp] theorem toReset_rsp (s : State) : (toReset s).rsp = none := rfl

end Sys2Proof.Machine
end

