-- ==== Sys2Proof/Laws/Ops.lean ====
section
/-! SUPPORT. One lemma per shared operation: everything it can do. Commands outside and inside the fault state, fetching,
the packer's step, one pass of the walk, the loop of DRUN, and which of them keep the invariant. -/

namespace Sys2Proof.Machine

/-! ## Commands and the port -/

theorem command_of_ok {s : State} (h : s.err = 0) (rule : State → State) : command s rule = .next (rule s) := by
  simp [command, h]

theorem command_of_fault {s : State} (h : s.err ≠ 0) (rule : State → State) : command s rule = .next (refuse s) := by
  rw [command, if_neg h]

theorem Cause.code_le (c : Cause) : c.code.toNat ≤ 7 := by cases c <;> decide

theorem Cause.code_ne_zero (c : Cause) : c.code ≠ 0 := by cases c <;> decide

theorem fetch_command {s : State} {w : Word} {rest : List Input} (h : s.inputs = .command w :: rest) :
    fetch s = .command w { s with inputs := rest } := by simp [fetch, h]

theorem fetch_reset {s : State} {d : Option Word} {rest : List Input} (h : s.inputs = .reset d :: rest) :
    fetch s = .reset { s with inputs := rest } := by simp [fetch, h]

theorem fetch_idle {s : State} (h : s.inputs = []) : fetch s = .idle := by simp [fetch, h]

theorem setBit_getLsbD {n : Nat} (v : BitVec n) (i j : Nat) (b : Bool) (hi : i < n) :
    (setBit v i b).getLsbD j = if j = i then b else v.getLsbD j := by
  have ht : (BitVec.twoPow n i).getLsbD j = decide (j = i) := by
    rw [BitVec.getLsbD_twoPow]
    by_cases h : i = j
    · subst h; simp [hi]
    · simp [h, Ne.symm h]
  cases b
  · by_cases hj : j < n
    · by_cases h : j = i
      · subst h; simp [setBit, ht]
      · simp [setBit, hj, h]
    · have : j ≠ i := by omega
      simp [setBit, hj, this, BitVec.getLsbD_of_ge v j (by omega)]
  · by_cases h : j = i
    · subst h; simp [setBit, hi]
    · simp [setBit, ht, h]

theorem setBit_getLsbD_ge {n : Nat} (v : BitVec n) (i j : Nat) (b : Bool) (hj : n ≤ j) :
    (setBit v i b).getLsbD j = false := BitVec.getLsbD_of_ge _ _ hj

theorem bitsDown_length {w : Nat} (v : BitVec w) (n : Nat) : (bitsDown v n).length = n := by
  induction n with
  | zero => rfl
  | succ n ih => simp [bitsDown, ih]

theorem CodeEntry.bits_length (e : CodeEntry) : e.bits.length = e.len.toNat := by simp [CodeEntry.bits]

theorem Ptr.word_inj {p q : Ptr} : p.word = q.word ↔ p = q := by
  refine ⟨fun h => ?_, fun h => h ▸ rfl⟩
  have hv : ∀ i : NodeIdx, (Ptr.word (.node i)).getLsbD 9 = true := by
    intro i; rw [Ptr.word, BitVec.getLsbD_or, show (0x200 : BitVec 10).getLsbD 9 = true from by decide, Bool.true_or]
  cases p with
  | null =>
    cases q with
    | null => rfl
    | node j => have h' := hv j; rw [← h] at h'; simp [Ptr.word] at h'
  | node i =>
    cases q with
    | null => have h' := hv i; rw [h] at h'; simp [Ptr.word] at h'
    | node j =>
      congr 1
      apply BitVec.eq_of_getLsbD_eq
      intro k hk
      have := congrArg (fun x : BitVec 10 => x.getLsbD k) h
      have h0 : ∀ k : Fin 9, (0x200 : BitVec 10).getLsbD k = false := by decide
      have h10 : k < 10 := by omega
      simpa only [Ptr.word, BitVec.getLsbD_or, h0 ⟨k, hk⟩, BitVec.getLsbD_setWidth, h10, decide_true, Bool.true_and,
        Bool.false_or] using this

/-! ## The packer's step -/

/-- NB and PAYLEN after one bit: together they count one more. -/
theorem pushBit_count (b : Bool) (s : State) (h : s.payLen.toNat + (s.nb.toNat + 1) / 8 < 2 ^ 25) :
    (pushBit b s).payLen.toNat = s.payLen.toNat + (s.nb.toNat + 1) / 8 ∧
    (pushBit b s).nb.toNat = (s.nb.toNat + 1) % 8 := by
  unfold pushBit
  by_cases h7 : s.nb = 7
  · have : s.nb.toNat = 7 := by rw [h7]; rfl
    rw [if_pos h7]
    constructor
    · show (s.payLen + 1).toNat = _
      rw [BitVec.toNat_add]
      simp only [BitVec.ofNat_eq_ofNat, BitVec.toNat_ofNat]
      omega
    · show (0 : BitVec 3).toNat = _
      rw [this]; rfl
  · have h7' : s.nb.toNat ≠ 7 := fun h => h7 (BitVec.eq_of_toNat_eq h)
    rw [if_neg h7]
    have := s.nb.isLt
    constructor
    · show s.payLen.toNat = _
      omega
    · show (s.nb + 1).toNat = _
      rw [BitVec.toNat_add]
      rfl

/-- PushBit writes ACC, NB, PAY and PAYLEN only. -/
theorem pushBit_frame (b : Bool) (s : State) :
    pushBit b s = { s with acc := (pushBit b s).acc, nb := (pushBit b s).nb, pay := (pushBit b s).pay,
                           payLen := (pushBit b s).payLen } := by
  unfold pushBit
  split_ifs <;> rfl

theorem pushBits_frame (bs : List Bool) (s : State) :
    pushBits bs s = { s with acc := (pushBits bs s).acc, nb := (pushBits bs s).nb, pay := (pushBits bs s).pay,
                             payLen := (pushBits bs s).payLen } := by
  induction bs generalizing s with
  | nil => rfl
  | cons b bs ih =>
    rw [pushBits, ih, pushBit_frame]

theorem pushBits_append (as bs : List Bool) (s : State) : pushBits (as ++ bs) s = pushBits bs (pushBits as s) := by
  induction as generalizing s with
  | nil => rfl
  | cons a as ih => simp only [List.cons_append, pushBits, ih]

/-- NB and PAYLEN after a sequence of bits that fits. -/
theorem pushBits_count (bs : List Bool) (s : State) (h : s.payLen.toNat + (s.nb.toNat + bs.length) / 8 < 2 ^ 25) :
    (pushBits bs s).payLen.toNat = s.payLen.toNat + (s.nb.toNat + bs.length) / 8 ∧
    (pushBits bs s).nb.toNat = (s.nb.toNat + bs.length) % 8 := by
  induction bs generalizing s with
  | nil =>
    have := s.nb.isLt
    simp [pushBits]
    omega
  | cons b bs ih =>
    simp only [List.length_cons] at h ⊢
    obtain ⟨h1, h2⟩ := pushBit_count b s (by omega)
    obtain ⟨h3, h4⟩ := ih (pushBit b s) (by rw [h1, h2]; omega)
    rw [pushBits, h3, h4, h1, h2]
    omega

/-- What a checked push does: BUFFER_FULL(0) and nothing else, or the bits pushed and counted. -/
theorem pushChecked_cases (bs : List Bool) (d : Word) (s : State) :
    (s.payCap.toNat < s.payLen.toNat + (s.nb.toNat + bs.length) / 8 ∧ pushChecked bs d s = raise .bufferFull 0 s) ∨
    (s.payLen.toNat + (s.nb.toNat + bs.length) / 8 ≤ s.payCap.toNat ∧
      pushChecked bs d s = respond .ok d
        { pushBits bs s with ebits := s.ebits + BitVec.ofNat 64 bs.length }) := by
  unfold pushChecked
  by_cases h : s.payCap.toNat < s.payLen.toNat + (s.nb.toNat + bs.length) / 8
  · exact .inl ⟨h, by rw [if_pos h]⟩
  · refine .inr ⟨by omega, ?_⟩
    rw [if_neg h]
    have : (pushBits bs s).ebits = s.ebits := by rw [pushBits_frame]
    simp only [this]

/-! ## The walk -/

/-- What the end of a move can do: the fault of the tail, with the bit consumed, or go on. -/
theorem endMove_cases (d : Word) (s : State) :
    (s.dpos + 1 = s.dbits ∧ s.root ≠ s.cur ∧
      endMove d s = .raised (raise .corruptStreamTail (low32 (s.dpos + 1)) { s with dpos := s.dpos + 1 })) ∨
    (¬ (s.dpos + 1 = s.dbits ∧ s.root ≠ s.cur) ∧ endMove d s = .moved { s with dpos := s.dpos + 1 } d) := by
  by_cases h : s.dpos + 1 = s.dbits ∧ s.root ≠ s.cur
  · refine .inl ⟨h.1, h.2, ?_⟩
    rw [endMove]
    exact if_pos ⟨h.1, fun he => h.2 (Ptr.word_inj.1 he).symm⟩
  · refine .inr ⟨h, ?_⟩
    rw [endMove]
    exact if_neg fun he => h ⟨he.1, fun hc => he.2 (Ptr.word_inj.2 hc.symm)⟩

/-- Everything one pass of the walk can do: three faults before any write, or a move whose last bit may fault. -/
theorem walkPass_cases (s : State) :
    (nextBitAvailable s = false ∧ walkPass s = .raised (raise .payloadShort (low32 s.dpos) s)) ∨
    (nextBitAvailable s = true ∧
      (child s (nextBit s) = .null ∨ ∃ c, child s (nextBit s) = .node c ∧ (tnNode s c).kind = .invalid) ∧
      walkPass s = .raised (raise .corruptStreamNoChild (low32 s.dpos) s)) ∨
    (nextBitAvailable s = true ∧ ∃ c, child s (nextBit s) = .node c ∧ (tnNode s c).kind = .leaf ∧
      ((s.outLen = s.outCap ∧ walkPass s = .raised (raise .bufferFull 1 s)) ∨
       (s.outLen ≠ s.outCap ∧
         walkPass s = .moved { appendOut (tnNode s c).sym s with cur := s.root, dpos := s.dpos + 1 }
           (emitData (tnNode s c).sym)))) ∨
    (nextBitAvailable s = true ∧ ∃ c, child s (nextBit s) = .node c ∧
      ((tnNode s c).kind = .internal ∨ (tnNode s c).kind = .single) ∧
      ((s.dpos + 1 = s.dbits ∧ s.root ≠ .node c ∧
         walkPass s = .raised (raise .corruptStreamTail (low32 (s.dpos + 1))
           { s with cur := .node c, dpos := s.dpos + 1 })) ∨
       (¬ (s.dpos + 1 = s.dbits ∧ s.root ≠ .node c) ∧
         walkPass s = .moved { s with cur := .node c, dpos := s.dpos + 1 } 0))) := by
  unfold walkPass
  cases ha : nextBitAvailable s with
  | false => left; simp
  | true =>
    right
    simp only [if_true, true_and]
    cases hc : child s (nextBit s) with
    | null => left; simp
    | node c =>
      cases hk : (tnNode s c).kind with
      | invalid => left; simp [hk]
      | leaf =>
        right; left
        refine ⟨c, rfl, hk, ?_⟩
        by_cases hf : s.outLen = s.outCap
        · left; simp [hk, hf]
        · right
          simp only [hk, if_neg hf]
          rcases endMove_cases (emitData (tnNode s c).sym) { appendOut (tnNode s c).sym s with cur := s.root } with
            ⟨-, h, -⟩ | ⟨-, h⟩
          · exact absurd rfl h
          · exact ⟨hf, h⟩
      | internal =>
        right; right
        simp only [hk]
        exact ⟨c, rfl, .inl hk, endMove_cases 0 { s with cur := .node c }⟩
      | single =>
        right; right
        simp only [hk]
        exact ⟨c, rfl, .inr hk, endMove_cases 0 { s with cur := .node c }⟩

/-- A pass that goes on has consumed one bit and changed DPOS, CUR, OUT and OUTLEN only. -/
theorem walkPass_moved {s t : State} {d : Word} (h : walkPass s = .moved t d) :
    t = { s with dpos := s.dpos + 1, cur := t.cur, out := t.out, outLen := t.outLen } := by
  rcases walkPass_cases s with ⟨-, hw⟩ | ⟨-, -, hw⟩ | ⟨-, c, -, -, ⟨-, hw⟩ | ⟨-, hw⟩⟩ |
    ⟨-, c, -, -, ⟨-, -, hw⟩ | ⟨-, hw⟩⟩ <;> rw [hw] at h <;> first | cases h; rfl | cases h

/-- A pass that raises leaves the fault state's registers set; but for a fault at the tail nothing else changed. -/
theorem walkPass_raised {s t : State} (h : walkPass s = .raised t) : t.err ≠ 0 ∧ t.rsp = some ⟨.fault, t.err.setWidth 32⟩ ∧
    t = { s with dpos := t.dpos, cur := t.cur, err := t.err, einfo := t.einfo, rsp := t.rsp } := by
  rcases walkPass_cases s with ⟨-, hw⟩ | ⟨-, -, hw⟩ | ⟨-, c, -, -, ⟨-, hw⟩ | ⟨-, hw⟩⟩ |
    ⟨-, c, -, -, ⟨-, -, hw⟩ | ⟨-, hw⟩⟩ <;> rw [hw] at h <;>
    first | (cases h; exact ⟨by rw [raise_err]; exact Cause.code_ne_zero _, rfl, rfl⟩) | cases h

/-- DPOS after a pass that goes on, as a number. -/
theorem walkPass_dpos {s t : State} {d : Word} (h : walkPass s = .moved t d) (hlt : s.dpos.toNat < s.dbits.toNat) :
    t.dpos.toNat = s.dpos.toNat + 1 ∧ t.dbits = s.dbits := by
  rw [walkPass_moved h]
  refine ⟨?_, rfl⟩
  show (s.dpos + 1).toNat = _
  have := s.dbits.isLt
  rw [BitVec.toNat_add]
  simp only [BitVec.ofNat_eq_ofNat, BitVec.toNat_ofNat]
  omega

/-- The number the loop of DRUN runs on is `DBITS - DPOS` at every pass. -/
theorem runWalk_count {s t : State} {d : Word} {n : Nat} (h : walkPass s = .moved t d)
    (hn : n + 1 = s.dbits.toNat - s.dpos.toNat) : n = t.dbits.toNat - t.dpos.toNat := by
  obtain ⟨h1, h2⟩ := walkPass_dpos h (by omega)
  rw [h1, h2]
  omega

/-- The induction over DRUN's loop, once: what holds at its start, is kept by a pass that goes on, and gives the conclusion
at the end and at a fault, gives the conclusion. `P` may use that bits are left. -/
theorem runWalk_induction {P : State → Prop} {Q : State → Prop}
    (hmove : ∀ s t d, P s → s.dpos.toNat < s.dbits.toNat → walkPass s = .moved t d → P t)
    (hraise : ∀ s t, P s → s.dpos.toNat < s.dbits.toNat → walkPass s = .raised t → Q t)
    (hend : ∀ s, P s → s.dbits.toNat ≤ s.dpos.toNat → Q (respond .ok (s.outLen.setWidth 32) s))
    {s : State} (h : P s) : Q (runWalk (s.dbits.toNat - s.dpos.toNat) s) := by
  generalize hn : s.dbits.toNat - s.dpos.toNat = n
  induction n generalizing s with
  | zero => exact hend s h (by omega)
  | succ n ih =>
    rw [runWalk]
    cases hw : walkPass s with
    | raised t => exact hraise s t h (by omega) hw
    | moved t d => exact ih (hmove s t d h (by omega) hw) (runWalk_count hw hn.symm).symm

/-! ## The invariant and the shared operations -/

/-- The invariant speaks neither of the port nor of the response. -/
theorem State.Inv.of_respond {s : State} (h : s.Inv) (st : Status) (d : Word) : (respond st d s).Inv :=
  ⟨h.canonical, h.ctKeys, h.tnKeys, h.payKeys, h.outKeys, h.payCap, h.outCap, h.payLen, h.outLen, h.accPad, h.ebits,
    h.dpos, h.err, h.einfo, h.nodeSym⟩

theorem State.Inv.of_inputs {s : State} (h : s.Inv) (is : List Input) : ({ s with inputs := is } : State).Inv :=
  ⟨h.canonical, h.ctKeys, h.tnKeys, h.payKeys, h.outKeys, h.payCap, h.outCap, h.payLen, h.outLen, h.accPad, h.ebits,
    h.dpos, h.err, h.einfo, h.nodeSym⟩

theorem State.Inv.of_raise {s : State} (h : s.Inv) (c : Cause) (info : Word) : (raise c info s).Inv :=
  ⟨h.canonical, h.ctKeys, h.tnKeys, h.payKeys, h.outKeys, h.payCap, h.outCap, h.payLen, h.outLen, h.accPad, h.ebits,
    h.dpos, c.code_le, fun h0 => absurd h0 c.code_ne_zero, h.nodeSym⟩

theorem State.canonical_iff {s : State} : s.canonical = true ↔
    Cells.wf CodeEntry.empty s.ct = true ∧ Cells.wf Node.empty s.tn = true ∧ s.pay.wf = true ∧ s.out.wf = true := by
  simp [State.canonical, and_assoc]

/-- Reading an entry after writing one. -/
theorem ctEntry_setCtEntry {s : State} (h : s.canonical = true) (sym x : Sym) (e : CodeEntry) :
    ctEntry (setCtEntry sym e s) x = if x = sym then e else ctEntry s x := by
  rw [ctEntry, setCtEntry, Cells.read_write (State.canonical_iff.1 h).1]
  by_cases hx : x = sym
  · simp [hx]
  · have : sym.toNat ≠ x.toNat := fun h => hx (BitVec.eq_of_toNat_eq h.symm)
    simp [hx, this, ctEntry]

/-- Reading a node after writing one. -/
theorem tnNode_setTnNode {s : State} (h : s.canonical = true) (i x : NodeIdx) (n : Node) :
    tnNode (setTnNode i n s) x = if x = i then n else tnNode s x := by
  rw [tnNode, setTnNode, Cells.read_write (State.canonical_iff.1 h).2.1]
  by_cases hx : x = i
  · simp [hx]
  · have : i.toNat ≠ x.toNat := fun h => hx (BitVec.eq_of_toNat_eq h.symm)
    simp [hx, this, tnNode]

/-- Reading a payload byte after appending one. -/
theorem payByte_appendPay {s : State} (h : s.pay.wf = true) (b : Byte) (a : Nat) :
    payByte (appendPay b s) a = if a = s.payLen.toNat then b else payByte s a := by
  rw [payByte, appendPay, Memory.read_write h]
  by_cases ha : a = s.payLen.toNat
  · simp [ha]
  · simp [ha, Ne.symm ha, payByte]

/-- Reading an output byte after appending one. -/
theorem outByte_appendOut {s : State} (h : s.out.wf = true) (b : Byte) (a : Nat) :
    outByte (appendOut b s) a = if a = s.outLen.toNat then b else outByte s a := by
  rw [outByte, appendOut, Memory.read_write h]
  by_cases ha : a = s.outLen.toNat
  · simp [ha]
  · simp [ha, Ne.symm ha, outByte]

end Sys2Proof.Machine
end

