-- ==== Sys2Proof/Laws/Inv.lean ====
section
/-! SUPPORT. The shared operations keep the invariant: appending to a buffer, pushing bits, one pass of the walk, the loop
of DRUN, loading an entry or a node, reset. -/

namespace Sys2Proof.Machine

theorem State.Inv.of_resetFor {pc oc : BitVec 25} (hp : 1 ≤ pc.toNat ∧ pc.toNat ≤ Config.capMax)
    (ho : 1 ≤ oc.toNat ∧ oc.toNat ≤ Config.capMax) : (State.resetFor pc oc).Inv where
  canonical := rfl
  ctKeys := rfl
  tnKeys := rfl
  payKeys := rfl
  outKeys := rfl
  payCap := hp
  outCap := ho
  payLen := Nat.zero_le _
  outLen := Nat.zero_le _
  accPad := fun _ _ => BitVec.getLsbD_zero
  ebits := Nat.le_refl 0
  dpos := Nat.le_refl 0
  err := Nat.zero_le 7
  einfo := fun _ => rfl
  nodeSym := fun _ h => by cases h

theorem State.Inv.of_toReset {s : State} (h : s.Inv) : (toReset s).Inv :=
  (State.Inv.of_resetFor h.payCap h.outCap).of_inputs s.inputs

theorem State.Inv.canonical_parts {s : State} (h : s.Inv) :
    Cells.wf CodeEntry.empty s.ct = true ∧ Cells.wf Node.empty s.tn = true ∧ s.pay.wf = true ∧ s.out.wf = true :=
  State.canonical_iff.1 h.canonical

theorem State.Inv.of_setCtEntry {s : State} (h : s.Inv) (sym : Sym) (e : CodeEntry) : (setCtEntry sym e s).Inv :=
  { h with
    canonical := by
      obtain ⟨h1, h2, h3, h4⟩ := h.canonical_parts
      exact State.canonical_iff.2 ⟨Cells.wf_write h1 _ _, h2, h3, h4⟩
    ctKeys := Cells.below_write h.ctKeys (Nat.le_refl _) sym.isLt }

theorem State.Inv.of_setTnNode {s : State} (h : s.Inv) (i : NodeIdx) (n : Node) (hn : n.kind ≠ .leaf → n.sym = 0) :
    (setTnNode i n s).Inv :=
  { h with
    canonical := by
      obtain ⟨h1, h2, h3, h4⟩ := h.canonical_parts
      exact State.canonical_iff.2 ⟨h1, Cells.wf_write h2 _ _, h3, h4⟩
    tnKeys := Cells.below_write h.tnKeys (Nat.le_refl _) i.isLt
    nodeSym := fun c hc => by
      rcases Cells.mem_write hc with rfl | hc
      · exact hn
      · exact h.nodeSym c hc }

/-- The symbol of a node that is no LEAF is 0. -/
theorem State.Inv.tnNode_sym {s : State} (h : s.Inv) (i : NodeIdx) (hk : (tnNode s i).kind ≠ .leaf) :
    (tnNode s i).sym = 0 := by
  rcases Cells.read_mem (d := Node.empty) s.tn i.toNat with h0 | h0
  · rw [tnNode, h0]; rfl
  · exact h.nodeSym _ h0 hk

theorem payLen_succ {s : State} {n : Nat} (h : s.payLen.toNat < n) (hn : n ≤ Config.capMax) :
    (s.payLen + 1).toNat = s.payLen.toNat + 1 := by
  rw [BitVec.toNat_add]
  simp only [BitVec.ofNat_eq_ofNat, BitVec.toNat_ofNat]
  simp only [Config.capMax] at hn
  omega

theorem outLen_succ {s : State} {n : Nat} (h : s.outLen.toNat < n) (hn : n ≤ Config.capMax) :
    (s.outLen + 1).toNat = s.outLen.toNat + 1 := by
  rw [BitVec.toNat_add]
  simp only [BitVec.ofNat_eq_ofNat, BitVec.toNat_ofNat]
  simp only [Config.capMax] at hn
  omega

/-- A byte appended to PAY where there is room, with the packer's partial byte kept or emptied. -/
theorem State.Inv.of_appendPay {s : State} (h : s.Inv) (hroom : s.payLen.toNat < s.payCap.toNat) (b : Byte) :
    (appendPay b s).Inv := by
  have hl := payLen_succ hroom h.payCap.2
  exact { h with
    canonical := by
      obtain ⟨h1, h2, h3, h4⟩ := h.canonical_parts
      exact State.canonical_iff.2 ⟨h1, h2, Memory.wf_write h3 _ _, h4⟩
    payKeys := Cells.below_write h.payKeys (by show _ ≤ (s.payLen + 1).toNat; omega)
      (by show _ < (s.payLen + 1).toNat; omega)
    payLen := by show (s.payLen + 1).toNat ≤ _; rw [hl]; exact hroom
    ebits := by
      have := h.ebits
      show s.ebits.toNat ≤ 8 * (s.payLen + 1).toNat + s.nb.toNat
      omega }

/-- Appending the partial byte and emptying it. -/
theorem State.Inv.of_flushAcc {s : State} (h : s.Inv) (hroom : s.payLen.toNat < s.payCap.toNat) (b : Byte) :
    ({ appendPay b s with acc := 0, nb := 0 } : State).Inv := by
  have hl := payLen_succ hroom h.payCap.2
  exact { h.of_appendPay hroom b with
    accPad := fun _ _ => BitVec.getLsbD_zero
    ebits := by
      have := h.ebits
      have := s.nb.isLt
      show s.ebits.toNat ≤ 8 * (s.payLen + 1).toNat + 0
      omega }

theorem State.Inv.of_appendOut {s : State} (h : s.Inv) (hroom : s.outLen.toNat < s.outCap.toNat) (b : Byte) :
    (appendOut b s).Inv := by
  have hl := outLen_succ hroom h.outCap.2
  exact { h with
    canonical := by
      obtain ⟨h1, h2, h3, h4⟩ := h.canonical_parts
      exact State.canonical_iff.2 ⟨h1, h2, h3, Memory.wf_write h4 _ _⟩
    outKeys := Cells.below_write h.outKeys (by show _ ≤ (s.outLen + 1).toNat; omega)
      (by show _ < (s.outLen + 1).toNat; omega)
    outLen := by show (s.outLen + 1).toNat ≤ _; rw [hl]; exact hroom }

theorem State.Inv.of_pushBit {s : State} (h : s.Inv) (b : Bool)
    (hroom : s.payLen.toNat + (s.nb.toNat + 1) / 8 ≤ s.payCap.toNat) : (pushBit b s).Inv := by
  unfold pushBit
  by_cases h7 : s.nb = 7
  · rw [if_pos h7]
    have : s.nb.toNat = 7 := by rw [h7]; rfl
    exact h.of_flushAcc (by omega) _
  · rw [if_neg h7]
    have h7' : s.nb.toNat ≠ 7 := fun h => h7 (BitVec.eq_of_toNat_eq h)
    have hn := s.nb.isLt
    have hnb : (s.nb + 1).toNat = s.nb.toNat + 1 := by
      rw [BitVec.toNat_add]
      simp only [BitVec.ofNat_eq_ofNat, BitVec.toNat_ofNat]
      omega
    exact { h with
      accPad := fun i hi => by
        have hi' : i < 8 - (s.nb + 1).toNat := hi
        show (setBit s.acc (7 - s.nb.toNat) b).getLsbD i = false
        rw [setBit_getLsbD _ _ _ _ (by omega), if_neg (by omega)]
        exact h.accPad i (by omega)
      ebits := by
        have := h.ebits
        show s.ebits.toNat ≤ 8 * s.payLen.toNat + (s.nb + 1).toNat
        omega }

theorem State.Inv.of_pushBits {s : State} (h : s.Inv) (bs : List Bool)
    (hroom : s.payLen.toNat + (s.nb.toNat + bs.length) / 8 ≤ s.payCap.toNat) : (pushBits bs s).Inv := by
  induction bs generalizing s with
  | nil => exact h
  | cons b bs ih =>
    simp only [List.length_cons] at hroom
    have hcap := s.payCap.isLt
    obtain ⟨h1, h2⟩ := pushBit_count b s (by omega)
    have h3 : (pushBit b s).payCap = s.payCap := by rw [pushBit_frame]
    exact ih (h.of_pushBit b (by omega)) (by rw [h1, h2, h3]; omega)

theorem State.Inv.of_pushChecked {s : State} (h : s.Inv) (bs : List Bool) (d : Word) : (pushChecked bs d s).Inv := by
  rcases pushChecked_cases bs d s with ⟨-, hp⟩ | ⟨hroom, hp⟩
  · rw [hp]; exact h.of_raise _ _
  · rw [hp]
    have hcap := s.payCap.isLt
    obtain ⟨h1, h2⟩ := pushBits_count bs s (by omega)
    have hi : State.Inv { pushBits bs s with ebits := s.ebits + BitVec.ofNat 64 bs.length } :=
      { h.of_pushBits bs hroom with
        ebits := by
          have := h.ebits
          have := Nat.mod_le (s.ebits.toNat + bs.length) (2 ^ 64)
          show (s.ebits + BitVec.ofNat 64 bs.length).toNat ≤ 8 * (pushBits bs s).payLen.toNat + (pushBits bs s).nb.toNat
          rw [h1, h2, BitVec.toNat_add, BitVec.toNat_ofNat, Nat.add_mod_mod]
          omega }
    exact hi.of_respond _ _

theorem dpos_succ {s : State} (h : s.dpos.toNat < s.dbits.toNat) : (s.dpos + 1).toNat = s.dpos.toNat + 1 := by
  have := s.dbits.isLt
  rw [BitVec.toNat_add]
  simp only [BitVec.ofNat_eq_ofNat, BitVec.toNat_ofNat]
  omega

/-- Moving the two cursors, DPOS by one bit that is left. -/
theorem State.Inv.of_move {s : State} (h : s.Inv) (hlt : s.dpos.toNat < s.dbits.toNat) (p : Ptr) :
    ({ s with cur := p, dpos := s.dpos + 1 } : State).Inv :=
  { h with dpos := by show (s.dpos + 1).toNat ≤ _; rw [dpos_succ hlt]; exact hlt }

theorem State.Inv.of_walkPass {s : State} (h : s.Inv) (hlt : s.dpos.toNat < s.dbits.toNat) :
    (∀ t, walkPass s = .raised t → t.Inv) ∧ (∀ t d, walkPass s = .moved t d → t.Inv) := by
  rcases walkPass_cases s with ⟨-, hw⟩ | ⟨-, -, hw⟩ | ⟨-, c, -, -, ⟨-, hw⟩ | ⟨hf, hw⟩⟩ |
    ⟨-, c, -, -, ⟨-, -, hw⟩ | ⟨-, hw⟩⟩ <;> rw [hw] <;> refine ⟨fun t ht => ?_, fun t d ht => ?_⟩ <;> cases ht
  · exact h.of_raise _ _
  · exact h.of_raise _ _
  · exact h.of_raise _ _
  · have := h.outLen
    have hne : s.outLen.toNat ≠ s.outCap.toNat := fun he => hf (BitVec.eq_of_toNat_eq he)
    exact (h.of_appendOut (by omega) _).of_move hlt s.root
  · exact (h.of_move hlt _).of_raise _ _
  · exact h.of_move hlt _

theorem State.Inv.of_runWalk {s : State} (h : s.Inv) : (runWalk (s.dbits.toNat - s.dpos.toNat) s).Inv :=
  runWalk_induction (P := State.Inv) (Q := State.Inv) (fun _ _ _ hp hlt hw => (hp.of_walkPass hlt).2 _ _ hw)
    (fun _ _ hp hlt hw => (hp.of_walkPass hlt).1 _ hw) (fun _ hp _ => hp.of_respond _ _) h

end Sys2Proof.Machine
end

