-- ==== Sys2Proof/Laws/PerInstr.lean ====
section
/-! SUPPORT. The per-instruction family EncodingRow: a command's word lies in its row of the command table
(30_encoding R64). -/

namespace Sys2Proof.Laws.EncodingRow

/-- The word's opcode is its row's, and no must-be-zero bit of the row's format is 1. -/
def Statement (i : Instr) : Prop :=
  (encode i).toNat / 2 ^ 26 = i.op.code.toNat ∧ encode i &&& i.op.format.mbz = 0

/-- The number of a word is its opcode and its fields, which stay below the must-be-zero bits. -/
theorem of_value (i : Instr) : Statement i := by
  have h := encode_toNat i
  have hf := i.fieldValue_lt
  have hle : 2 ^ i.op.format.operandBits ≤ 2 ^ 26 := Nat.pow_le_pow_right (by decide) i.op.format.operandBits_le
  refine ⟨by omega, (Format.and_mbz_eq_zero _ _).2 ?_⟩
  rw [h, Nat.add_comm, Nat.add_mul_mod_self_right, Nat.mod_eq_of_lt (by omega)]
  exact hf

theorem sreset : Statement .sreset := of_value _
theorem rdreg (r : Reg) : Statement (.rdreg r) := of_value _
theorem ctclr : Statement .ctclr := of_value _
theorem ctlen (sym : Sym) (len : BitVec 8) : Statement (.ctlen sym len) := of_value _
theorem ctbit (sym : Sym) (idx : BitVec 8) (b : Bool) : Statement (.ctbit sym idx b) := of_value _
theorem ctrd (sym : Sym) (idx : BitVec 8) : Statement (.ctrd sym idx) := of_value _
theorem tclr : Statement .tclr := of_value _
theorem tleaf (idx : NodeIdx) (sym : Sym) : Statement (.tleaf idx sym) := of_value _
theorem tint (idx : NodeIdx) : Statement (.tint idx) := of_value _
theorem tsngl (idx : NodeIdx) : Statement (.tsngl idx) := of_value _
theorem tleft (idx child : NodeIdx) : Statement (.tleft idx child) := of_value _
theorem tright (idx child : NodeIdx) : Statement (.tright idx child) := of_value _
theorem troot (idx : NodeIdx) : Statement (.troot idx) := of_value _
theorem trd (idx : NodeIdx) : Statement (.trd idx) := of_value _
theorem pclr : Statement .pclr := of_value _
theorem pbits (n : BitVec 5) (v : BitVec 16) : Statement (.pbits n v) := of_value _
theorem pflush : Statement .pflush := of_value _
theorem esym (sym : Sym) : Statement (.esym sym) := of_value _
theorem payw (byte : Byte) : Statement (.payw byte) := of_value _
theorem payr (idx : BitVec 24) : Statement (.payr idx) := of_value _
theorem outr (idx : BitVec 24) : Statement (.outr idx) := of_value _
theorem dcnt (k : BitVec 2) (imm : BitVec 16) : Statement (.dcnt k imm) := of_value _
theorem dstart : Statement .dstart := of_value _
theorem ubit : Statement .ubit := of_value _
theorem dstep : Statement .dstep := of_value _
theorem drun : Statement .drun := of_value _

end Sys2Proof.Laws.EncodingRow
end

