-- ==== Sys2Proof/Machine/Assembler.lean ====
section
/-! DEFINITION. The written form of commands (30_encoding R68, R69): text to commands. A tool for writing programs down; no
step uses it. -/

namespace Sys2Proof.Machine

/-- One operand as written. -/
inductive AsmOperand where
  /-- a decimal or `0x` hexadecimal number, or a quoted character standing for its byte value -/
  | num (n : Nat)
  /-- a string in double quotes -/
  | str (cs : List Char)
  /-- a name (a register's) -/
  | name (cs : List Char)
  deriving DecidableEq, Repr

/-- Cut a list at each element equal to `c`. -/
def splitAtChar (c : Char) : List Char → List (List Char)
  | [] => [[]]
  | x :: xs =>
    match splitAtChar c xs with
    | [] => [[x]]
    | p :: ps => if x = c then [] :: p :: ps else (x :: p) :: ps

/-- Remove blanks at both ends. -/
def trimChars (cs : List Char) : List Char :=
  ((cs.dropWhile (fun c => c.isWhitespace)).reverse.dropWhile (fun c => c.isWhitespace)).reverse

/-- The part of a line before its comment: "`;` starts a comment" (30_encoding R68). A `;` inside a quoted character
or string starts none; `q` is the open quote, if any. Each quote character opens or closes a quotation, there is no escape:
DESIGN CHOICE, log entry 9. -/
def dropComment : Option Char → List Char → List Char
  | _, [] => []
  | none, c :: cs =>
    if c = ';' then []
    else if c = '"' ∨ c = '\'' then c :: dropComment (some c) cs
    else c :: dropComment none cs
  | some q, c :: cs => if c = q then c :: dropComment none cs else c :: dropComment (some q) cs

/-- Cut an operand list at its commas; a comma inside quotes does not cut. Quotes are taken as in
`dropComment` (log entry 9). -/
def splitOperands : Option Char → List Char → List (List Char)
  | _, [] => [[]]
  | q, c :: cs =>
    let q' := match q with
      | none => if c = '"' ∨ c = '\'' then some c else none
      | some d => if c = d then none else some d
    match splitOperands q' cs with
    | [] => [[c]]
    | p :: ps => if q = none ∧ c = ',' then [] :: p :: ps else (c :: p) :: ps

/-- The value of a digit in a base. -/
def digitValue (base : Nat) (c : Char) : Option Nat :=
  let n := c.toNat
  let v := if 48 ≤ n ∧ n ≤ 57 then n - 48 else if 65 ≤ n ∧ n ≤ 70 then n - 55 else if 97 ≤ n ∧ n ≤ 102 then n - 87 else base
  if v < base then some v else none

/-- A numeral in a base, digits left to right; `acc` is the value of the digits read. -/
def readDigits (base : Nat) : Nat → List Char → Option Nat
  | acc, [] => some acc
  | acc, c :: cs =>
    match digitValue base c with
    | none => none
    | some d => readDigits base (acc * base + d) cs

/-- One operand (30_encoding R68): `'a'`, `"…"`, `0x…`, a decimal number, else a name. A quoted character is ASCII.
The rule allows it for a symbol operand; that every other numeric operand (length, bit or buffer index, node, byte, bit count,
register number) takes one too, as its byte value, is a DESIGN CHOICE (log entry 9). -/
def readOperand (cs : List Char) : Option AsmOperand :=
  match cs with
  | [] => none
  | ['\'', c, '\''] => if c.toNat < 128 then some (.num c.toNat) else none
  | '"' :: rest =>
    match rest.reverse with
    | '"' :: body => some (.str body.reverse)
    | _ => none
  | '0' :: 'x' :: d :: ds => (readDigits 16 0 (d :: ds)).map .num
  | c :: rest => if c.isDigit then (readDigits 10 0 (c :: rest)).map .num else some (.name (c :: rest))

/-- All operands, none if one is ill-formed. -/
def readOperands : List (List Char) → Option (List AsmOperand)
  | [] => some []
  | p :: ps =>
    match readOperand (trimChars p), readOperands ps with
    | some o, some os => some (o :: os)
    | _, _ => none

/-- A line's mnemonic and operands. -/
def readLine (line : List Char) : Option (String × List AsmOperand) :=
  let l := trimChars (dropComment none line)
  let mn := l.takeWhile (fun c => !c.isWhitespace)
  let rest := trimChars (l.dropWhile (fun c => !c.isWhitespace))
  match rest with
  | [] => some (String.ofList mn, [])
  | c :: cs => (readOperands (splitOperands none (c :: cs))).map (fun os => (String.ofList mn, os))

/-- The register names of 10_state R32. -/
def Reg.ofName (n : String) : Option Reg :=
  ([("STATUS", .status), ("EINFO", .einfo), ("EBITS_LO", .ebitsLo), ("EBITS_HI", .ebitsHi), ("TBCIN_LO", .tbcinLo),
    ("TBCIN_HI", .tbcinHi), ("DBITS_LO", .dbitsLo), ("DBITS_HI", .dbitsHi), ("DPOS_LO", .dposLo), ("DPOS_HI", .dposHi),
    ("PAYLEN", .payLen), ("OUTLEN", .outLen), ("PACKST", .packSt), ("TREEST", .treeSt), ("PAYCAP", .payCap),
    ("OUTCAP", .outCap)] : List (String × Reg)).lookup n

/-- A register operand: a number 0..15 or a name (30_encoding R68). -/
def AsmOperand.reg : AsmOperand → Option Reg
  | .num n => if n < 16 then some (Reg.ofNumber (BitVec.ofNat 4 n)) else none
  | .name cs => Reg.ofName (String.ofList cs)
  | .str _ => none

/-- A numeric operand that must fit `w` bits. -/
def AsmOperand.val (w : Nat) : AsmOperand → Option (BitVec w)
  | .num n => if n < 2 ^ w then some (BitVec.ofNat w n) else none
  | .str _ => none
  | .name _ => none

/-- PBITS's bit count, 1..16 (30_encoding R68). -/
def AsmOperand.bitCount : AsmOperand → Option (BitVec 5)
  | .num n => if 1 ≤ n ∧ n ≤ 16 then some (BitVec.ofNat 5 n) else none
  | .str _ => none
  | .name _ => none

/-- The bits of CTDEF's string of `0` and `1` (30_encoding R69). -/
def readBits : List Char → Option (List Bool)
  | [] => some []
  | c :: cs =>
    match readBits cs with
    | none => none
    | some bs => if c = '0' then some (false :: bs) else if c = '1' then some (true :: bs) else none

/-- The bytes of an ASCII string. -/
def asciiBytes : List Char → Option (List Byte)
  | [] => some []
  | c :: cs =>
    match asciiBytes cs with
    | none => none
    | some bs => if c.toNat < 128 then some (BitVec.ofNat 8 c.toNat :: bs) else none

/-- One command with one operand. -/
def one {α : Type} (f : α → Instr) (a : Option α) : Option (List Instr) := a.map (fun x => [f x])

/-- One command with two operands. -/
def two {α β : Type} (f : α → β → Instr) (a : Option α) (b : Option β) : Option (List Instr) :=
  match a, b with
  | some x, some y => some [f x y]
  | _, _ => none

/-- The commands a mnemonic and its operands stand for (30_encoding R68, R69); none: not a line of the written form. -/
def lineCommands (mn : String) (ops : List AsmOperand) : Option (List Instr) :=
  match ops with
  | [] =>
    if mn = "" then some []
    else (([("SRESET", .sreset), ("CTCLR", .ctclr), ("TCLR", .tclr), ("PCLR", .pclr), ("PFLUSH", .pflush),
      ("DSTART", .dstart), ("UBIT", .ubit), ("DSTEP", .dstep), ("DRUN", .drun)] : List (String × Instr)).lookup mn).map
        (fun i => [i])
  | [a] =>
    if mn = "RDREG" then one .rdreg a.reg
    else if mn = "TINT" then one .tint (a.val 9)
    else if mn = "TSNGL" then one .tsngl (a.val 9)
    else if mn = "TROOT" then one .troot (a.val 9)
    else if mn = "TRD" then one .trd (a.val 9)
    else if mn = "ESYM" then one .esym (a.val 8)
    else if mn = "PAYW" then one .payw (a.val 8)
    else if mn = "PAYR" then one .payr (a.val 24)
    else if mn = "OUTR" then one .outr (a.val 24)
    else if mn = "DSET64" then (a.val 64).map dset64
    else if mn = "ESTR" then
      match a with
      | .str cs => (asciiBytes cs).map estr
      | .num _ => none
      | .name _ => none
    else none
  | [a, b] =>
    if mn = "CTLEN" then two .ctlen (a.val 8) (b.val 8)
    else if mn = "CTRD" then two .ctrd (a.val 8) (b.val 8)
    else if mn = "TLEAF" then two .tleaf (a.val 9) (b.val 8)
    else if mn = "TLEFT" then two .tleft (a.val 9) (b.val 9)
    else if mn = "TRIGHT" then two .tright (a.val 9) (b.val 9)
    else if mn = "PBITS" then two .pbits a.bitCount (b.val 16)
    else if mn = "DCNT" then two .dcnt (a.val 2) (b.val 16)
    else if mn = "CTDEF" then
      match a.val 8, b with
      | some sym, .str cs =>
        match readBits cs with
        | some bs => if 1 ≤ bs.length ∧ bs.length ≤ Config.maxLen then some (ctdef sym bs) else none
        | none => none
      | _, _ => none
    else none
  | [a, b, c] =>
    if mn = "CTBIT" then
      match a.val 8, b.val 8, c.val 1 with
      | some sym, some idx, some bit => some [.ctbit sym idx (bit.getLsbD 0)]
      | _, _, _ => none
    else none
  | _ => none

/-- The commands of the lines of a text, in order: "one command per line" (30_encoding R68). -/
def assembleLines : List (List Char) → Option (List Instr)
  | [] => some []
  | l :: ls =>
    match readLine l, assembleLines ls with
    | some (mn, ops), some is => (lineCommands mn ops).map (· ++ is)
    | _, _ => none

/-- The commands of a program's text (30_encoding R68). -/
def assembleText (text : String) : Option (List Instr) := assembleLines (splitAtChar '\n' text.toList)

end Sys2Proof.Machine
end

