-- ==== Sys2Proof/Tests/Slice0.lean ====
section
/-! SUPPORT. The model's own tests: ill-formed terms, words written out from 30_encoding and 95_test_vectors B-X, small
one-step tests whose expected results are the vectors of 95_test_vectors, and one witness per statement that has
hypotheses. -/

namespace Sys2Proof.Tests

open Sys2Proof.Machine Sys2Proof.Claims

/-! ## WellFormed: a term each check refuses -/

theorem test_pbits_zero_bits_illFormed : Instr.wellFormed (.pbits 0 0) = false := by decide
theorem test_pbits_seventeen_bits_illFormed : Instr.wellFormed (.pbits 17 0) = false := by decide
theorem test_pbits_bounds_wellFormed : Instr.wellFormed (.pbits 1 0) = true ∧ Instr.wellFormed (.pbits 16 0) = true := by
  decide

/-! ## Decoding: one written-out word per constructor (30_encoding R62 to R64; 95_test_vectors B-X, C) -/

/-- Format Z: opcode in [31:26], all else 0: 0000_01 is SRESET, 0010_00 CTCLR, 0011_00 TCLR, 0110_00 PCLR, 0110_10 PFLUSH,
1010_01 DSTART, 1010_10 UBIT, 1010_11 DSTEP, 1011_00 DRUN. -/
theorem test_decode_format_z :
    decode 0b00000100000000000000000000000000 = .ok .sreset ∧ decode 0b00100000000000000000000000000000 = .ok .ctclr ∧
    decode 0b00110000000000000000000000000000 = .ok .tclr ∧ decode 0b01100000000000000000000000000000 = .ok .pclr ∧
    decode 0b01101000000000000000000000000000 = .ok .pflush ∧ decode 0b10100100000000000000000000000000 = .ok .dstart ∧
    decode 0b10101000000000000000000000000000 = .ok .ubit ∧ decode 0b10101100000000000000000000000000 = .ok .dstep ∧
    decode 0b10110000000000000000000000000000 = .ok .drun := by decide

/-- Format R: `r` in [3:0]. Format S: the byte in [7:0]. Format I: `idx` in [23:0]. -/
theorem test_decode_formats_r_s_i :
    decode 0b00001000000000000000000000001101 = .ok (.rdreg .treeSt) ∧
    decode 0b01110000000000000000000001100001 = .ok (.esym 0x61) ∧
    decode 0b10000000000000000000000001001000 = .ok (.payw 0x48) ∧
    decode 0b10000100000000000000000000000010 = .ok (.payr 2) ∧
    decode 0b10001000100000000000000000001110 = .ok (.outr 0x80000E) := by decide

/-- Formats SL and SB: `sym` in [15:8], `len` or `idx` in [7:0], `b` in [16]. -/
theorem test_decode_formats_sl_sb :
    decode 0b00100100000000000110000100000001 = .ok (.ctlen 0x61 1) ∧
    decode 0b00101100000000001111111111111110 = .ok (.ctrd 0xFF 254) ∧
    decode 0b00101000000000010100001100000010 = .ok (.ctbit 0x43 2 true) ∧
    decode 0b00101000000000000100001100000010 = .ok (.ctbit 0x43 2 false) := by decide

/-- Formats N, NS and NC: `idx` in [8:0], `sym` in [16:9], `child` in [17:9]. -/
theorem test_decode_formats_n_ns_nc :
    decode 0b00111000000000000000000000000100 = .ok (.tint 4) ∧
    decode 0b00111100000000000000000100000001 = .ok (.tsngl 257) ∧
    decode 0b01001000000000000000000000000110 = .ok (.troot 6) ∧
    decode 0b01001100000000000000000000000110 = .ok (.trd 6) ∧
    decode 0b00110100000000011111111000000001 = .ok (.tleaf 1 0xFF) ∧
    decode 0b01000000000000000000011000000100 = .ok (.tleft 4 3) ∧
    decode 0b01000100000000100000111000001000 = .ok (.tright 8 263) := by decide

/-- Format B: `cnt` in [19:16] stands for `cnt + 1` bits, `v` in [15:0]. Format K: `k` in [17:16], `imm` in [15:0]. -/
theorem test_decode_formats_b_k :
    decode 0b01100100000011000001011001110001 = .ok (.pbits 13 0x1671) ∧
    decode 0b01100100000000000000000000000001 = .ok (.pbits 1 1) ∧
    decode 0b01100100000011111011111011101111 = .ok (.pbits 16 0xBEEF) ∧
    decode 0b10100000000000110000000000000001 = .ok (.dcnt 3 1) := by decide

/-- The illegal words of B-X: unused opcodes, and one must-be-zero bit. -/
theorem test_decode_illegal_words :
    decode 0x00000000 = .unknownOpcode 0x00 ∧ decode 0xFFFFFFFF = .unknownOpcode 0x3F ∧
    decode 0x50000000 = .unknownOpcode 0x14 ∧ decode 0x6C000000 = .unknownOpcode 0x1B ∧
    decode 0x04000001 = .mustBeZero .sreset ∧ decode 0x08000010 = .mustBeZero .rdreg ∧
    decode 0x70000100 = .mustBeZero .esym ∧ decode 0x64100000 = .mustBeZero .pbits ∧
    decode 0x86000000 = .mustBeZero .payr ∧ decode 0xA0040000 = .mustBeZero .dcnt := by decide

/-- The encoder gives the words of B-X back. -/
theorem test_encode_words :
    encode (.ctrd 0xFF 254) = 0x2C00FFFE ∧ encode (.ctbit 0x43 2 true) = 0x28014302 ∧ encode (.tleaf 4 0x72) = 0x3400E404 ∧
    encode (.tright 8 7) = 0x44000E08 ∧ encode (.pbits 13 0x1671) = 0x640C1671 ∧ encode (.dcnt 3 1) = 0xA0030001 := by
  decide

/-- Bits as spec/opcode_table.json numbers them; a truncated word is refused where its opcode is cut off. -/
theorem test_decodeTableWord :
    decodeTableWord 32 0x640C1671 = some (.pbits 13 0x1671) ∧ decodeTableWord 32 0x6C000000 = none ∧
    decodeTableWord 32 0x1AC000000 = some .dstep := by decide

/-- The assembler's text (30_encoding R68, R69): a quoted character, a register's name, two pseudo-commands. -/
theorem test_assembler :
    assembleText "CTLEN 'a', 1  ; code" = some [.ctlen 0x61 1] ∧ assembleText "RDREG EBITS_LO" = some [.rdreg .ebitsLo] ∧
    assembleText "DSET64 25" = some [.dcnt 0 25, .dcnt 1 0, .dcnt 2 0, .dcnt 3 0] ∧
    assembleText "CTDEF 'C', \"001\"" = some [.ctlen 0x43 3, .ctbit 0x43 2 true] ∧
    assembleText "PBITS 17, 0" = none := by decide

/-- 47_host_reference R151, R163: the writer's pairs ascend; R164: the reader rejects repeated symbols, a zero count and an
empty table. -/
theorem test_container_table :
    sortTable [(0x62, 1), (0x61, 4), (0x63, 2)] = [(0x61, 4), (0x62, 1), (0x63, 2)] ∧
    structurallyPossible [(0x61, 1), (0x61, 1)] = false ∧ structurallyPossible [(0x62, 1), (0x61, 1)] = false ∧
    structurallyPossible [(0x61, 0)] = false ∧ structurallyPossible [] = false ∧
    structurallyPossible [(0x61, 4), (0x62, 1)] = true := by decide

/-! ## One step on a small state (expected responses: 95_test_vectors B) -/

/-- A block with `PAY_CAP = OUT_CAP = 2`. -/
def base : State := State.resetFor 2 2

/-- A block with `PAY_CAP = OUT_CAP = 1` (B-P4 to B-P6, B-S3). -/
def tiny : State := State.resetFor 1 1

/-- The codes A = "1", B = "01" and their tree but for the path "00": 0 = LEAF A, 1 = LEAF B, 2 = INTERNAL(NULL, 1),
3 = INTERNAL(2, 0), ROOT = CUR = 3; `c` names the byte of PAY, `n` the bits of it that count. -/
def loaded (c : Byte) (n : Count) : State :=
  { base with
    ct := [(0x41, ⟨1, 1⟩), (0x42, ⟨2, 2⟩)]
    tn := [(0, ⟨.leaf, 0x41, .null, .null⟩), (1, ⟨.leaf, 0x42, .null, .null⟩), (2, ⟨.internal, 0, .null, .node 1⟩),
      (3, ⟨.internal, 0, .node 2, .node 0⟩)]
    root := .node 3
    cur := .node 3
    pay := base.pay.write 0 c
    payLen := 1
    dbits := n }

/-- The one-symbol tree of P1 (TN[0] = LEAF a, TN[1] = SINGLE(left = 0)), the cursor at its root. -/
def single (c : Byte) (n : Count) : State :=
  { loaded c n with tn := [(0, ⟨.leaf, 0x61, .null, .null⟩), (1, ⟨.single, 0, .node 0, .null⟩)], root := .node 1, cur := .node 1 }

/-- A block in the fault state with BAD_INDEX(1). -/
def faulted : State := { base with err := 7, einfo := 1 }

/-- The response to a word presented next. -/
def response (w : Nat) (s : State) : Option Response :=
  match step (s.withFetchWord 32 w) with
  | .next t => t.rsp
  | .fault _ => none
  | .refused _ => none

/-- The state after a word presented next. -/
def after (w : Nat) (s : State) : State :=
  match step (s.withFetchWord 32 w) with
  | .next t => t
  | .fault _ => s
  | .refused _ => s

def isOk (d : Word) : Option Response := some ⟨.ok, d⟩
def isFault (d : Word) : Option Response := some ⟨.fault, d⟩

/-- B-S1: STATUS and the capacities read at reset. -/
theorem test_rdreg_reset :
    response 0x08000000 State.reset = isOk 0x300 ∧ response 0x0800000E State.reset = isOk 0x40 ∧
    response 0x0800000F State.reset = isOk 0x40 := by decide

/-- B-P4's register 12 (NB 7, ACC 0xFE), and register 13 with CUR at node 4 and ROOT at node 6 (B-D5). -/
theorem test_rdreg_fields :
    response 0x0800000C { base with acc := 0xFE, nb := 7 } = isOk 0x7FE ∧
    response 0x0800000D { base with root := .node 6, cur := .node 4 } = isOk 0x02040206 := by decide

/-- B-S4: SRESET leaves the fault state; STATUS then reads 0x300. -/
theorem test_sreset : response 0x04000000 faulted = isOk 0 ∧ response 0x08000000 (after 0x04000000 faulted) = isOk 0x300 := by
  decide

/-- B-S4: in the fault state a command is refused, an illegal word too, and RDREG 1 answers. -/
theorem test_fault_state :
    response 0x88000000 faulted = some ⟨.refused, 0⟩ ∧ response 0x04000001 faulted = some ⟨.refused, 0⟩ ∧
    response 0x08000001 faulted = isOk 1 := by decide

/-- B-X: an illegal word raises ILLEGAL_COMMAND with the word. -/
theorem test_illegal_word :
    response 0x04000001 base = isFault 6 ∧ (after 0x04000001 base).einfo = 0x04000001 ∧ (after 0x04000001 base).err = 6 := by
  decide

/-- B-C7: CTCLR empties CT and leaves TN. -/
theorem test_ctclr :
    response 0x2C004100 (after 0x20000000 (loaded 0 0)) = isOk 0 ∧ (after 0x20000000 (loaded 0 0)).root = .node 3 := by decide

/-- B-C2: CTLEN clears the bits written before. -/
theorem test_ctlen : response 0x2C004100 (after 0x24004102 (loaded 0 0)) = isOk 2 := by decide

/-- B-C1: CTBIT 0xFF, 254, 1, then CTRD of that bit and of its neighbour (the length here is 0). -/
theorem test_ctbit_ctrd :
    response 0x2C00FFFE (after 0x2801FFFE base) = isOk 0x100 ∧ response 0x2C00FFFF (after 0x2801FFFE base) = isOk 0 := by
  decide

/-- B-C3: CTRD of a 2-bit code "01" at its second bit. -/
theorem test_ctrd : response 0x2C004201 (loaded 0 0) = isOk 0x102 := by decide

/-- B-D15: TCLR keeps CUR: register 13 then reads 0x02010000. -/
theorem test_tclr : response 0x0800000D (after 0x30000000 (single 0 0)) = isOk 0x02010000 := by decide

/-- B-C4: TRD of a leaf of 0x41: kind 1, sym 0x41. -/
theorem test_tleaf : response 0x4C000000 (after 0x34008200 base) = isOk 0x105 := by decide

/-- B-C5: a child of an INVALID node is stored; TINT then empties both children. -/
theorem test_tleft_tint :
    response 0x4C000005 (after 0x40000405 base) = isOk 0x00080800 ∧
    response 0x4C000005 (after 0x38000005 (after 0x40000405 base)) = isOk 2 := by decide

/-- B-C6: TSNGL, TLEFT and TRIGHT on one node. -/
theorem test_tsngl_tright :
    response 0x4C000002 (after 0x44000202 (after 0x40000002 (after 0x3C000002 base))) = isOk 0x20180003 := by decide

/-- P1: TROOT 1; register 13 reads ROOT = 0x201, CUR NULL. -/
theorem test_troot : response 0x0800000D (after 0x48000001 base) = isOk 0x201 := by decide

/-- B-C4: TRD of an internal node with both children (here 3: left 2, right 0). -/
theorem test_trd : response 0x4C000003 (loaded 0 0) = isOk 0x20080802 := by decide

/-- B-P1: PBITS 13, 0x1671 leaves PACKST 0x588 and the byte B3. -/
theorem test_pbits :
    response 0x0800000C (after 0x640C1671 base) = isOk 0x588 ∧ response 0x84000000 (after 0x640C1671 base) = isOk 0xB3 := by
  decide

/-- B-P4: BUFFER_FULL before the first bit, nothing written. -/
theorem test_pbits_full :
    response 0x640801FF { tiny with acc := 0xFE, nb := 7, ebits := 7 } = isFault 5 ∧
    (after 0x640801FF { tiny with acc := 0xFE, nb := 7, ebits := 7 }).payLen = 0 := by decide

/-- B-P7: PCLR makes the bytes unreadable. -/
theorem test_pclr : response 0x84000000 (after 0x60000000 (loaded 0xB3 0)) = isFault 7 := by decide

/-- B-P1: PFLUSH appends the partial byte 88; B-P2: with NB = 0 it appends nothing. -/
theorem test_pflush :
    response 0x84000001 (after 0x68000000 { loaded 0xB3 0 with acc := 0x88, nb := 5, ebits := 13 }) = isOk 0x88 ∧
    response 0x0800000A (after 0x68000000 (loaded 0xA5 0)) = isOk 1 := by decide

/-- B-E1: a lookup miss; P2's table: ESYM B answers the length 2 and leaves NB 2, ACC 0x40. -/
theorem test_esym :
    response 0x70000062 (loaded 0 0) = isFault 1 ∧ response 0x70000042 (loaded 0 0) = isOk 2 ∧
    response 0x0800000C (after 0x70000042 (loaded 0 0)) = isOk 0x240 := by decide

/-- B-S2: PAYW, then PAYR in and past the end. -/
theorem test_payw_payr :
    response 0x84000000 (after 0x800000AB base) = isOk 0xAB ∧ response 0x84000001 (after 0x800000AB base) = isFault 7 := by
  decide

/-- B-S3: PAYW into a full buffer. -/
theorem test_payw_full : response 0x80000022 (after 0x80000011 tiny) = isFault 5 := by decide

/-- P1: OUTR of an emitted byte; past the end BAD_INDEX. -/
theorem test_outr :
    response 0x88000000 (after 0xAC000000 (single 0 4)) = isOk 0x61 ∧
    response 0x88000001 (after 0xAC000000 (single 0 4)) = isFault 7 := by decide

/-- B-U2: the slices of TBCIN. -/
theorem test_dcnt :
    (after 0xA003DEF0 (after 0xA0029ABC (after 0xA0015678 (after 0xA0001234 base)))).tbcin = 0xDEF09ABC56781234 := by decide

/-- P1: DSTART latches TBCIN and ROOT and empties OUT. -/
theorem test_dstart :
    (after 0xA4000000 { single 0 0 with tbcin := 4, cur := .null, out := [(0, 7)], outLen := 1 }) =
      { single 0 4 with tbcin := 4, rsp := isOk 0 } := by decide

/-- B-U1: the first bit of B3 is 1, the second 0; B-U4: END on a fresh block; B-U2: PAYLOAD_SHORT without a payload. -/
theorem test_ubit :
    response 0xA8000000 (loaded 0xB3 13) = isOk 1 ∧ response 0xA8000000 { loaded 0xB3 13 with dpos := 1 } = isOk 0 ∧
    response 0xA8000000 base = some ⟨.ended, 0⟩ ∧ response 0xA8000000 { base with dbits := 13 } = isFault 4 := by decide

/-- B-D1: PAY = 48, bits 0 1: first no symbol, then B (0x142). -/
theorem test_dstep :
    response 0xAC000000 (loaded 0x48 5) = isOk 0 ∧ response 0xAC000000 (after 0xAC000000 (loaded 0x48 5)) = isOk 0x142 := by
  decide

/-- B-D5: the count ends inside a code: TAIL with the bit consumed and the cursor moved. B-D4: no child on a 1 bit. -/
theorem test_dstep_faults :
    response 0xAC000000 (loaded 0x00 1) = isFault 3 ∧ (after 0xAC000000 (loaded 0x00 1)).dpos = 1 ∧
    (after 0xAC000000 (loaded 0x00 1)).cur = .node 2 ∧ response 0xAC000000 (single 0x80 4) = isFault 2 := by decide

/-- B-D8: two symbols fit, the third raises BUFFER_FULL with EINFO 1 and DPOS 2. -/
theorem test_drun_full :
    response 0xB0000000 (single 0 4) = isFault 5 ∧ (after 0xB0000000 (single 0 4)).einfo = 1 ∧
    (after 0xB0000000 (single 0 4)).dpos = 2 := by decide

/-- P1 with two bits: DRUN answers OUTLEN; B-U4: 0 on a fresh block. -/
theorem test_drun :
    response 0xB0000000 (single 0 2) = isOk 2 ∧ outputBytes (after 0xB0000000 (single 0 2)) = [0x61, 0x61] ∧
    response 0xB0000000 base = isOk 0 := by decide

/-- H1: the host's codes and tree of "aaaa"; H2: of A:8, B:4, C:2, D:1. -/
theorem test_host_tables :
    (build (analyze [0x61, 0x61, 0x61, 0x61])).map generate = some [(0x61, [false])] ∧
    (build [(0x41, 8), (0x42, 4), (0x43, 2), (0x44, 1)]).map generate =
      some [(0x44, [false, false, false]), (0x43, [false, false, true]), (0x42, [false, true]), (0x41, [true])] := by
  decide

/-- H4: "hello world" is no container. -/
theorem test_hello_world_no_container :
    looksLikeContainer [0x68, 0x65, 0x6C, 0x6C, 0x6F, 0x20, 0x77, 0x6F, 0x72, 0x6C, 0x64] = false := by decide

/-! ## Witnesses: for each statement with hypotheses, states and operands that meet all of them; one per clause -/

theorem base_inv : base.Inv := State.Inv.of_resetFor (by decide) (by decide)
theorem tiny_inv : tiny.Inv := State.Inv.of_resetFor (by decide) (by decide)

/-- The states below meet the invariant, in the fault state too. -/
theorem states_inv : (loaded 0x48 5).Inv ∧ (loaded 0x48 8).Inv ∧ (loaded 0x00 1).Inv ∧ (loaded 0x00 2).Inv ∧ (single 0x00 2).Inv ∧
    (single 0x80 2).Inv ∧ faulted.Inv := by
  refine ⟨?_, ?_, ?_, ?_, ?_, ?_, ?_⟩ <;> constructor <;> decide

/-- A state with words at the port. -/
def withInputs (is : List Input) (s : State) : State := { s with inputs := is }

theorem witness_StepRunsDecodedCommand :
    (withInputs [.command 0x640C1671] base).inputs = .command 0x640C1671 :: [] ∧ decode 0x640C1671 = .ok (.pbits 13 0x1671) := by
  decide

theorem witness_IllegalWordsFault :
    (Illegal 0x0C000000 ∧ Illegal 0xB4000000 ∧ Illegal 0x04000001 ∧ Illegal 0x26000000) ∧
    (∃ s : State, s.inputs = .command 0x0C000000 :: [] ∧ s.err = 0) ∧
    (∃ s : State, s.inputs = .command 0x0C000000 :: [] ∧ s.err ≠ 0) := by
  refine ⟨⟨.inl ?_, .inl ?_, .inr ⟨.sreset, by decide⟩, .inr ⟨.ctlen, by decide⟩⟩,
    ⟨withInputs [.command 0x0C000000] base, by decide⟩, ⟨withInputs [.command 0x0C000000] faulted, by decide⟩⟩ <;>
  unfold unusedOpcode <;> decide

theorem witness_HardwareResetAndWaiting :
    (withInputs [.reset none] faulted).inputs = .reset none :: [] ∧
    (withInputs [.reset (some 0xB0000000)] base).inputs = .reset (some 0xB0000000) :: [] ∧ base.inputs = [] := by decide

theorem witness_DecodeEncodeRoundTrip :
    Instr.wellFormed (.pbits 1 0xFFFF) = true ∧ Instr.wellFormed (.pbits 16 0) = true ∧
    Instr.wellFormed (.payr 0xFFFFFF) = true := by decide

theorem witness_DecodedWordReencodes : decode 0x640F0000 = .ok (.pbits 16 0) ∧ decode 0x04000000 = .ok .sreset := by decide

theorem witness_DecodeFollowsCommandTable :
    (.sreset, 0x04000000, 0xFFFFFFFF) ∈ commandTable ∧ (.drun, 0xB0000000, 0xFFFFFFFF) ∈ commandTable ∧
    (∀ r ∈ commandTable, (0xB0000001 : Word) &&& r.2.2 ≠ r.2.1) := by decide

theorem witness_ResetStateValues :
    let s := { base with payLen := 1, dbits := 1 }
    s.err = 0 ∧ s.tn = [] ∧ s.root = .null ∧ s.cur = .null ∧ CursorBitThere s := by
  refine ⟨rfl, rfl, rfl, rfl, ?_⟩
  unfold CursorBitThere
  decide

theorem witness_ResetMeetsInvariant :
    (1 ≤ (1 : BitVec 25).toNat ∧ (1 : BitVec 25).toNat ≤ 16777216) ∧
    (1 ≤ (16777216 : BitVec 25).toNat ∧ (16777216 : BitVec 25).toNat ≤ 16777216) := by decide

theorem witness_StepKeepsInvariant :
    (withInputs [.command 0xAC000000] (loaded 0x48 5)).Inv ∧
    ∃ t, step (withInputs [.command 0xAC000000] (loaded 0x48 5)) = .next t ∧ t.dpos = 1 :=
  ⟨states_inv.1.of_inputs _, _, rfl, rfl⟩

theorem witness_EveryCommandIsAnswered : (withInputs [.command 0, .command 1] base).inputs = .command 0 :: [.command 1] := by
  decide

theorem witness_FirstFaultIsKept :
    faulted.err ≠ 0 ∧ decode 0x88000000 ≠ .ok .sreset ∧
    ∃ t, step (withInputs [.command 0x88000000] faulted) = .next t ∧ t.err = 7 := ⟨by decide, by decide, _, rfl, rfl⟩

theorem witness_FaultStateRefuses :
    faulted.err ≠ 0 ∧ (withInputs [.command 0x08000001] faulted).inputs = .command 0x08000001 :: [] ∧
    decode 0x08000001 = .ok (.rdreg .einfo) ∧ decode 0x04000000 = .ok .sreset ∧
    decode 0xA4000000 ≠ .ok .sreset ∧ (∀ r, decode 0xA4000000 ≠ .ok (.rdreg r)) ∧
    decode 0x00000000 ≠ .ok .sreset ∧ (∀ r, decode 0x00000000 ≠ .ok (.rdreg r)) := by
  refine ⟨by decide, by decide, by decide, by decide, by decide, fun r => ?_, by decide, fun r => ?_⟩ <;>
  cases r <;> decide

theorem witness_FaultStateLeftByResetOnly :
    faulted.err ≠ 0 ∧ (∃ t, step (withInputs [.command 0x04000000] faulted) = .next t ∧ t.err = 0) ∧
    (∃ t, step (withInputs [.reset none] faulted) = .next t ∧ t.err = 0) :=
  ⟨by decide, ⟨_, rfl, rfl⟩, ⟨_, rfl, rfl⟩⟩

theorem witness_FaultsArePrecise :
    (∃ t, Instr.payr 0 ≠ .drun ∧ exec (.payr 0) base = .next t ∧ t.err ≠ 0 ∧ t.err ≠ 3) ∧
    (∃ t, Instr.dstep ≠ .drun ∧ exec .dstep (loaded 0x00 1) = .next t ∧ t.err = 3) :=
  ⟨⟨_, by decide, rfl, by decide, by decide⟩, ⟨_, by decide, rfl, by decide⟩⟩

/-- Every code but ILLEGAL_COMMAND's, by a command; each BUFFER_FULL's command; PAYR and OUTR at the first index refused. -/
theorem witness_FaultCausesAndInformation :
    (∃ t, exec (.esym 0x43) (loaded 0 0) = .next t ∧ t.err = 1) ∧
    (∃ t, exec .drun (loaded 0x00 2) = .next t ∧ t.err = 2) ∧
    (∃ t, exec .dstep (single 0x80 2) = .next t ∧ t.err = 2) ∧
    (∃ t, exec .drun (loaded 0x00 1) = .next t ∧ t.err = 3) ∧ (∃ t, exec .ubit { base with dbits := 1 } = .next t ∧ t.err = 4) ∧
    (∃ t, exec (.pbits 1 0) { tiny with payLen := 1, nb := 7 } = .next t ∧ t.err = 5) ∧
    (∃ t, exec .pflush { tiny with payLen := 1, nb := 1 } = .next t ∧ t.err = 5) ∧
    (∃ t, exec (.payw 0) { tiny with payLen := 1 } = .next t ∧ t.err = 5) ∧
    (∃ t, exec (.esym 0x41) { loaded 0 0 with payCap := 1, nb := 7 } = .next t ∧ t.err = 5) ∧
    (∃ t, exec .drun (single 0x00 4) = .next t ∧ t.err = 5 ∧ t.einfo = 1) ∧
    (∃ t, exec (.payr 1) (loaded 0 0) = .next t ∧ t.err = 7) ∧ (∃ t, exec (.outr 0) (loaded 0 0) = .next t ∧ t.err = 7) := by
  refine ⟨⟨_, rfl, ?_⟩, ⟨_, rfl, ?_⟩, ⟨_, rfl, ?_⟩, ⟨_, rfl, ?_⟩, ⟨_, rfl, ?_⟩, ⟨_, rfl, ?_⟩, ⟨_, rfl, ?_⟩, ⟨_, rfl, ?_⟩,
    ⟨_, rfl, ?_⟩, ⟨_, rfl, ?_⟩, ⟨_, rfl, ?_⟩, ⟨_, rfl, ?_⟩⟩ <;> decide

theorem witness_CommandsThatNeverFault :
    neverFaults (.trd 0) = true ∧ (∃ t, exec (.trd 0) base = .next t ∧ base.err = 0) ∧
    (∃ t, exec (.trd 0) faulted = .next t ∧ faulted.err ≠ 0) := ⟨rfl, ⟨_, rfl, rfl⟩, ⟨_, rfl, by decide⟩⟩

theorem witness_ErrorLineRisesWithFault :
    (∃ t, step (withInputs [.command 0x84000000] base) = .next t ∧ t.rsp = isFault 7) ∧
    (∃ t, step (withInputs [.command 0x80000000] base) = .next t ∧ t.rsp = isOk 0) := ⟨⟨_, rfl, rfl⟩, ⟨_, rfl, rfl⟩⟩

theorem witness_CodeTableIsReadOnly :
    writesCt (.esym 0x41) = false ∧ (∃ t, exec (.esym 0x41) (loaded 0 0) = .next t) ∧
    (∃ t, step (withInputs [.command 0x20000000] (loaded 0 0)) = .next t ∧ t.ct ≠ (loaded 0 0).ct) :=
  ⟨rfl, ⟨_, rfl⟩, ⟨_, rfl, by decide⟩⟩

theorem witness_TreeIsReadOnly :
    writesTree .dstep = false ∧ (∃ t, exec .dstep (loaded 0x48 5) = .next t) ∧
    (∃ t, step (withInputs [.command 0x30000000] (loaded 0 0)) = .next t ∧ t.root ≠ (loaded 0 0).root) :=
  ⟨rfl, ⟨_, rfl⟩, ⟨_, rfl, by decide⟩⟩

theorem witness_BuffersAreAppendOnly :
    (loaded 0x48 5).Inv ∧ (∃ t, exec (.payw 1) (loaded 0x48 5) = .next t ∧ t.payLen = 2) ∧
    Instr.payw 1 ≠ .pclr ∧ Instr.payw 1 ≠ .sreset ∧ Instr.payw 1 ≠ .dstart :=
  ⟨states_inv.1, ⟨_, rfl, rfl⟩, by decide, by decide, by decide⟩

/-- The hypotheses of CtclrEmptiesTable, CtlenOpensEntry, CtbitWritesOneBit, CtrdReadsEntry, TclrEmptiesTree,
NodeCommandsWriteNode, ChildCommandsWritePointer, TrootSetsRoot and TrdReadsNode. -/
theorem witness_loads : (loaded 0x48 5).canonical = true ∧ (loaded 0x48 5).err = 0 := by decide

theorem witness_NodeCommandsWriteNode :
    (Instr.tleaf 511 0xFF = .tleaf 511 0xFF) ∧ (⟨.leaf, 0xFF, .null, .null⟩ : Node) ≠ Node.empty ∧
    (Instr.tint 0 = .tint 0) ∧ (Instr.tsngl 0 = .tsngl 0) := by decide

theorem witness_PushBitAppendsOneBit :
    (base.canonical = true ∧ base.payLen.toNat + (base.nb.toNat + 1) / 8 < 33554432 ∧ AccPad base) ∧
    (∃ t, exec .pclr base = .next t ∧ base.err = 0) ∧
    (∃ t, exec (.pbits 16 0xFFFF) base = .next t ∧ Tracks base) ∧ (∃ t, exec (.esym 0) base = .next t ∧ Tracks base) := by
  refine ⟨⟨by decide, by decide, base_inv.accPad⟩, ⟨_, rfl, rfl⟩, ⟨_, rfl, ?_⟩, ⟨_, rfl, ?_⟩⟩ <;> unfold Tracks <;> decide

/-- Exactly full, and one bit more. -/
theorem witness_PbitsPushesBits :
    Instr.wellFormed (.pbits 16 0) = true ∧ tiny.canonical = true ∧ tiny.err = 0 ∧
    tiny.payLen.toNat + (tiny.nb.toNat + (15 : BitVec 5).toNat) / 8 ≤ tiny.payCap.toNat ∧
    tiny.payCap.toNat < tiny.payLen.toNat + (tiny.nb.toNat + (16 : BitVec 5).toNat) / 8 := by decide

theorem witness_PclrEmptiesPacker : (loaded 0x48 5).err = 0 ∧ (loaded 0x48 5).dpos.toNat < (loaded 0x48 5).dbits.toNat := by
  decide

theorem witness_PflushPadsAndAppends :
    (tiny.Inv ∧ tiny.err = 0 ∧ tiny.nb = 0 ∧ Tracks tiny) ∧
    (∃ s : State, s.Inv ∧ s.err = 0 ∧ s.nb ≠ 0 ∧ s.payLen = s.payCap) ∧
    (∃ s : State, s.Inv ∧ s.err = 0 ∧ s.nb ≠ 0 ∧ s.payLen ≠ s.payCap ∧ Tracks s) := by
  refine ⟨⟨tiny_inv, rfl, rfl, ?_⟩, ⟨{ tiny with payLen := 1, nb := 1 }, ?_, by decide⟩,
    ⟨{ tiny with acc := 0x80, nb := 1, ebits := 1 }, ?_, by decide, by decide, by decide, ?_⟩⟩
  · unfold Tracks; decide
  · constructor <;> decide
  · constructor <;> decide
  · unfold Tracks; decide

/-- No code; a code for which there is no room, by one bit; a code that fits exactly. -/
theorem witness_EsymAppendsCode :
    (loaded 0 0).canonical = true ∧ (loaded 0 0).err = 0 ∧ (ctEntry (loaded 0 0) 0x43).len = 0 ∧
    (ctEntry (loaded 0 0) 0x42).len ≠ 0 ∧
    (let s := { loaded 0 0 with payCap := 1, nb := 6 }
     s.payCap.toNat < s.payLen.toNat + (s.nb.toNat + (ctEntry s 0x42).len.toNat) / 8) ∧
    (let s := { loaded 0 0 with payCap := 1, nb := 5 }
     s.payLen.toNat + (s.nb.toNat + (ctEntry s 0x42).len.toNat) / 8 ≤ s.payCap.toNat) := by decide

theorem witness_EsymSequenceConcatenates :
    let s := { loaded 0 0 with pay := [], payLen := 0 }
    s.canonical = true ∧ s.err = 0 ∧ s.payLen = 0 ∧ s.nb = 0 ∧ s.ebits = 0 ∧
    ∃ t, runAll (estr [0x41, 0x42, 0x41]) s = .next t ∧ t.err = 0 :=
  ⟨by decide, rfl, rfl, rfl, rfl, _, rfl, rfl⟩

theorem witness_DcntWritesSlice : base.err = 0 := rfl

theorem witness_DstartBeginsDecode : (loaded 0x48 5).err = 0 ∧ (loaded 0x48 5).tbcin = 0 := by decide

/-- At the end; the byte missing; the last bit there. -/
theorem witness_UbitReadsNextBit :
    (base.err = 0 ∧ base.dbits.toNat ≤ base.dpos.toNat) ∧
    (let s := { loaded 0 9 with dpos := 8 }
     s.err = 0 ∧ s.dpos.toNat < s.dbits.toNat ∧ s.payLen.toNat ≤ s.dpos.toNat / 8) ∧
    (let s := { loaded 0 8 with dpos := 7 }
     s.err = 0 ∧ CursorBitThere s) := by
  refine ⟨by decide, by decide, rfl, ?_⟩
  unfold CursorBitThere
  decide

theorem witness_UbitReadsExactlyTheCount :
    (loaded 0xB3 8).err = 0 ∧ (loaded 0xB3 8).dpos = 0 ∧ (loaded 0xB3 8).dbits.toNat ≤ 8 * (loaded 0xB3 8).payLen.toNat ∧
    7 < (loaded 0xB3 8).dbits.toNat ∧ (loaded 0xB3 8).dbits.toNat ≤ 8 := by decide

/-- The five bits of 0x48 that count are those of 0x4F. -/
theorem witness_PadBitsAreIgnored :
    let s := loaded 0x48 5
    let s' := loaded 0x4F 5
    s' = { s with pay := s'.pay, payLen := s'.payLen } ∧ s.pay ≠ s'.pay ∧ s.dbits.toNat ≤ 8 * s.payLen.toNat ∧
    s.dbits.toNat ≤ 8 * s'.payLen.toNat ∧ (∀ p, p < s.dbits.toNat → payBit s' p = payBit s p) ∧
    ∃ t, exec .dstep s = .next t := by
  refine ⟨rfl, by decide, by decide, by decide, by decide, _, rfl⟩

/-- A cursor on each kind of node, and NULL. -/
theorem witness_ChildOfCursor :
    base.cur = .null ∧ ((loaded 0 0).cur = .node 3 ∧ (tnNode (loaded 0 0) 3).kind = .internal) ∧
    ((single 0 0).cur = .node 1 ∧ (tnNode (single 0 0) 1).kind = .single) ∧
    (tnNode { single 0 0 with cur := .node 0 } 0).kind = .leaf ∧ (tnNode { single 0 0 with cur := .node 5 } 5).kind = .invalid := by
  decide

/-- Every line of DSTEP: END; PAYLOAD_SHORT; no child; an INVALID child; a leaf with OUT full and with room; a move that
raises TAIL; a move that does not, before the end and, at the end, to the root. -/
theorem witness_DstepMovesOneBit :
    (loaded 0x48 5).Inv ∧ (loaded 0x48 5).err = 0 ∧ base.dbits.toNat ≤ base.dpos.toNat ∧
    (let s := { base with dbits := 1 }
     s.dpos.toNat < s.dbits.toNat ∧ s.payLen.toNat ≤ s.dpos.toNat / 8) ∧
    ((single 0x80 2).dpos.toNat < (single 0x80 2).dbits.toNat ∧ (single 0x80 2).dpos.toNat / 8 < (single 0x80 2).payLen.toNat ∧
      child (single 0x80 2) (cursorBit (single 0x80 2)) = .null) ∧
    (let s := { single 0x00 2 with tn := [(1, ⟨.single, 0, .node 5, .null⟩)] }
     child s (cursorBit s) = .node 5 ∧ (tnNode s 5).kind = .invalid) ∧
    (child (single 0x00 2) (cursorBit (single 0x00 2)) = .node 0 ∧ (tnNode (single 0x00 2) 0).kind = .leaf ∧
      (single 0x00 2).outLen ≠ (single 0x00 2).outCap ∧
      { single 0x00 2 with outLen := 2 }.outLen = { single 0x00 2 with outLen := 2 }.outCap) ∧
    (child (loaded 0x00 1) (cursorBit (loaded 0x00 1)) = .node 2 ∧ (tnNode (loaded 0x00 1) 2).kind = .internal ∧
      (loaded 0x00 1).dpos.toNat + 1 = (loaded 0x00 1).dbits.toNat ∧ (loaded 0x00 1).root ≠ .node 2) ∧
    ((loaded 0x00 2).dpos.toNat + 1 ≠ (loaded 0x00 2).dbits.toNat) ∧
    (let s := { base with tn := [(0, ⟨.internal, 0, .node 0, .node 0⟩)], root := .node 0, cur := .node 0, payLen := 1, dbits := 1 }
     child s (cursorBit s) = .node 0 ∧ (tnNode s 0).kind = .internal ∧ s.dpos.toNat + 1 = s.dbits.toNat ∧ s.root = .node 0) :=
  ⟨states_inv.1, by decide⟩

theorem witness_DstepNeverRestsOnLeaf : ∃ t, exec .dstep (loaded 0x48 5) = .next t ∧ t.cur = .node 2 := ⟨_, rfl, rfl⟩

/-- Both ends of DRUN: a fault after one DSTEP, and two DSTEP to the end. -/
theorem witness_DrunIteratesDstep :
    (single 0x80 2).err = 0 ∧ (∃ u, runAll [.dstep] (single 0x80 2) = .next u ∧ exec .drun (single 0x80 2) = .next u) ∧
    (∃ u, runAll [.dstep, .dstep] (single 0x00 2) = .next u ∧ u.dbits.toNat ≤ u.dpos.toNat) :=
  ⟨rfl, ⟨_, rfl, rfl⟩, ⟨_, rfl, by decide⟩⟩

theorem witness_ZeroBitsDecodeToNothing : base.err = 0 ∧ base.tbcin = 0 := by decide

theorem witness_SingleSymbolTreeDecodes :
    ((single 0x80 2).Inv ∧ (tnNode (single 0x80 2) 0).kind = .leaf ∧ (tnNode (single 0x80 2) 0).sym = 0x61 ∧
      (tnNode (single 0x80 2) 1).kind = .single ∧ (tnNode (single 0x80 2) 1).left = .node 0 ∧
      (single 0x80 2).root = .node 1 ∧ (single 0x80 2).cur = (single 0x80 2).root ∧
      CursorBitThere (single 0x80 2) ∧ cursorBit (single 0x80 2) = true) ∧
    ((single 0x00 2).Inv ∧ CursorBitThere (single 0x00 2) ∧ cursorBit (single 0x00 2) = false ∧
      (single 0x00 2).outLen ≠ (single 0x00 2).outCap ∧ (single 0x00 2).dpos = 0 ∧ (single 0x00 2).outLen = 0 ∧
      (single 0x00 2).dbits.toNat ≤ 8 * (single 0x00 2).payLen.toNat ∧
      (single 0x00 2).dbits.toNat ≤ (single 0x00 2).outCap.toNat ∧
      (∀ p, p < (single 0x00 2).dbits.toNat → payBit (single 0x00 2) p = false)) := by
  obtain ⟨-, -, -, -, h, h', -⟩ := states_inv
  refine ⟨⟨h', ?_⟩, ⟨h, ?_⟩⟩ <;> unfold CursorBitThere <;> decide

/-- The codes "1" and "01" are paths of the loaded tree; the two symbols fit. -/
theorem witness_EncodeThenDecodeRoundTrips :
    (loaded 0x48 5).Inv ∧ (loaded 0x48 5).err = 0 ∧ codesArePaths (loaded 0x48 5) ∧
    (∀ b ∈ [(0x41 : Byte), 0x42], (ctEntry (loaded 0x48 5) b).len ≠ 0) ∧
    (([(0x41 : Byte), 0x42].map (fun b => (ctEntry (loaded 0x48 5) b).len.toNat)).sum + 7) / 8 ≤ (loaded 0x48 5).payCap.toNat ∧
    [(0x41 : Byte), 0x42].length ≤ (loaded 0x48 5).outCap.toNat := by
  refine ⟨states_inv.1, rfl, fun sym hs => ?_, by decide, by decide, by decide⟩
  by_cases hA : sym = 0x41
  · subst hA; exact ⟨0, by decide⟩
  by_cases hB : sym = 0x42
  · subst hB; exact ⟨1, by decide⟩
  refine absurd ?_ hs
  have h1 : (65 : Nat) ≠ sym.toNat := fun h => hA (BitVec.eq_of_toNat_eq h.symm)
  have h2 : (66 : Nat) ≠ sym.toNat := fun h => hB (BitVec.eq_of_toNat_eq h.symm)
  show (Cells.read CodeEntry.empty [(65, _), (66, _)] sym.toNat).len = 0
  simp [Cells.read, h1, h2, CodeEntry.empty]

/-- Neither the reset state nor a bare PCLR finishes a session: a session is finished by its own last response (R203). -/
theorem witness_DecodeSessionEndsAtRoot :
    ((single 0x00 2).Inv ∧ (single 0x00 2).err = 0 ∧ (single 0x00 2).dpos ≠ (single 0x00 2).dbits ∧
      (∃ t, exec .drun (single 0x00 2) = .next t ∧ t.rsp = isOk 2) ∧ base.cur = base.root) ∧
    (∃ t, encodeFinished [0x41, 0x42] (loaded 0 0) t) ∧
    (∃ t, decodeFinished 2 .drun (single 0x00 0) t) ∧ (∃ t, decodeFinished 2 .dstep (single 0x00 0) t) ∧
    (∃ t, decodeByStepsOnBlock [(0x61, 1)] (.single 0x61 1) 1 [0] base = .got [0x61] t) :=
  ⟨⟨states_inv.2.2.2.2.1, rfl, by decide, ⟨_, rfl, by decide⟩, rfl⟩, ⟨_, rfl, _, rfl⟩,
    ⟨_, ⟨0, rfl⟩, .inl ⟨rfl, _, rfl⟩⟩, ⟨_, ⟨2, rfl⟩, .inr ⟨rfl, _, rfl⟩⟩, ⟨_, rfl⟩⟩

theorem witness_PaywAppendsByte :
    (tiny.Inv ∧ tiny.err = 0 ∧ tiny.payLen ≠ tiny.payCap) ∧ (∃ s : State, s.Inv ∧ s.err = 0 ∧ s.payLen = s.payCap) := by
  refine ⟨⟨tiny_inv, by decide⟩, { tiny with payLen := 1 }, ?_, by decide⟩
  constructor <;> decide

theorem witness_LoadedPayloadIsThere : base.Inv ∧ base.err = 0 ∧ [(0xB3 : Byte), 0x88].length ≤ base.payCap.toNat :=
  ⟨base_inv, by decide⟩

/-- The last byte there is, and the first that is not. -/
theorem witness_ByteReadsOrBadIndex :
    (loaded 0 0).err = 0 ∧ (0 : BitVec 24).toNat < (loaded 0 0).payLen.toNat ∧ (loaded 0 0).payLen.toNat ≤ (1 : BitVec 24).toNat ∧
    base.outLen.toNat ≤ (0 : BitVec 24).toNat ∧ (0 : BitVec 24).toNat < { base with outLen := 1 }.outLen.toNat := by decide

theorem witness_RdregReadsRegister :
    ((0 : BitVec 4).toNat, Reg.status) ∈ registerNumbers ∧ ((15 : BitVec 4).toNat, Reg.outCap) ∈ registerNumbers := by decide

theorem witness_PseudoCommandsLoad :
    base.canonical = true ∧ base.err = 0 ∧ 1 ≤ [true].length ∧ (List.replicate 255 false).length ≤ 255 :=
  ⟨by decide, rfl, by decide, Nat.le_of_eq (List.length_replicate ..)⟩

theorem witness_FrequencyTableCounts : ((0x61 : Sym), 4) ∈ analyze [0x61, 0x61, 0x61, 0x61] := by decide

/-- A one-pair table that the writer's clause takes, a two-pair table that needs sorting, a file the reader takes. -/
theorem witness_ContainerRoundTrips :
    (Ascending [((0x61 : Sym), 4)] ∧ ∀ p ∈ [((0x61 : Sym), 4)], 1 ≤ p.2 ∧ p.2 < 4294967296) ∧
    ([((0x62 : Sym), 1), ((0x61 : Sym), 4)].map (fun p => p.1)).Nodup ∧
    readContainer ([1, 0, 0, 0, 0x61, 4, 0, 0, 0, 0x48, 0x55, 0x46, 0x46, 0x44, 0x41, 0x54, 0x41] ++ [4, 0, 0, 0, 0, 0, 0, 0, 0])
      = some ⟨[(0x61, 4)], 4, [0]⟩ ∧
    looksLikeContainer [0, 0, 0, 0, 0x48, 0x55, 0x46, 0x46, 0x44, 0x41, 0x54, 0x41] = true := by
  refine ⟨⟨?_, by simp⟩, by decide, by decide, by decide⟩
  unfold Ascending; decide

theorem witness_ReadOutGivesBuffers :
    base.Inv ∧ (∃ t, encodeOnBlock [(0x61, [false])] [0x61] base = .got (1, [0]) t) ∧
    (∃ t, decodeOnBlock [(0x61, 1)] (.single 0x61 1) 1 [0] base = .got [0x61] t) := ⟨base_inv, ⟨_, rfl⟩, ⟨_, rfl⟩⟩

theorem witness_HostRecoversBySreset :
    (∃ t, exec (.payr 0) base = .next t ∧ t.rsp = isFault 7) ∧
    (∃ u, build (analyze [0x61]) = some (.single 0x61 1) ∧ encodeOnBlock (generate (.single 0x61 1)) [0x61] faulted = .failed u) ∧
    (∃ u, build [(0x61, 4)] = some (.single 0x61 4) ∧ decodeOnBlock [(0x61, 4)] (.single 0x61 4) 4 [] base = .failed u) ∧
    readContainer [1, 0, 0, 0, 0x61, 4, 0, 0, 0, 0x48, 0x55, 0x46, 0x46, 0x44, 0x41, 0x54, 0x41, 4, 0, 0, 0, 0, 0, 0, 0]
      = some ⟨[(0x61, 4)], 4, []⟩ ∧
    (∃ t, compress [0x61] faulted = (.blockFault 7 1, t)) ∧
    (∃ t, decompress [1, 0, 0, 0, 0x61, 4, 0, 0, 0, 0x48, 0x55, 0x46, 0x46, 0x44, 0x41, 0x54, 0x41, 4, 0, 0, 0, 0, 0, 0, 0]
      base = (.blockFault 4 0, t)) :=
  ⟨⟨_, rfl, rfl⟩, ⟨_, rfl, rfl⟩, ⟨_, rfl, rfl⟩, by decide, ⟨_, rfl⟩, ⟨_, rfl⟩⟩

end Sys2Proof.Tests
end

section
/-! SUPPORT. What a command, a step and the shared operations can write, and what a command raises on a block that nothing
was loaded into. -/

namespace Sys2Proof.Machine

open Sys2Proof.Claims

/-! ## One step and one command -/

theorem step_of_idle {s : State} (h : s.inputs = []) : step s = .next s := by
  rw [step, fetch_idle h]

theorem step_of_reset {s : State} {d : Option Word} {rest : List Input} (h : s.inputs = .reset d :: rest) :
    step s = .next (toReset { s with inputs := rest }) := by
  rw [step, fetch_reset h]

theorem step_of_command {s : State} {w : Word} {rest : List Input} {i : Instr} (h : s.inputs = .command w :: rest)
    (hd : decode w = .ok i) : step s = exec i { s with inputs := rest } := by
  simp only [step, fetch_command h, hd]

theorem step_of_illegal {s : State} {w : Word} {rest : List Input} (h : s.inputs = .command w :: rest)
    (hd : ∀ i, decode w ≠ .ok i) : step s = illegalCommand w { s with inputs := rest } := by
  simp only [step, fetch_command h]
  cases hw : decode w with
  | ok i => exact absurd hw (hd i)
  | unknownOpcode c => rfl
  | mustBeZero o => rfl

/-- Everything a step can do: wait, reset the block, execute the command of a word, answer an illegal word. -/
theorem step_cases {s t : State} (h : step s = .next t) :
    (s.inputs = [] ∧ t = s) ∨
    (∃ d rest, s.inputs = .reset d :: rest ∧ t = toReset { s with inputs := rest }) ∨
    (∃ w rest i, s.inputs = .command w :: rest ∧ decode w = .ok i ∧ exec i { s with inputs := rest } = .next t) ∨
    (∃ w rest, s.inputs = .command w :: rest ∧ (∀ i, decode w ≠ .ok i) ∧
      illegalCommand w { s with inputs := rest } = .next t) := by
  match hin : s.inputs with
  | [] =>
    rw [step_of_idle hin] at h
    cases h
    exact .inl ⟨rfl, rfl⟩
  | .reset d :: rest =>
    rw [step_of_reset hin] at h
    cases h
    exact .inr (.inl ⟨d, rest, rfl, rfl⟩)
  | .command w :: rest =>
    by_cases hd : ∃ i, decode w = .ok i
    · obtain ⟨i, hd⟩ := hd
      exact .inr (.inr (.inl ⟨w, rest, i, rfl, hd, step_of_command hin hd ▸ h⟩))
    · have hd := not_exists.1 hd
      exact .inr (.inr (.inr ⟨w, rest, rfl, hd, step_of_illegal hin hd ▸ h⟩))

/-- Everything a command that the fault state refuses can do: its rule, or the refusal. -/
theorem command_cases {s t : State} {rule : State → State} (h : command s rule = .next t) :
    (s.err = 0 ∧ t = rule s) ∨ (s.err ≠ 0 ∧ t = refuse s) := by
  by_cases he : s.err = 0
  · rw [command_of_ok he] at h
    cases h
    exact .inl ⟨he, rfl⟩
  · rw [command_of_fault he] at h
    cases h
    exact .inr ⟨he, rfl⟩

/-- A command keeps a part of the state that its rule and the response leave alone. -/
theorem command_keeps {α : Type} {f : State → α} {s t : State} {rule : State → State} (h : command s rule = .next t)
    (hrespond : f (refuse s) = f s) (hrule : f (rule s) = f s) : f t = f s := by
  obtain ⟨-, rfl⟩ | ⟨-, rfl⟩ := command_cases h
  · exact hrule
  · exact hrespond

/-! ## Frames of the shared operations -/

/-- A checked push writes the packer, the payload buffer, the fault registers and the response only. -/
theorem pushChecked_frame (bs : List Bool) (d : Word) (s : State) :
    pushChecked bs d s =
      { s with acc := (pushChecked bs d s).acc, nb := (pushChecked bs d s).nb, ebits := (pushChecked bs d s).ebits,
               pay := (pushChecked bs d s).pay, payLen := (pushChecked bs d s).payLen,
               err := (pushChecked bs d s).err, einfo := (pushChecked bs d s).einfo,
               rsp := (pushChecked bs d s).rsp } := by
  obtain ⟨-, h⟩ | ⟨-, h⟩ := pushChecked_cases bs d s
  · rw [h]; rfl
  · rw [h, pushBits_frame]; rfl

/-- The two states differ at most in what the walk of 44_decoder R131 writes: the cursors, the output buffer, the fault
registers and the response. -/
def SameButWalk (s t : State) : Prop :=
  t = { s with dpos := t.dpos, cur := t.cur, out := t.out, outLen := t.outLen, err := t.err, einfo := t.einfo,
               rsp := t.rsp }

theorem SameButWalk.trans {s t u : State} (h : SameButWalk s t) (h' : SameButWalk t u) : SameButWalk s u := by
  unfold SameButWalk at h h' ⊢
  rw [h', h]

theorem SameButWalk.of_moved {s t : State} {d : Word} (h : walkPass s = .moved t d) : SameButWalk s t := by
  unfold SameButWalk
  rw [walkPass_moved h]

theorem SameButWalk.of_raised {s t : State} (h : walkPass s = .raised t) : SameButWalk s t := by
  unfold SameButWalk
  rw [(walkPass_raised h).2.2]

theorem SameButWalk.of_respond (st : Status) (d : Word) (s : State) : SameButWalk s (respond st d s) := rfl

/-- The loop of DRUN writes what its passes write. -/
theorem SameButWalk.of_runWalk (s : State) : SameButWalk s (runWalk (s.dbits.toNat - s.dpos.toNat) s) :=
  runWalk_induction (P := SameButWalk s) (Q := SameButWalk s)
    (fun _ _ _ h _ hw => h.trans (.of_moved hw)) (fun _ _ h _ hw => h.trans (.of_raised hw))
    (fun _ h _ => h.trans (.of_respond ..)) rfl

/-- DSTEP writes what one pass of the walk writes. -/
theorem SameButWalk.of_dstep {s t : State} (h : exec .dstep s = .next t) : SameButWalk s t := by
  unfold exec at h
  obtain ⟨-, rfl⟩ | ⟨-, rfl⟩ := command_cases h
  · split_ifs
    · exact .of_respond ..
    · cases hw : walkPass s with
      | raised t => exact .of_raised hw
      | moved t d => exact (SameButWalk.of_moved hw).trans (.of_respond ..)
  · exact .of_respond ..

/-- DRUN writes what the walk writes. -/
theorem SameButWalk.of_drun {s t : State} (h : exec .drun s = .next t) : SameButWalk s t := by
  unfold exec at h
  obtain ⟨-, rfl⟩ | ⟨-, rfl⟩ := command_cases h
  · exact .of_runWalk s
  · exact .of_respond ..

/-! ## The code table -/

@[simp] theorem pushChecked_ct (bs : List Bool) (d : Word) (s : State) : (pushChecked bs d s).ct = s.ct := by
  rw [pushChecked_frame]

theorem SameButWalk.ct {s t : State} (h : SameButWalk s t) : t.ct = s.ct := by
  rw [h]

/-- A command that is not one of the four writers of 10_state R11 leaves CT unchanged. -/
theorem exec_keeps_ct {i : Instr} {s t : State} (hw : writesCt i = false) (h : exec i s = .next t) : t.ct = s.ct := by
  unfold exec at h
  cases i
  case ctclr | ctlen | ctbit | sreset => cases hw
  case rdreg => cases h; rfl
  case ctrd | tclr | tleaf | tint | tsngl | tleft | tright | troot | trd | pclr | dcnt | dstart =>
    exact command_keeps h rfl rfl
  case payw | payr | outr | ubit | pflush =>
    refine command_keeps h rfl ?_
    split_ifs <;> rfl
  case pbits => exact command_keeps h rfl (pushChecked_ct ..)
  case esym =>
    refine command_keeps h rfl ?_
    dsimp only
    split_ifs
    · rfl
    · exact pushChecked_ct ..
  case dstep => exact (SameButWalk.of_dstep (by rwa [exec])).ct
  case drun => exact (SameButWalk.of_drun (by rwa [exec])).ct

/-- Settles O19: the writers are excluded by the hypothesis, and every other command's frame keeps CT; a step that is no
reset's and no writer's waits, executes such a command, or answers an illegal word. -/
theorem codeTableIsReadOnly : Obligations.CodeTableIsReadOnly := by
  unfold Obligations.CodeTableIsReadOnly
  refine ⟨fun _ _ _ => exec_keeps_ct, fun s t h hne => ?_⟩
  obtain ⟨-, rfl⟩ | ⟨d, rest, hin, -⟩ | ⟨w, rest, i, hin, hd, hexec⟩ | ⟨w, rest, -, -, hill⟩ := step_cases h
  · exact absurd rfl hne
  · exact .inr ⟨d, rest, hin⟩
  · cases hw : writesCt i with
    | true => exact .inl ⟨w, rest, i, hin, hd, hw⟩
    | false => exact absurd (exec_keeps_ct hw hexec) hne
  · exact absurd (command_keeps (f := State.ct) hill rfl rfl) hne

/-! ## What commands raise -/

theorem low32_eq_low (c : Count) : low32 c = low c := by
  apply BitVec.eq_of_toNat_eq
  simp [low32, low, BitVec.extractLsb']

/-- A command raises a fault where its rule does and the block is not in the fault state. -/
theorem raises_of_rule {i : Instr} {s : State} {rule : State → State} {c : Cause} {info : Word}
    (hexec : exec i s = command s rule) (herr : s.err = 0) (hrule : rule s = raise c info s) : Raises i s c info := by
  rw [Raises, hexec, command_of_ok herr, hrule]
  rfl

/-- ESYM of a symbol with no code (42_encoder R110). -/
theorem esym_raises_of_no_code {s : State} {sym : Sym} (herr : s.err = 0) (hlen : (ctEntry s sym).len = 0) :
    Raises (.esym sym) s .corruptCodeTable (sym.setWidth 32) := by
  refine raises_of_rule (by rw [exec, execEsym]) herr ?_
  exact if_pos hlen

/-- PAYR at or past PAYLEN (45_readout_system R141). -/
theorem payr_raises_of_payLen_le {s : State} {idx : BitVec 24} (herr : s.err = 0) (hidx : s.payLen.toNat ≤ idx.toNat) :
    Raises (.payr idx) s .badIndex (idx.setWidth 32) := by
  refine raises_of_rule (by rw [exec, execPayr]) herr ?_
  exact if_pos hidx

/-- OUTR at or past OUTLEN (45_readout_system R142). -/
theorem outr_raises_of_outLen_le {s : State} {idx : BitVec 24} (herr : s.err = 0) (hidx : s.outLen.toNat ≤ idx.toNat) :
    Raises (.outr idx) s .badIndex (idx.setWidth 32) := by
  refine raises_of_rule (by rw [exec, execOutr]) herr ?_
  exact if_pos hidx

/-- A pass of the walk whose bit is there and leads nowhere. -/
theorem walkPass_of_child_null {s : State} (hbit : nextBitAvailable s = true) (hchild : child s (nextBit s) = .null) :
    walkPass s = .raised (raise .corruptStreamNoChild (low32 s.dpos) s) := by
  simp [walkPass, hbit, hchild]

/-- DSTEP where the cursor's bit is there and leads nowhere (44_decoder R131). -/
theorem dstep_raises_of_child_null {s : State} (herr : s.err = 0) (hbit : CursorBitThere s)
    (hchild : child s (nextBit s) = .null) : Raises .dstep s .corruptStreamNoChild (low s.dpos) := by
  obtain ⟨hlt, hbyte⟩ := hbit
  refine raises_of_rule (by rw [exec, execDstep]) herr ?_
  have hleft : ¬ s.dbits ≤ s.dpos := by rw [BitVec.le_def]; omega
  simp only [if_neg hleft, walkPass_of_child_null (decide_eq_true hbyte) hchild, low32_eq_low]

/-! ## The reset state -/

theorem statusWord_resetFor (pc oc : BitVec 25) : statusWord (State.resetFor pc oc) = 0x00000300 := by
  simp [statusWord, State.resetFor, dend, atRoot, rootV, flagAt, Ptr.word]

/-- Settles O8: the values stand in `State.resetFor`; the faults are those of a symbol with no code, an index at or past an
empty buffer's length, and a cursor that leads nowhere. -/
theorem resetStateValues : Obligations.ResetStateValues := by
  unfold Obligations.ResetStateValues
  refine ⟨fun pc oc t ht => ?_, fun s => rfl, fun s herr _ _ hcur hbit => ?_, rfl⟩
  · subst ht
    exact ⟨fun _ => ⟨rfl, rfl⟩, fun _ => rfl, rfl, rfl, rfl, rfl, rfl, rfl, rfl, rfl, rfl, rfl, rfl, rfl,
      statusWord_resetFor pc oc, rfl, fun _ => esym_raises_of_no_code rfl rfl,
      fun _ => ⟨payr_raises_of_payLen_le rfl (Nat.zero_le _), outr_raises_of_outLen_le rfl (Nat.zero_le _)⟩⟩
  · have hchild : child s (nextBit s) = .null := by rw [child, hcur, childOf]
    exact dstep_raises_of_child_null herr hbit hchild

end Sys2Proof.Machine
end

section
/-! SUPPORT. The two byte buffers are append-only between clears (20_memory R48): what each shared operation, each pass of
the walk and each command does to the bytes already there. -/

namespace Sys2Proof.Machine

open Sys2Proof.Claims

/-! ## A buffer and its length -/

/-- PAY with its length (10_state R34). -/
def payBuf (s : State) : Memory × BitVec 25 := (s.pay, s.payLen)

/-- OUT with its length (10_state R35). -/
def outBuf (s : State) : Memory × BitVec 25 := (s.out, s.outLen)

/-- The second buffer is the first with bytes appended: the length does not fall and every byte below the first's length
keeps its value. -/
def Extends (b c : Memory × BitVec 25) : Prop :=
  b.2.toNat ≤ c.2.toNat ∧ ∀ a, a < b.2.toNat → c.1.read a = b.1.read a

theorem extends_payBuf_iff {s t : State} : Extends (payBuf s) (payBuf t) ↔
    s.payLen.toNat ≤ t.payLen.toNat ∧ ∀ a, a < s.payLen.toNat → payByte t a = payByte s a := Iff.rfl

theorem extends_outBuf_iff {s t : State} : Extends (outBuf s) (outBuf t) ↔
    s.outLen.toNat ≤ t.outLen.toNat ∧ ∀ a, a < s.outLen.toNat → outByte t a = outByte s a := Iff.rfl

theorem Extends.of_eq {b c : Memory × BitVec 25} (h : c = b) : Extends b c :=
  h ▸ ⟨Nat.le_refl _, fun _ _ => rfl⟩

theorem Extends.trans {b c d : Memory × BitVec 25} (h : Extends b c) (h' : Extends c d) : Extends b d :=
  ⟨h.1.trans h'.1, fun a ha => (h'.2 a (ha.trans_le h.1)).trans (h.2 a ha)⟩

/-- A byte written at the length lies past every byte already there. -/
theorem Extends.of_write {m : Memory} {len : BitVec 25} (hm : m.wf = true) (hlen : (len + 1).toNat = len.toNat + 1)
    (b : Byte) : Extends (m, len) (m.write len.toNat b, len + 1) := by
  refine ⟨by rw [hlen]; exact Nat.le_succ _, fun a ha => ?_⟩
  rw [Memory.read_write hm, if_neg ha.ne']

/-! ## The operations that append -/

theorem appendPay_extends {s : State} (h : s.Inv) (hroom : s.payLen.toNat < s.payCap.toNat) (b : Byte) :
    Extends (payBuf s) (payBuf (appendPay b s)) := by
  obtain ⟨-, -, hpay, -⟩ := h.canonical_parts
  exact .of_write hpay (payLen_succ hroom h.payCap.2) b

theorem appendOut_extends {s : State} (h : s.Inv) (hroom : s.outLen.toNat < s.outCap.toNat) (b : Byte) :
    Extends (outBuf s) (outBuf (appendOut b s)) := by
  obtain ⟨-, -, -, hout⟩ := h.canonical_parts
  exact .of_write hout (outLen_succ hroom h.outCap.2) b

/-- PAY has room for a byte unless it is exactly full. -/
theorem State.Inv.payLen_lt {s : State} (h : s.Inv) (hne : s.payLen ≠ s.payCap) : s.payLen.toNat < s.payCap.toNat :=
  lt_of_le_of_ne h.payLen (mt BitVec.eq_of_toNat_eq hne)

/-- OUT has room for a byte unless it is exactly full. -/
theorem State.Inv.outLen_lt {s : State} (h : s.Inv) (hne : s.outLen ≠ s.outCap) : s.outLen.toNat < s.outCap.toNat :=
  lt_of_le_of_ne h.outLen (mt BitVec.eq_of_toNat_eq hne)

/-- PushBit appends the byte it completes, if it completes one. -/
theorem pushBit_extends {s : State} (h : s.Inv) (b : Bool)
    (hroom : s.payLen.toNat + (s.nb.toNat + 1) / 8 ≤ s.payCap.toNat) : Extends (payBuf s) (payBuf (pushBit b s)) := by
  by_cases h7 : s.nb = 7
  · have hnb : s.nb.toNat = 7 := by rw [h7]; rfl
    rw [pushBit, if_pos h7]
    exact appendPay_extends h (by omega) _
  · rw [pushBit, if_neg h7]
    exact .of_eq rfl

theorem pushBits_extends {s : State} (h : s.Inv) (bs : List Bool)
    (hroom : s.payLen.toNat + (s.nb.toNat + bs.length) / 8 ≤ s.payCap.toNat) :
    Extends (payBuf s) (payBuf (pushBits bs s)) := by
  induction bs generalizing s with
  | nil => exact .of_eq rfl
  | cons b bs ih =>
    rw [List.length_cons] at hroom
    have hcap := s.payCap.isLt
    obtain ⟨hlen, hnb⟩ := pushBit_count b s (by omega)
    have hpc : (pushBit b s).payCap = s.payCap := by rw [pushBit_frame]
    have hfirst : s.payLen.toNat + (s.nb.toNat + 1) / 8 ≤ s.payCap.toNat := by omega
    exact (pushBit_extends h b hfirst).trans (ih (h.of_pushBit b hfirst) (by rw [hlen, hnb, hpc]; omega))

theorem pushChecked_extends {s : State} (h : s.Inv) (bs : List Bool) (d : Word) :
    Extends (payBuf s) (payBuf (pushChecked bs d s)) := by
  obtain ⟨-, hp⟩ | ⟨hroom, hp⟩ := pushChecked_cases bs d s
  · rw [hp]
    exact .of_eq rfl
  · rw [hp]
    exact pushBits_extends h bs hroom

theorem pushChecked_outBuf (bs : List Bool) (d : Word) (s : State) : outBuf (pushChecked bs d s) = outBuf s := by
  rw [pushChecked_frame]
  rfl

/-! ## The walk -/

theorem SameButWalk.payBuf {s t : State} (h : SameButWalk s t) : payBuf t = payBuf s := by
  rw [h]
  rfl

theorem outBuf_of_raised {s t : State} (h : walkPass s = .raised t) : outBuf t = outBuf s := by
  obtain ⟨-, -, ht⟩ := walkPass_raised h
  rw [ht]
  rfl

/-- A pass that goes on appends the symbol of the leaf it reaches, if it reaches one. -/
theorem outBuf_extends_of_moved {s t : State} {d : Word} (hi : s.Inv) (h : walkPass s = .moved t d) :
    Extends (outBuf s) (outBuf t) := by
  obtain ⟨-, hw⟩ | ⟨-, -, hw⟩ | ⟨-, c, -, -, ⟨-, hw⟩ | ⟨hne, hw⟩⟩ | ⟨-, c, -, -, ⟨-, -, hw⟩ | ⟨-, hw⟩⟩ :=
    walkPass_cases s <;> rw [hw] at h <;> cases h
  · exact appendOut_extends hi (hi.outLen_lt hne) _
  · exact .of_eq rfl

theorem runWalk_extends {s : State} (hi : s.Inv) :
    Extends (outBuf s) (outBuf (runWalk (s.dbits.toNat - s.dpos.toNat) s)) :=
  runWalk_induction (P := fun u => u.Inv ∧ Extends (outBuf s) (outBuf u)) (Q := fun u => Extends (outBuf s) (outBuf u))
    (fun _ _ _ ⟨hu, h⟩ hlt hw => ⟨(hu.of_walkPass hlt).2 _ _ hw, h.trans (outBuf_extends_of_moved hu hw)⟩)
    (fun _ _ ⟨_, h⟩ _ hw => h.trans (.of_eq (outBuf_of_raised hw)))
    (fun _ ⟨_, h⟩ _ => h) ⟨hi, .of_eq rfl⟩

/-! ## The commands -/

/-- Both buffers keep the bytes they have. -/
def AppendOnly (s t : State) : Prop := Extends (payBuf s) (payBuf t) ∧ Extends (outBuf s) (outBuf t)

theorem AppendOnly.of_same {s t : State} (hpay : payBuf t = payBuf s) (hout : outBuf t = outBuf s) : AppendOnly s t :=
  ⟨.of_eq hpay, .of_eq hout⟩

/-- A refusal changes neither buffer, so a command does to them what its rule does. -/
theorem AppendOnly.of_command {s t : State} {rule : State → State} (h : command s rule = .next t)
    (hrule : AppendOnly s (rule s)) : AppendOnly s t := by
  obtain ⟨-, rfl⟩ | ⟨-, rfl⟩ := command_cases h
  · exact hrule
  · exact .of_same rfl rfl

theorem AppendOnly.of_pushChecked {s : State} (hi : s.Inv) (bs : List Bool) (d : Word) :
    AppendOnly s (pushChecked bs d s) :=
  ⟨pushChecked_extends hi bs d, .of_eq (pushChecked_outBuf bs d s)⟩

/-- A command that clears no buffer only appends. -/
theorem exec_appendOnly {i : Instr} {s t : State} (hi : s.Inv) (hpclr : i ≠ .pclr) (hdstart : i ≠ .dstart)
    (hsreset : i ≠ .sreset) (h : exec i s = .next t) : AppendOnly s t := by
  unfold exec at h
  cases i
  case pclr | dstart | sreset => contradiction
  case rdreg =>
    cases h
    exact .of_same rfl rfl
  case ctclr | ctlen | ctbit | ctrd | tclr | tleaf | tint | tsngl | tleft | tright | troot | trd | dcnt =>
    exact .of_command h (.of_same rfl rfl)
  case payr | outr | ubit =>
    refine .of_command h ?_
    split_ifs <;> exact .of_same rfl rfl
  case payw =>
    refine .of_command h ?_
    split_ifs with hfull
    · exact .of_same rfl rfl
    · exact ⟨appendPay_extends hi (hi.payLen_lt hfull) _, .of_eq rfl⟩
  case pflush =>
    refine .of_command h ?_
    split_ifs with hnone hfull
    · exact .of_same rfl rfl
    · exact .of_same rfl rfl
    · exact ⟨appendPay_extends hi (hi.payLen_lt hfull) _, .of_eq rfl⟩
  case pbits => exact .of_command h (.of_pushChecked hi ..)
  case esym =>
    refine .of_command h ?_
    dsimp only
    split_ifs
    · exact .of_same rfl rfl
    · exact .of_pushChecked hi ..
  case dstep =>
    refine .of_command h ?_
    split_ifs
    · exact .of_same rfl rfl
    · cases hw : walkPass s with
      | raised u => exact .of_same (SameButWalk.of_raised hw).payBuf (outBuf_of_raised hw)
      | moved u d => exact ⟨.of_eq (SameButWalk.of_moved hw).payBuf, outBuf_extends_of_moved (t := u) hi hw⟩
  case drun => exact .of_command h ⟨.of_eq (SameButWalk.of_runWalk s).payBuf, runWalk_extends hi⟩

theorem pclr_keeps_outBuf {s t : State} (h : exec .pclr s = .next t) : outBuf t = outBuf s := by
  unfold exec at h
  exact command_keeps h rfl rfl

theorem dstart_keeps_payBuf {s t : State} (h : exec .dstart s = .next t) : payBuf t = payBuf s := by
  unfold exec at h
  exact command_keeps h rfl rfl

/-- Settles O21: a command that clears no buffer only appends to either, PCLR leaves OUT alone and DSTART leaves PAY
alone. -/
theorem buffersAreAppendOnly : Obligations.BuffersAreAppendOnly := by
  unfold Obligations.BuffersAreAppendOnly
  refine fun i s t hi h => ⟨fun hpclr hsreset => extends_payBuf_iff.1 ?_, fun hdstart hsreset => extends_outBuf_iff.1 ?_⟩
  · by_cases hdstart : i = .dstart
    · subst hdstart
      exact .of_eq (dstart_keeps_payBuf h)
    · exact (exec_appendOnly hi hpclr hdstart hsreset h).1
  · by_cases hpclr : i = .pclr
    · subst hpclr
      exact .of_eq (pclr_keeps_outBuf h)
    · exact (exec_appendOnly hi hpclr hdstart hsreset h).2

end Sys2Proof.Machine
end

section
/-! SUPPORT. The decoder read off the command table (30_encoding R64, R65): a word selects a row by its opcode and the row's
must-be-zero bits, decodes exactly if it selects one, and is illegal exactly if it selects none. -/

namespace Sys2Proof

open Sys2Proof.Machine Sys2Proof.Claims

/-! ## The rows -/

theorem Op.code_injective {o o' : Op} (h : o.code = o'.code) : o = o' :=
  Option.some.inj (by rw [← o.ofCode_code, h, o'.ofCode_code])

/-- The table written out is the one the model computes from each row's opcode and format. -/
theorem commandTable_eq_map : commandTable = Op.all.map fun o => (o, o.matchWord, o.mask) := by decide

theorem forall_mem_commandTable {P : Op × Word × Word → Prop} :
    (∀ r ∈ commandTable, P r) ↔ ∀ o : Op, P (o, o.matchWord, o.mask) := by
  rw [commandTable_eq_map, List.forall_mem_map]
  exact ⟨fun h o => h o o.mem_all, fun h o _ => h o⟩

/-! ## Selecting a row -/

theorem and_opcodeMask (w : Word) : w &&& (0xFC000000 : Word) = (w.extractLsb' 26 6).setWidth 32 <<< 26 := by
  have hfield : (w.extractLsb' 26 6).setWidth 32 = w >>> 26 := by
    apply BitVec.eq_of_toNat_eq
    have hlt := (w.extractLsb' 26 6).isLt
    rw [BitVec.toNat_setWidth, Nat.mod_eq_of_lt (by omega), opcode_toNat, BitVec.toNat_ushiftRight,
      Nat.shiftRight_eq_div_pow]
  rw [hfield, BitVec.shiftLeft_ushiftRight]
  rfl

theorem extractLsb'_setWidth_shiftLeft (c : BitVec 6) : (c.setWidth 32 <<< 26 : Word).extractLsb' 26 6 = c := by
  revert c
  decide

/-- The opcode bits of a word are a row's match word exactly if its opcode is the row's. -/
theorem and_opcodeMask_eq_matchWord {w : Word} {o : Op} :
    w &&& (0xFC000000 : Word) = o.matchWord ↔ w.extractLsb' 26 6 = o.code := by
  rw [and_opcodeMask, Op.matchWord]
  constructor
  · intro h
    rw [← extractLsb'_setWidth_shiftLeft (w.extractLsb' 26 6), h, extractLsb'_setWidth_shiftLeft]
  · intro h
    rw [h]

/-- The opcode bits and the must-be-zero bits of a row are apart, so the row's mask checks each on its own. -/
theorem and_mask_eq_matchWord {w : Word} {o : Op} :
    w &&& o.mask = o.matchWord ↔ w.extractLsb' 26 6 = o.code ∧ w &&& o.format.mbz = 0 := by
  rw [← and_opcodeMask_eq_matchWord]
  constructor
  · intro h
    have hopcode : o.mask &&& 0xFC000000 = 0xFC000000 ∧ o.matchWord &&& 0xFC000000 = o.matchWord := by
      cases o <;> decide
    have hmbz : o.mask &&& o.format.mbz = o.format.mbz ∧ o.matchWord &&& o.format.mbz = 0 := by
      cases o <;> decide
    constructor
    · rw [← hopcode.1, ← BitVec.and_assoc, h, hopcode.2]
    · rw [← hmbz.1, ← BitVec.and_assoc, h, hmbz.2]
  · rintro ⟨hopcode, hmbz⟩
    rw [Op.mask, BitVec.and_or_distrib_left, hopcode, hmbz]
    exact BitVec.or_zero

/-- A word decodes to a command of a row exactly if it selects the row. -/
theorem exists_decode_op_iff {w : Word} {o : Op} :
    (∃ i, decode w = .ok i ∧ i.op = o) ↔ w &&& o.mask = o.matchWord := by
  simp only [decode_eq_ok, and_mask_eq_matchWord, Format.and_mbz_eq_zero, ← opcode_toNat, BitVec.toNat_inj]
  constructor
  · rintro ⟨i, ⟨o', hcode, hmbz, rfl⟩, rfl⟩
    rw [assemble_op]
    exact ⟨hcode, hmbz⟩
  · rintro ⟨hcode, hmbz⟩
    exact ⟨assemble o w, ⟨o, hcode, hmbz, rfl⟩, assemble_op o w⟩

theorem decode_ne_ok_iff {w : Word} : (∀ i, decode w ≠ .ok i) ↔ ∀ o : Op, w &&& o.mask ≠ o.matchWord := by
  constructor
  · intro h o hsel
    obtain ⟨i, hi, -⟩ := exists_decode_op_iff.2 hsel
    exact h i hi
  · intro h i hi
    exact h i.op (exists_decode_op_iff.1 ⟨i, hi, rfl⟩)

/-! ## Illegal words -/

/-- The opcodes that R65 lists are those of no row. -/
theorem unusedOpcode_iff_ofCode {c : BitVec 6} : unusedOpcode c.toNat ↔ Op.ofCode c = none := by
  unfold unusedOpcode
  revert c
  decide

theorem illegal_iff_opcode {w : Word} :
    Illegal w ↔
      Op.ofCode (w.extractLsb' 26 6) = none ∨ ∃ o : Op, w.extractLsb' 26 6 = o.code ∧ w &&& o.format.mbz ≠ 0 := by
  simp only [Illegal, show w.toNat / 67108864 = (w.extractLsb' 26 6).toNat from (opcode_toNat w).symm,
    unusedOpcode_iff_ofCode, BitVec.toNat_inj, Op.mem_all, true_and]

/-- A word with a row's opcode selects that row or none: illegal words are those that select none. -/
theorem illegal_iff_selects_none {w : Word} : Illegal w ↔ ∀ o : Op, w &&& o.mask ≠ o.matchWord := by
  simp only [illegal_iff_opcode, ne_eq, and_mask_eq_matchWord, not_and]
  constructor
  · rintro (hnone | ⟨o, hcode, hmbz⟩) o' hcode'
    · exact absurd hcode'.symm (Op.ofCode_eq_none.1 hnone o')
    · rwa [← Op.code_injective (hcode.symm.trans hcode')]
  · intro h
    cases hop : Op.ofCode (w.extractLsb' 26 6) with
    | none => exact .inl rfl
    | some o =>
      have hcode := (Op.ofCode_eq_some.1 hop).symm
      exact .inr ⟨o, hcode, h o hcode⟩

theorem illegal_iff_decode_ne_ok {w : Word} : Illegal w ↔ ∀ i, decode w ≠ .ok i :=
  illegal_iff_selects_none.trans decode_ne_ok_iff.symm

/-- Settles O6: the table is the model's match and mask words row by row, which say what the word's opcode and must-be-zero
bits are; so a word decodes to the row it selects, and is illegal if it selects none. -/
theorem decodeFollowsCommandTable : Obligations.DecodeFollowsCommandTable := by
  unfold Obligations.DecodeFollowsCommandTable
  simp only [forall_mem_commandTable]
  exact ⟨rfl, rfl, fun _ _ => Op.code_injective, fun _ => ⟨rfl, rfl⟩, fun _ _ => exists_decode_op_iff,
    fun _ => illegal_iff_selects_none.symm⟩

/-- Settles O2: a word is illegal exactly if it selects no row, and then the step answers it with the illegal command's
fault, or refuses it in the fault state. -/
theorem illegalWordsFault : Obligations.IllegalWordsFault := by
  unfold Obligations.IllegalWordsFault
  refine ⟨fun _ => illegal_iff_decode_ne_ok, ?_, ?_, fun s w rest hin hill => ?_⟩
  · exact illegal_iff_opcode.2 (.inl (by decide))
  · exact illegal_iff_opcode.2 (.inl (by decide))
  · rw [step_of_illegal hin (illegal_iff_decode_ne_ok.1 hill), illegalCommand]
    constructor
    · intro herr
      rw [command_of_ok (s := { s with inputs := rest }) herr]
      rfl
    · intro herr
      rw [command_of_fault (s := { s with inputs := rest }) herr]
      rfl

end Sys2Proof
end

section
/-! SUPPORT. The decoder undoes the encoder: the operand fields of a command's word are its operands. -/

namespace Sys2Proof

/-- A field of a word, in numbers. -/
theorem extractLsb'_eq_of_toNat {w : Word} {p n : Nat} {x : BitVec n} (h : w.toNat / 2 ^ p % 2 ^ n = x.toNat) :
    w.extractLsb' p n = x :=
  BitVec.eq_of_toNat_eq (by rw [BitVec.extractLsb'_toNat, Nat.shiftRight_eq_div_pow, h])

theorem getLsbD_eq_of_toNat {w : Word} {p : Nat} {b : Bool} (h : w.toNat / 2 ^ p % 2 = b.toNat) : w.getLsbD p = b := by
  rw [BitVec.getLsbD, Nat.testBit_eq_decide_div_mod_eq, h]
  cases b <;> rfl

/-- The bit count of a well-formed PBITS is one more than the field that holds it (30_encoding R63). -/
theorem pbitsCount_eq {n : BitVec 5} (hlo : 1 ≤ n.toNat) (hhi : n.toNat ≤ 16) :
    ((n - 1).setWidth 4).setWidth 5 + 1 = n := by
  revert n
  decide

/-- Operand assembly gives back the operands of the command that the word was made of. -/
theorem assemble_encode {i : Instr} (hwf : i.wellFormed = true) : assemble i.op (encode i) = i := by
  have hw := encode_toNat i
  cases i <;> dsimp only [Instr.fieldValue] at hw
  case sreset | ctclr | tclr | pclr | pflush | dstart | ubit | dstep | drun => rfl
  case rdreg r =>
    have hr : (encode (.rdreg r)).extractLsb' 0 4 = r.number := extractLsb'_eq_of_toNat (by omega)
    exact congrArg Instr.rdreg (by rw [hr, Reg.ofNumber_number])
  case ctlen => exact congrArg₂ Instr.ctlen (extractLsb'_eq_of_toNat (by omega)) (extractLsb'_eq_of_toNat (by omega))
  case ctbit sym idx b =>
    have hb := b.toNat_le
    have hbit : (encode (.ctbit sym idx b)).getLsbD 16 = b := getLsbD_eq_of_toNat (by omega)
    exact congr (congrArg₂ Instr.ctbit (extractLsb'_eq_of_toNat (by omega)) (extractLsb'_eq_of_toNat (by omega))) hbit
  case ctrd => exact congrArg₂ Instr.ctrd (extractLsb'_eq_of_toNat (by omega)) (extractLsb'_eq_of_toNat (by omega))
  case tleaf => exact congrArg₂ Instr.tleaf (extractLsb'_eq_of_toNat (by omega)) (extractLsb'_eq_of_toNat (by omega))
  case tint => exact congrArg Instr.tint (extractLsb'_eq_of_toNat (by omega))
  case tsngl => exact congrArg Instr.tsngl (extractLsb'_eq_of_toNat (by omega))
  case tleft => exact congrArg₂ Instr.tleft (extractLsb'_eq_of_toNat (by omega)) (extractLsb'_eq_of_toNat (by omega))
  case tright =>
    exact congrArg₂ Instr.tright (extractLsb'_eq_of_toNat (by omega)) (extractLsb'_eq_of_toNat (by omega))
  case troot => exact congrArg Instr.troot (extractLsb'_eq_of_toNat (by omega))
  case trd => exact congrArg Instr.trd (extractLsb'_eq_of_toNat (by omega))
  case pbits n v =>
    obtain ⟨hlo, hhi⟩ : 1 ≤ n.toNat ∧ n.toNat ≤ 16 := by simpa [Instr.wellFormed] using hwf
    have hcnt : (encode (.pbits n v)).extractLsb' 16 4 = (n - 1).setWidth 4 :=
      extractLsb'_eq_of_toNat (by rw [BitVec.toNat_setWidth]; omega)
    have hn : ((encode (.pbits n v)).extractLsb' 16 4).setWidth 5 + 1 = n := by rw [hcnt, pbitsCount_eq hlo hhi]
    exact congrArg₂ Instr.pbits hn (extractLsb'_eq_of_toNat (by omega))
  case esym => exact congrArg Instr.esym (extractLsb'_eq_of_toNat (by omega))
  case payw => exact congrArg Instr.payw (extractLsb'_eq_of_toNat (by omega))
  case payr => exact congrArg Instr.payr (extractLsb'_eq_of_toNat (by omega))
  case outr => exact congrArg Instr.outr (extractLsb'_eq_of_toNat (by omega))
  case dcnt => exact congrArg₂ Instr.dcnt (extractLsb'_eq_of_toNat (by omega)) (extractLsb'_eq_of_toNat (by omega))

/-- A command's word lies in its row of the table, and the row reads back its operands. -/
theorem decode_encode {i : Instr} (hwf : i.wellFormed = true) : decode (encode i) = .ok i := by
  obtain ⟨hop, hmbz⟩ := Laws.EncodingRow.of_value i
  exact decode_eq_ok.2 ⟨i.op, hop, (Format.and_mbz_eq_zero _ _).1 hmbz, (assemble_encode hwf).symm⟩

/-- The word of a command of row `o`, however the OR of its match word and its fields is grouped. -/
theorem decode_word {o : Op} {m w : Word} {i : Instr} (hm : o.matchWord = m) (hop : i.op = o)
    (hwf : i.wellFormed = true) (hw : m ||| i.fields = w) : decode w = .ok i := by
  rw [← hw, ← hm, ← hop]
  exact decode_encode hwf

end Sys2Proof
end

section
/-! SUPPORT. The commands that load and read the tables (40_config): what each does outside the fault state, what writing
one entry or one node changes, the words read back in numbers, the root's flags. -/

namespace Sys2Proof.Machine

open Sys2Proof.Claims

/-! ## The commands outside the fault state -/

section
variable {s : State} (herr : s.err = 0)
include herr

theorem exec_ctclr_of_ok : exec .ctclr s = .next (respond .ok 0 { s with ct := [] }) := by
  rw [exec, execCtclr, command_of_ok herr]

theorem exec_ctlen_of_ok (sym : Sym) (len : BitVec 8) :
    exec (.ctlen sym len) s = .next (respond .ok 0 (setCtEntry sym ⟨len, 0⟩ s)) := by
  rw [exec, execCtlen, command_of_ok herr]

theorem exec_ctbit_of_ok (sym : Sym) (idx : BitVec 8) (b : Bool) :
    exec (.ctbit sym idx b) s = .next (respond .ok 0
      (setCtEntry sym ⟨(ctEntry s sym).len, setBit (ctEntry s sym).code idx.toNat b⟩ s)) := by
  rw [exec, execCtbit, command_of_ok herr]

theorem exec_ctrd_of_ok (sym : Sym) (idx : BitVec 8) :
    exec (.ctrd sym idx) s = .next (respond .ok (ctrdData (ctEntry s sym) idx) s) := by
  rw [exec, execCtrd, command_of_ok herr]

theorem exec_tclr_of_ok : exec .tclr s = .next (respond .ok 0 { s with tn := [], root := .null }) := by
  rw [exec, execTclr, command_of_ok herr]

theorem exec_tleaf_of_ok (idx : NodeIdx) (sym : Sym) :
    exec (.tleaf idx sym) s = .next (respond .ok 0 (setTnNode idx ⟨.leaf, sym, .null, .null⟩ s)) := by
  rw [exec, execTleaf, command_of_ok herr]

theorem exec_tint_of_ok (idx : NodeIdx) :
    exec (.tint idx) s = .next (respond .ok 0 (setTnNode idx ⟨.internal, 0, .null, .null⟩ s)) := by
  rw [exec, execTint, command_of_ok herr]

theorem exec_tsngl_of_ok (idx : NodeIdx) :
    exec (.tsngl idx) s = .next (respond .ok 0 (setTnNode idx ⟨.single, 0, .null, .null⟩ s)) := by
  rw [exec, execTsngl, command_of_ok herr]

theorem exec_tleft_of_ok (idx c : NodeIdx) :
    exec (.tleft idx c) s = .next (respond .ok 0 (setTnNode idx { tnNode s idx with left := .node c } s)) := by
  rw [exec, execTleft, command_of_ok herr]

theorem exec_tright_of_ok (idx c : NodeIdx) :
    exec (.tright idx c) s = .next (respond .ok 0 (setTnNode idx { tnNode s idx with right := .node c } s)) := by
  rw [exec, execTright, command_of_ok herr]

theorem exec_troot_of_ok (idx : NodeIdx) :
    exec (.troot idx) s = .next (respond .ok 0 { s with root := .node idx }) := by
  rw [exec, execTroot, command_of_ok herr]

theorem exec_trd_of_ok (idx : NodeIdx) :
    exec (.trd idx) s = .next (respond .ok (trdData (tnNode s idx)) s) := by
  rw [exec, execTrd, command_of_ok herr]

end

/-! ## Writing one entry, writing one node -/

/-- From `s`, the entry of `sym` was replaced by `e`, the response is (OK, 0), and nothing else changed. -/
def WroteEntry (sym : Sym) (e : CodeEntry) (s t : State) : Prop :=
  ctEntry t sym = e ∧ (∀ x, x ≠ sym → ctEntry t x = ctEntry s x) ∧
    t.rsp = some ⟨.ok, 0⟩ ∧ t = { s with ct := t.ct, rsp := t.rsp } ∧ SameBytes s t

/-- From `s`, the node at `idx` was replaced by `n`, the response is (OK, 0), and nothing else changed. -/
def WroteNode (idx : NodeIdx) (n : Node) (s t : State) : Prop :=
  tnNode t idx = n ∧ (∀ x, x ≠ idx → tnNode t x = tnNode s x) ∧
    t.rsp = some ⟨.ok, 0⟩ ∧ t = { s with tn := t.tn, rsp := t.rsp } ∧ SameBytes s t

theorem sameBytes_of_eq {s t : State} (hpay : t.pay = s.pay) (hout : t.out = s.out) : SameBytes s t :=
  ⟨fun a => by rw [payByte, hpay, payByte], fun a => by rw [outByte, hout, outByte]⟩

theorem wroteEntry_setCtEntry {s : State} (h : s.canonical = true) (sym : Sym) (e : CodeEntry) :
    WroteEntry sym e s (respond .ok 0 (setCtEntry sym e s)) := by
  refine ⟨?_, fun x hx => ?_, rfl, rfl, sameBytes_of_eq rfl rfl⟩
  · exact (ctEntry_setCtEntry h sym sym e).trans (if_pos rfl)
  · exact (ctEntry_setCtEntry h sym x e).trans (if_neg hx)

theorem wroteNode_setTnNode {s : State} (h : s.canonical = true) (idx : NodeIdx) (n : Node) :
    WroteNode idx n s (respond .ok 0 (setTnNode idx n s)) := by
  refine ⟨?_, fun x hx => ?_, rfl, rfl, sameBytes_of_eq rfl rfl⟩
  · exact (tnNode_setTnNode h idx idx n).trans (if_pos rfl)
  · exact (tnNode_setTnNode h idx x n).trans (if_neg hx)

/-- The code of an entry whose code bits are all 0. -/
theorem codeOf_of_code_zero {s : State} {sym : Sym} (h : (ctEntry s sym).code = 0) :
    codeOf s sym = List.replicate (ctEntry s sym).len.toNat false := by
  simp [codeOf, h, List.map_const']

/-! ## Words read back -/

theorem flagValue_eq_true (b : Bool) : flagValue (b = true) = b.toNat := by cases b <;> rfl

theorem Ptr.word_toNat (p : Ptr) : p.word.toNat = ptrValue p := by
  cases p with
  | null => rfl
  | node i =>
    have hi := i.isLt
    have hor : 1 * 2 ^ 9 ||| i.toNat = 1 * 2 ^ 9 + i.toNat := mul_pow_or 1 i.toNat 9 hi
    rw [Ptr.word, BitVec.toNat_or, BitVec.toNat_setWidth, Nat.mod_eq_of_lt (by omega)]
    exact hor

/-- A field put above a word's bits. -/
theorem field_or_toNat {m k : Nat} (a : BitVec m) {w : Word} (hw : w.toNat < 2 ^ k) (hmk : m + k ≤ 32) :
    ((a.setWidth 32 <<< k) ||| w).toNat = a.toNat * 2 ^ k + w.toNat := by
  have hlow : (w.setWidth k).setWidth 32 = w := by
    apply BitVec.eq_of_toNat_eq
    rw [BitVec.toNat_setWidth, BitVec.toNat_setWidth, Nat.mod_eq_of_lt hw, Nat.mod_eq_of_lt w.isLt]
  have h := two_fields_toNat a (w.setWidth k) hmk
  rwa [hlow, BitVec.toNat_setWidth, Nat.mod_eq_of_lt hw] at h

/-- CTRD's data: the length, the code bit above it (40_config R83). -/
theorem ctrdData_toNat (e : CodeEntry) (idx : BitVec 8) :
    (ctrdData e idx).toNat = e.len.toNat + 256 * flagValue (e.code.getLsbD idx.toNat = true) := by
  have hbit : (BitVec.ofBool (e.bit idx)).toNat = flagValue (e.code.getLsbD idx.toNat = true) := by
    rw [BitVec.toNat_ofBool, flagValue_eq_true, CodeEntry.bit]
  rw [ctrdData, two_fields_toNat _ _ (by decide), hbit]
  omega

/-- TRD's data: kind, symbol, left and right pointer, from the lowest bit up (40_config R91). -/
theorem trdData_toNat (n : Node) :
    (trdData n).toNat =
      n.kind.code.toNat + 4 * n.sym.toNat + 1024 * ptrValue n.left + 1048576 * ptrValue n.right := by
  have hkind := n.kind.code.isLt
  have hsym := n.sym.isLt
  have hleft := n.left.word.isLt
  have hsk := two_fields_toNat n.sym n.kind.code (by decide)
  have hlsk := field_or_toNat n.left.word (k := 10) (hsk.trans_lt (by omega)) (by decide)
  have hrlsk := field_or_toNat n.right.word (k := 20) ((hlsk.trans (by rw [hsk])).trans_lt (by omega)) (by decide)
  rw [trdData, BitVec.or_assoc, BitVec.or_assoc, hrlsk, hlsk, hsk, Ptr.word_toNat, Ptr.word_toNat]
  omega

/-! ## The root's flags -/

theorem atRoot_iff {s : State} : atRoot s = true ↔ s.cur = s.root := by rw [atRoot, decide_eq_true_iff, Ptr.word_inj]

theorem rootV_of_null {s : State} (h : s.root = .null) : rootV s = false := by
  rw [rootV, h]
  rfl

theorem rootV_of_node {s : State} {i : NodeIdx} (h : s.root = .node i) : rootV s = true := by
  have hi := i.isLt
  rw [rootV, h, BitVec.getLsbD, Nat.testBit_eq_decide_div_mod_eq, Ptr.word_toNat, ptrValue, decide_eq_true_iff]
  omega

/-! ## The code table's obligations -/

/-- CTBIT's word as its rule writes it, and as match word and fields. -/
theorem or_three_assoc (w a b c : Word) : w ||| (a ||| b ||| c) = w ||| a ||| b ||| c := by
  rw [← BitVec.or_assoc, ← BitVec.or_assoc]

/-- Settles O23: CTLEN writes one entry, and a code of zero bits is read off its length. -/
theorem ctlenOpensEntry : Obligations.CtlenOpensEntry := by
  unfold Obligations.CtlenOpensEntry
  refine fun sym len => ⟨decode_word (o := .ctlen) (by decide) rfl rfl (BitVec.or_assoc _ _ _).symm,
    fun s hs herr => ⟨_, exec_ctlen_of_ok herr sym len, ?_⟩⟩
  obtain ⟨hentry, hframe⟩ := wroteEntry_setCtEntry hs sym ⟨len, 0⟩
  refine ⟨by rw [hentry], fun i => ?_, ?_, hframe⟩
  · rw [hentry]
    exact BitVec.getLsbD_zero
  · rw [codeOf_of_code_zero (by rw [hentry]), hentry]

/-- Settles O24: CTBIT writes the entry it read with one bit of its code set, and keeps the length. -/
theorem ctbitWritesOneBit : Obligations.CtbitWritesOneBit := by
  unfold Obligations.CtbitWritesOneBit
  refine fun sym idx b => ⟨decode_word (o := .ctbit) (by decide) rfl rfl (or_three_assoc _ _ _ _),
    fun s hs herr => ⟨_, exec_ctbit_of_ok herr sym idx b, ?_⟩⟩
  obtain ⟨hentry, hframe⟩ :=
    wroteEntry_setCtEntry hs sym ⟨(ctEntry s sym).len, setBit (ctEntry s sym).code idx.toNat b⟩
  refine ⟨by rw [hentry], fun i _ => ?_, hframe⟩
  rw [hentry]
  exact setBit_getLsbD _ _ _ _ idx.isLt

/-- Settles O22: CTCLR leaves a store that lists nothing, so every entry reads as the empty one, and ESYM finds no code of
length above 0. -/
theorem ctclrEmptiesTable : Obligations.CtclrEmptiesTable := by
  unfold Obligations.CtclrEmptiesTable
  refine ⟨by decide, fun s herr => ⟨_, exec_ctclr_of_ok herr, ?_⟩⟩
  exact ⟨fun _ => ⟨rfl, fun _ => BitVec.getLsbD_zero⟩, rfl, rfl, sameBytes_of_eq rfl rfl,
    fun _ => esym_raises_of_no_code herr rfl⟩

/-- Settles O25: CTRD only responds, with the entry's length and code bit. -/
theorem ctrdReadsEntry : Obligations.CtrdReadsEntry := by
  unfold Obligations.CtrdReadsEntry
  exact fun sym idx => ⟨decode_word (o := .ctrd) (by decide) rfl rfl (BitVec.or_assoc _ _ _).symm, fun s herr =>
    ⟨_, _, exec_ctrd_of_ok herr sym idx, rfl, ctrdData_toNat _ idx, sameBytes_of_eq rfl rfl⟩⟩

/-! ## The tree's obligations -/

/-- Settles O27: each of the three writes one whole node. -/
theorem nodeCommandsWriteNode : Obligations.NodeCommandsWriteNode := by
  unfold Obligations.NodeCommandsWriteNode
  refine fun idx sym => ⟨decode_word (o := .tleaf) (by decide) rfl rfl (BitVec.or_assoc _ _ _).symm,
    decode_word (o := .tint) (by decide) rfl rfl rfl, decode_word (o := .tsngl) (by decide) rfl rfl rfl,
    fun s hs herr i n hin => ⟨_, ?_, wroteNode_setTnNode hs idx n⟩⟩
  obtain ⟨rfl, rfl⟩ | ⟨rfl, rfl⟩ | ⟨rfl, rfl⟩ := hin
  · exact exec_tleaf_of_ok herr idx sym
  · exact exec_tint_of_ok herr idx
  · exact exec_tsngl_of_ok herr idx

/-- Settles O28: each of the two writes the node it read with one pointer replaced. -/
theorem childCommandsWritePointer : Obligations.ChildCommandsWritePointer := by
  unfold Obligations.ChildCommandsWritePointer
  exact fun idx c => ⟨decode_word (o := .tleft) (by decide) rfl rfl (BitVec.or_assoc _ _ _).symm,
    decode_word (o := .tright) (by decide) rfl rfl (BitVec.or_assoc _ _ _).symm,
    fun s hs herr => ⟨⟨_, exec_tleft_of_ok herr idx c, wroteNode_setTnNode hs idx _⟩,
      ⟨_, exec_tright_of_ok herr idx c, wroteNode_setTnNode hs idx _⟩⟩⟩

/-- Settles O30: TRD only responds, with the node's fields packed. -/
theorem trdReadsNode : Obligations.TrdReadsNode := by
  unfold Obligations.TrdReadsNode
  exact fun idx => ⟨decode_word (o := .trd) (by decide) rfl rfl rfl, fun s herr =>
    ⟨_, _, exec_trd_of_ok herr idx, rfl, trdData_toNat _, sameBytes_of_eq rfl rfl⟩⟩

/-- Settles O26: TCLR leaves a store that lists nothing and a NULL root, and writes neither CUR nor a buffer. -/
theorem tclrEmptiesTree : Obligations.TclrEmptiesTree := by
  unfold Obligations.TclrEmptiesTree
  refine ⟨by decide, fun s herr => ⟨_, exec_tclr_of_ok herr, ?_⟩⟩
  exact ⟨fun _ => rfl, rfl, rootV_of_null rfl, atRoot_iff, rfl, rfl, sameBytes_of_eq rfl rfl⟩

/-- Settles O29: TROOT writes ROOT and the response, and the flags follow from the new ROOT. -/
theorem trootSetsRoot : Obligations.TrootSetsRoot := by
  unfold Obligations.TrootSetsRoot
  exact fun idx => ⟨decode_word (o := .troot) (by decide) rfl rfl rfl, fun s herr =>
    ⟨_, exec_troot_of_ok herr idx, rfl, rootV_of_node rfl, atRoot_iff, sameBytes_of_eq rfl rfl⟩⟩

end Sys2Proof.Machine
end

section
/-! SUPPORT. The bit packer (41_bitpacker): what pushing bits does to the sequence the packer holds, to the pad of ACC and to
the bytes of PAY; the count of bits; what PCLR, PBITS and PFLUSH do outside the fault state. -/

namespace Sys2Proof.Machine

open Sys2Proof.Claims

/-! ## The bits of a byte, first first -/

/-- The first `k` bits of a byte in the order of 20_memory R40: `v[7], v[6], …`. -/
def leadBits (v : Byte) (k : Nat) : List Bool := (List.range k).map (fun j => v.getLsbD (7 - j))

theorem accBits_eq_leadBits (s : State) : accBits s = leadBits s.acc s.nb.toNat := rfl

/-- Writing bit `7 - k` adds one bit after the first `k`. -/
theorem leadBits_setBit (v : Byte) {k : Nat} (hk : k < 8) (b : Bool) :
    leadBits (setBit v (7 - k) b) (k + 1) = leadBits v k ++ [b] := by
  rw [leadBits, List.range_succ, List.map_append, leadBits]
  congr 1
  · refine List.map_congr_left fun j hj => ?_
    have hjk : j < k := List.mem_range.1 hj
    rw [setBit_getLsbD _ _ _ _ (by omega), if_neg (by omega)]
  · rw [List.map_singleton, setBit_getLsbD _ _ _ _ (by omega), if_pos rfl]

/-- A byte appended to PAY adds its eight bits after those of the bytes before it. -/
theorem payBits_appendPay {s : State} (hpay : s.pay.wf = true) (hlen : (s.payLen + 1).toNat = s.payLen.toNat + 1)
    (v : Byte) : payBits (appendPay v s) = payBits s ++ leadBits v 8 := by
  rw [payBits, appendPay_payLen, hlen, Nat.mul_succ, List.range_add, List.map_append, List.map_map, payBits, leadBits]
  congr 1
  · refine List.map_congr_left fun p hp => ?_
    have hp' : p < 8 * s.payLen.toNat := List.mem_range.1 hp
    rw [payBit, payByte_appendPay hpay, if_neg (by omega), payBit]
  · refine List.map_congr_left fun j hj => ?_
    have hj' : j < 8 := List.mem_range.1 hj
    rw [Function.comp_apply, payBit, payByte_appendPay hpay, if_pos (by omega), Nat.mul_add_mod, Nat.mod_eq_of_lt hj']

theorem packedBits_of_empty {s : State} (hlen : s.payLen = 0) (hnb : s.nb = 0) : packedBits s = [] := by
  rw [packedBits, payBits, accBits, hlen, hnb]
  rfl

/-! ## Pushing bits -/

/-- From `s` to `t` the packer took in `bs` after the bits it held, with its pad kept zero, and wrote no byte of PAY but
those it completed. -/
structure Packs (bs : List Bool) (s t : State) : Prop where
  canonical : t.canonical = true
  bits : packedBits t = packedBits s ++ bs
  pad : AccPad s → AccPad t
  payLen_le : s.payLen.toNat ≤ t.payLen.toNat
  kept : ∀ a, a < s.payLen.toNat ∨ t.payLen.toNat ≤ a → payByte t a = payByte s a

theorem Packs.refl {s : State} (h : s.canonical = true) : Packs [] s s :=
  ⟨h, (List.append_nil _).symm, id, Nat.le_refl _, fun _ _ => rfl⟩

theorem Packs.trans {as bs : List Bool} {s t u : State} (h : Packs as s t) (h' : Packs bs t u) : Packs (as ++ bs) s u where
  canonical := h'.canonical
  bits := by rw [h'.bits, h.bits, List.append_assoc]
  pad := h'.pad ∘ h.pad
  payLen_le := h.payLen_le.trans h'.payLen_le
  kept := fun a ha => by
    have := h.payLen_le
    have := h'.payLen_le
    rw [h'.kept a (by omega), h.kept a (by omega)]

/-- The eighth bit completes ACC, which becomes the next byte of PAY. -/
theorem packs_pushBit_of_completes {s : State} (h : s.canonical = true) (h7 : s.nb = 7)
    (hlen : (s.payLen + 1).toNat = s.payLen.toNat + 1) (b : Bool) : Packs [b] s (pushBit b s) := by
  obtain ⟨hct, htn, hpay, hout⟩ := State.canonical_iff.1 h
  have hnb : s.nb.toNat = 7 := by rw [h7]; rfl
  rw [pushBit, if_pos h7]
  refine ⟨State.canonical_iff.2 ⟨hct, htn, Memory.wf_write hpay _ _, hout⟩, ?_, fun _ _ _ => BitVec.getLsbD_zero, ?_,
    fun a ha => ?_⟩
  · have hbyte := leadBits_setBit s.acc (show s.nb.toNat < 8 by omega) b
    rw [hnb] at hbyte ⊢
    calc payBits (appendPay (setBit s.acc (7 - 7) b) s) ++ []
        = payBits s ++ leadBits (setBit s.acc (7 - 7) b) 8 := by rw [List.append_nil, payBits_appendPay hpay hlen]
      _ = payBits s ++ (accBits s ++ [b]) := by rw [hbyte, accBits_eq_leadBits, hnb]
      _ = packedBits s ++ [b] := by rw [packedBits, List.append_assoc]
  · exact (Nat.le_succ _).trans_eq hlen.symm
  · have hne : a ≠ s.payLen.toNat := by
      have ha' : a < s.payLen.toNat ∨ (s.payLen + 1).toNat ≤ a := ha
      omega
    exact (payByte_appendPay hpay _ a).trans (if_neg hne)

/-- Before the eighth bit, a bit goes to the highest unfilled bit of ACC and PAY is not touched. -/
theorem packs_pushBit_of_fits {s : State} (h : s.canonical = true) (h7 : s.nb.toNat < 7) (b : Bool) :
    Packs [b] s (pushBit b s) := by
  have hne : s.nb ≠ 7 := fun he => by rw [he] at h7; exact absurd h7 (by decide)
  have hnb : (s.nb + 1).toNat = s.nb.toNat + 1 := by
    rw [BitVec.toNat_add]
    exact Nat.mod_eq_of_lt (by simp; omega)
  rw [pushBit, if_neg hne]
  refine ⟨h, ?_, fun hpad i hi => ?_, Nat.le_refl _, fun _ _ => rfl⟩
  · calc payBits s ++ leadBits (setBit s.acc (7 - s.nb.toNat) b) (s.nb + 1).toNat
        = payBits s ++ (accBits s ++ [b]) := by rw [hnb, leadBits_setBit _ (by omega), accBits_eq_leadBits]
      _ = packedBits s ++ [b] := by rw [packedBits, List.append_assoc]
  · have hi' : i < 8 - (s.nb + 1).toNat := hi
    show (setBit s.acc (7 - s.nb.toNat) b).getLsbD i = false
    rw [setBit_getLsbD _ _ _ _ (by omega), if_neg (by omega)]
    exact hpad i (by omega)

/-- PushBit packs its bit (41_bitpacker R100), where PAYLEN does not pass its 25 bits. -/
theorem packs_pushBit {s : State} (h : s.canonical = true) (b : Bool)
    (hroom : s.payLen.toNat + (s.nb.toNat + 1) / 8 < 2 ^ 25) : Packs [b] s (pushBit b s) := by
  by_cases h7 : s.nb = 7
  · have hnb : s.nb.toNat = 7 := by rw [h7]; rfl
    have hlen : (s.payLen + 1).toNat = s.payLen.toNat + 1 := by
      rw [BitVec.toNat_add]
      exact Nat.mod_eq_of_lt (by simp; omega)
    exact packs_pushBit_of_completes h h7 hlen b
  · have hne : s.nb.toNat ≠ 7 := fun he => h7 (BitVec.eq_of_toNat_eq he)
    have hlt := s.nb.isLt
    exact packs_pushBit_of_fits h (by omega) b

theorem packs_pushBits {s : State} (h : s.canonical = true) (bs : List Bool)
    (hroom : s.payLen.toNat + (s.nb.toNat + bs.length) / 8 < 2 ^ 25) : Packs bs s (pushBits bs s) := by
  induction bs generalizing s with
  | nil => exact .refl h
  | cons b bs ih =>
    rw [List.length_cons] at hroom
    obtain ⟨hlen, hnb⟩ := pushBit_count b s (by omega)
    have hfirst := packs_pushBit h b (by omega)
    exact hfirst.trans (ih hfirst.canonical (by rw [hlen, hnb]; omega))

/-- A checked push for which there is room pushes its bits and counts them: PBITS and ESYM that do not fault. -/
theorem pushed_pushChecked {s : State} (h : s.canonical = true) (bs : List Bool) (d : Word)
    (hroom : s.payLen.toNat + (s.nb.toNat + bs.length) / 8 ≤ s.payCap.toNat) : Pushed bs d s (pushChecked bs d s) := by
  obtain ⟨hfull, -⟩ | ⟨-, hp⟩ := pushChecked_cases bs d s
  · omega
  · have hcap := s.payCap.isLt
    obtain ⟨hlen, hnb⟩ := pushBits_count bs s (by omega)
    have hpacks := packs_pushBits h bs (by omega)
    have hframe := pushBits_frame bs s
    have hout := congrArg Prod.fst (pushChecked_outBuf bs d s)
    rw [hp] at hout ⊢
    refine ⟨hpacks.bits, hlen, hnb, rfl, hpacks.pad, fun a ha => hpacks.kept a (by rwa [hlen]), fun a => ?_, rfl, ?_⟩
    · exact congrArg (fun m : Memory => m.read a) hout
    · exact congrArg (fun t : State => respond .ok d { t with ebits := s.ebits + BitVec.ofNat 64 bs.length }) hframe

/-! ## The count of bits -/

/-- PAYLEN and NB are the quotient and the remainder of the bits counted (41_bitpacker R100 (b)). -/
theorem tracks_iff {s : State} : Tracks s ↔ s.payLen.toNat = s.ebits.toNat / 8 ∧ s.nb.toNat = s.ebits.toNat % 8 := by
  have hnb := s.nb.isLt
  unfold Tracks
  omega

/-- A checked push counts the bits it pushes, and none where it faults. EBITS does not wrap, since the bytes fit in PAY. -/
theorem tracks_pushChecked {s : State} (h : Tracks s) (bs : List Bool) (d : Word) : Tracks (pushChecked bs d s) := by
  obtain ⟨-, hp⟩ | ⟨hroom, hp⟩ := pushChecked_cases bs d s
  · rw [hp]
    exact h
  · have hcap := s.payCap.isLt
    obtain ⟨hlen, hnb⟩ := pushBits_count bs s (by omega)
    unfold Tracks at h
    have hebits : (s.ebits + BitVec.ofNat 64 bs.length).toNat = s.ebits.toNat + bs.length := by
      rw [BitVec.toNat_add, BitVec.toNat_ofNat, Nat.add_mod_mod, Nat.mod_eq_of_lt (by omega)]
    rw [hp]
    show (s.ebits + BitVec.ofNat 64 bs.length).toNat = 8 * (pushBits bs s).payLen.toNat + (pushBits bs s).nb.toNat
    rw [hebits, hlen, hnb]
    omega

theorem tracks_pbits {n : BitVec 5} {v : BitVec 16} {s t : State} (h : Tracks s) (hexec : exec (.pbits n v) s = .next t) :
    Tracks t := by
  rw [exec, execPbits] at hexec
  obtain ⟨-, rfl⟩ | ⟨-, rfl⟩ := command_cases hexec
  · exact tracks_pushChecked h _ _
  · exact h

theorem tracks_esym {sym : Sym} {s t : State} (h : Tracks s) (hexec : exec (.esym sym) s = .next t) : Tracks t := by
  rw [exec, execEsym] at hexec
  obtain ⟨-, rfl⟩ | ⟨-, rfl⟩ := command_cases hexec
  · dsimp only
    split_ifs
    · exact h
    · exact tracks_pushChecked h _ _
  · exact h

/-! ## A bit that is left and not there -/

theorem dbits_not_le_of_lt {s : State} (h : s.dpos.toNat < s.dbits.toNat) : ¬ s.dbits ≤ s.dpos := by
  rw [BitVec.le_def]
  omega

theorem nextBit_not_available {s : State} (h : s.payLen.toNat ≤ s.dpos.toNat / 8) : ¬ nextBitAvailable s = true := by
  rw [nextBitAvailable, decide_eq_true_iff]
  omega

/-! ## The commands outside the fault state -/

section
variable {s : State} (herr : s.err = 0)
include herr

theorem exec_pclr_of_ok :
    exec .pclr s = .next (respond .ok 0 { s with acc := 0, nb := 0, ebits := 0, pay := [], payLen := 0 }) := by
  rw [exec, execPclr, command_of_ok herr]

theorem exec_pbits_of_ok (n : BitVec 5) (v : BitVec 16) :
    exec (.pbits n v) s = .next (pushChecked (bitsDown v n.toNat) 0 s) := by
  rw [exec, execPbits, command_of_ok herr]

theorem exec_pflush_of_empty (hnb : s.nb = 0) : exec .pflush s = .next (respond .ok 0 s) := by
  rw [exec, execPflush, command_of_ok herr, if_pos hnb]

theorem pflush_raises_of_full (hnb : s.nb ≠ 0) (hfull : s.payLen = s.payCap) : Raises .pflush s .bufferFull 0 := by
  refine raises_of_rule (by rw [exec, execPflush]) herr ?_
  rw [if_neg hnb, if_pos hfull]

theorem exec_pflush_of_partial (hnb : s.nb ≠ 0) (hroom : s.payLen ≠ s.payCap) :
    exec .pflush s = .next (respond .ok 0 { appendPay s.acc s with acc := 0, nb := 0 }) := by
  rw [exec, execPflush, command_of_ok herr, if_neg hnb, if_neg hroom]

/-- UBIT where a bit is left and its byte is not in PAY (43_bitunpacker R123). -/
theorem ubit_raises_of_byte_missing (hleft : s.dpos.toNat < s.dbits.toNat) (hbyte : s.payLen.toNat ≤ s.dpos.toNat / 8) :
    Raises .ubit s .payloadShort (low s.dpos) := by
  refine raises_of_rule (by rw [exec, execUbit]) herr ?_
  rw [if_neg (dbits_not_le_of_lt hleft), if_neg (nextBit_not_available hbyte), low32_eq_low]

/-- DSTEP where a bit is left and its byte is not in PAY (44_decoder R131). -/
theorem dstep_raises_of_byte_missing (hleft : s.dpos.toNat < s.dbits.toNat)
    (hbyte : s.payLen.toNat ≤ s.dpos.toNat / 8) : Raises .dstep s .payloadShort (low s.dpos) := by
  refine raises_of_rule (by rw [exec, execDstep]) herr ?_
  simp only [if_neg (dbits_not_le_of_lt hleft), walkPass, if_neg (nextBit_not_available hbyte), low32_eq_low]

end

/-! ## PBITS's operands -/

theorem bitsDown_eq_map {w : Nat} (v : BitVec w) (n : Nat) :
    bitsDown v n = (List.range n).map (fun j => v.getLsbD (n - 1 - j)) := by
  induction n with
  | zero => rfl
  | succ n ih =>
    rw [bitsDown, ih, List.range_succ_eq_map, List.map_cons, List.map_map]
    congr 1
    refine List.map_congr_left fun j _ => ?_
    rw [Function.comp_apply, Nat.succ_eq_add_one]
    congr 1
    omega

theorem bitsDown_eq_pbitsBits (n : BitVec 5) (v : BitVec 16) : bitsDown v n.toNat = pbitsBits n v :=
  bitsDown_eq_map v n.toNat

/-- The field `cnt` of a well-formed PBITS holds its bit count less 1 (30_encoding R63). -/
theorem pbitsField_eq {n : BitVec 5} (hlo : 1 ≤ n.toNat) (hhi : n.toNat ≤ 16) :
    (((n - 1).setWidth 4).setWidth 32 <<< 16 : Word) = BitVec.ofNat 32 ((n.toNat - 1) * 65536) := by
  revert n
  decide

theorem decode_pbits_word {n : BitVec 5} {v : BitVec 16} (hwf : (Instr.pbits n v).wellFormed = true) :
    decode (0x64000000 ||| BitVec.ofNat 32 ((n.toNat - 1) * 65536) ||| v.setWidth 32) = .ok (.pbits n v) := by
  obtain ⟨hlo, hhi⟩ : 1 ≤ n.toNat ∧ n.toNat ≤ 16 := by simpa [Instr.wellFormed] using hwf
  refine decode_word (o := .pbits) (m := 0x64000000) (by decide) rfl hwf ?_
  rw [Instr.fields, pbitsField_eq hlo hhi, BitVec.or_assoc]

/-! ## The packer's obligations -/

/-- Settles O31: PushBit packs its bit, PCLR leaves an empty packer that counts nothing, and PBITS and ESYM count what they
push. -/
theorem pushBitAppendsOneBit : Obligations.PushBitAppendsOneBit := by
  unfold Obligations.PushBitAppendsOneBit
  refine ⟨fun b s hs hroom => ?_, fun s t hexec herr => ?_, fun i s t hi _ htracks hexec => ?_⟩
  · have hpacks := packs_pushBit hs b hroom
    obtain ⟨hlen, hnb⟩ := pushBit_count b s hroom
    exact ⟨hpacks.bits, hpacks.pad, by omega, pushBit_frame b s⟩
  · rw [exec_pclr_of_ok herr] at hexec
    cases hexec
    exact ⟨rfl, packedBits_of_empty rfl rfl⟩
  · have ht : Tracks t := by
      obtain ⟨n, v, rfl⟩ | ⟨sym, rfl⟩ := hi
      · exact tracks_pbits htracks hexec
      · exact tracks_esym htracks hexec
    exact ⟨ht, tracks_iff.1 ht⟩

/-- Settles O32: PBITS is a checked push of its operand's bits. -/
theorem pbitsPushesBits : Obligations.PbitsPushesBits := by
  unfold Obligations.PbitsPushesBits
  refine fun n v => ⟨decode_pbits_word, fun s hs herr => ⟨fun hroom => ?_, fun hfull => ?_⟩⟩
  · rw [← bitsDown_eq_pbitsBits]
    exact ⟨_, exec_pbits_of_ok herr n v, pushed_pushChecked hs _ 0 (by rwa [bitsDown_length])⟩
  · refine raises_of_rule (by rw [exec, execPbits]) herr ?_
    obtain ⟨-, hp⟩ | ⟨hroom, -⟩ := pushChecked_cases (bitsDown v n.toNat) 0 s
    · exact hp
    · rw [bitsDown_length] at hroom
      omega

/-- Settles O34: with NB = 0 PFLUSH only responds; else it faults or appends ACC, whose pad the invariant keeps zero. -/
theorem pflushPadsAndAppends : Obligations.PflushPadsAndAppends := by
  unfold Obligations.PflushPadsAndAppends Tracks
  refine ⟨by decide, fun s hi herr => ⟨fun hnb => ⟨exec_pflush_of_empty herr hnb, fun htracks => ?_⟩,
    pflush_raises_of_full herr, fun hnb hroom => ⟨_, exec_pflush_of_partial herr hnb hroom, ?_⟩⟩⟩
  · rw [hnb] at htracks
    simp only [BitVec.ofNat_eq_ofNat, BitVec.toNat_ofNat] at htracks
    omega
  · obtain ⟨-, -, hpay, -⟩ := hi.canonical_parts
    have hlen := payLen_succ (hi.payLen_lt hroom) hi.payCap.2
    have hbyte : payByte (appendPay s.acc s) s.payLen.toNat = s.acc := (payByte_appendPay hpay _ _).trans (if_pos rfl)
    refine ⟨hbyte, fun i hlt => ?_, fun a ha => (payByte_appendPay hpay _ a).trans (if_neg ha), fun _ => rfl, hlen,
      fun htracks => ?_, rfl⟩
    · exact (congrArg (fun v : Byte => v.getLsbD i) hbyte).trans (hi.accPad i hlt)
    · have hpos : s.nb.toNat ≠ 0 := fun he => hnb (BitVec.eq_of_toNat_eq he)
      have hlt := s.nb.isLt
      show (s.payLen + 1).toNat = (s.ebits.toNat + 7) / 8
      omega

/-- Settles O33: with PAYLEN 0 no index is below it and no byte of a bit is there. -/
theorem pclrEmptiesPacker : Obligations.PclrEmptiesPacker := by
  unfold Obligations.PclrEmptiesPacker
  refine ⟨by decide, fun s herr => ⟨_, exec_pclr_of_ok herr, rfl, fun _ => rfl, packedBits_of_empty rfl rfl,
    fun _ => payr_raises_of_payLen_le herr (Nat.zero_le _), fun hleft => ⟨?_, ?_⟩⟩⟩
  · exact ubit_raises_of_byte_missing herr hleft (Nat.zero_le _)
  · exact dstep_raises_of_byte_missing herr hleft (Nat.zero_le _)

end Sys2Proof.Machine
end

section
/-! SUPPORT. The encoder (42_encoder): everything ESYM can do, what the packer takes in from it, and what a sequence of ESYM
that ends without a fault leaves in the packer. -/

namespace Sys2Proof.Machine

open Sys2Proof.Claims

/-! ## A symbol's code -/

theorem ctEntry_bits (s : State) (sym : Sym) : (ctEntry s sym).bits = codeOf s sym := rfl

theorem codeOf_length (s : State) (sym : Sym) : (codeOf s sym).length = (ctEntry s sym).len.toNat := by
  rw [codeOf, List.length_map, List.length_range]

theorem codeOf_eq_of_ct_eq {s t : State} (h : t.ct = s.ct) : codeOf t = codeOf s := by
  funext sym
  rw [codeOf, ctEntry, h, codeOf, ctEntry]

/-! ## One ESYM -/

/-- ESYM of a symbol with a code is a checked push of that code (42_encoder R110). -/
theorem exec_esym_of_code {s : State} {sym : Sym} (herr : s.err = 0) (hlen : (ctEntry s sym).len ≠ 0) :
    exec (.esym sym) s = .next (pushChecked (codeOf s sym) ((ctEntry s sym).len.setWidth 32) s) := by
  rw [exec, execEsym, command_of_ok herr, if_neg hlen, ctEntry_bits]

/-- Everything ESYM can do: the refusal, the fault of a symbol with no code, a checked push of the code. -/
theorem exec_esym_cases {s t : State} {sym : Sym} (hexec : exec (.esym sym) s = .next t) :
    (s.err ≠ 0 ∧ t = refuse s) ∨
    (s.err = 0 ∧ (ctEntry s sym).len = 0 ∧ t = raise .corruptCodeTable (sym.setWidth 32) s) ∨
    (s.err = 0 ∧ (ctEntry s sym).len ≠ 0 ∧
      t = pushChecked (codeOf s sym) ((ctEntry s sym).len.setWidth 32) s) := by
  by_cases herr : s.err = 0
  · by_cases hlen : (ctEntry s sym).len = 0
    · rw [esym_raises_of_no_code herr hlen] at hexec
      cases hexec
      exact .inr (.inl ⟨herr, hlen, rfl⟩)
    · rw [exec_esym_of_code herr hlen] at hexec
      cases hexec
      exact .inr (.inr ⟨herr, hlen, rfl⟩)
  · rw [exec, execEsym, command_of_fault herr] at hexec
    cases hexec
    exact .inl ⟨herr, rfl⟩

/-- ESYM does not leave the fault state. -/
theorem err_eq_zero_of_esym {s t : State} {sym : Sym} (hexec : exec (.esym sym) s = .next t) (hok : t.err = 0) :
    s.err = 0 := by
  obtain ⟨-, rfl⟩ | ⟨herr, -⟩ | ⟨herr, -⟩ := exec_esym_cases hexec
  · exact hok
  · exact herr
  · exact herr

theorem raise_err_ne_zero (c : Cause) (info : Word) (s : State) : (raise c info s).err ≠ 0 := by
  rw [raise_err]
  exact c.code_ne_zero

/-- A checked push that ends without a fault packs its bits. -/
theorem packs_pushChecked {s : State} (h : s.canonical = true) {bs : List Bool} {d : Word}
    (hok : (pushChecked bs d s).err = 0) : Packs bs s (pushChecked bs d s) := by
  obtain ⟨-, hp⟩ | ⟨hroom, hp⟩ := pushChecked_cases bs d s
  · rw [hp] at hok
    exact absurd hok (raise_err_ne_zero _ _ _)
  · have hcap := s.payCap.isLt
    obtain ⟨hcanon, hbits, hpad, hle, hkept⟩ := packs_pushBits h bs (by omega)
    rw [hp]
    exact ⟨hcanon, hbits, hpad, hle, hkept⟩

/-- ESYM that ends without a fault packs its symbol's code. -/
theorem packs_esym {s t : State} {sym : Sym} (h : s.canonical = true) (hexec : exec (.esym sym) s = .next t)
    (hok : t.err = 0) : Packs (codeOf s sym) s t := by
  obtain ⟨herr, rfl⟩ | ⟨-, -, rfl⟩ | ⟨-, -, rfl⟩ := exec_esym_cases hexec
  · exact absurd hok herr
  · exact absurd hok (raise_err_ne_zero _ _ _)
  · exact packs_pushChecked h hok

/-! ## A sequence of ESYM -/

/-- A sequence runs through if its first command does and the rest does from there. -/
theorem runAll_cons_eq_next {i : Instr} {is : List Instr} {s t : State} :
    runAll (i :: is) s = .next t ↔ ∃ u, exec i s = .next u ∧ runAll is u = .next t := by
  rw [runAll]
  cases exec i s <;> simp

theorem runAll_estr_cons {b : Byte} {bytes : List Byte} {s t : State} :
    runAll (estr (b :: bytes)) s = .next t ↔ ∃ u, exec (.esym b) s = .next u ∧ runAll (estr bytes) u = .next t :=
  runAll_cons_eq_next

/-- If no fault stands at the end of a sequence of ESYM, none stood at its beginning. -/
theorem err_eq_zero_of_estr {bytes : List Byte} {s t : State} (hrun : runAll (estr bytes) s = .next t)
    (hok : t.err = 0) : s.err = 0 := by
  induction bytes generalizing s with
  | nil =>
    cases hrun
    exact hok
  | cons b bytes ih =>
    obtain ⟨u, hexec, hrest⟩ := runAll_estr_cons.1 hrun
    exact err_eq_zero_of_esym hexec (ih hrest)

/-- A sequence of ESYM that ends without a fault packs the codes in input order: none of them changes CT. -/
theorem packs_estr {bytes : List Byte} {s t : State} (h : s.canonical = true)
    (hrun : runAll (estr bytes) s = .next t) (hok : t.err = 0) : Packs (bytes.flatMap (codeOf s)) s t := by
  induction bytes generalizing s with
  | nil =>
    cases hrun
    exact .refl h
  | cons b bytes ih =>
    obtain ⟨u, hexec, hrest⟩ := runAll_estr_cons.1 hrun
    have hfirst := packs_esym h hexec (err_eq_zero_of_estr hrest hok)
    have hcode : codeOf u = codeOf s := codeOf_eq_of_ct_eq (exec_keeps_ct rfl hexec)
    exact hfirst.trans (hcode ▸ ih hfirst.canonical hrest)

theorem tracks_estr {bytes : List Byte} {s t : State} (h : Tracks s) (hrun : runAll (estr bytes) s = .next t) :
    Tracks t := by
  induction bytes generalizing s with
  | nil =>
    cases hrun
    exact h
  | cons b bytes ih =>
    obtain ⟨u, hexec, hrest⟩ := runAll_estr_cons.1 hrun
    exact ih (tracks_esym h hexec) hrest

/-! ## The bits held, counted -/

theorem packedBits_length (s : State) : (packedBits s).length = 8 * s.payLen.toNat + s.nb.toNat := by
  rw [packedBits, payBits, accBits, List.length_append, List.length_map, List.length_range, List.length_map,
    List.length_range]

theorem tracks_iff_packedBits_length {s : State} : Tracks s ↔ s.ebits.toNat = (packedBits s).length := by
  rw [Tracks, packedBits_length]

theorem tracks_of_empty {s : State} (hlen : s.payLen = 0) (hnb : s.nb = 0) (hebits : s.ebits = 0) : Tracks s := by
  rw [Tracks, hlen, hnb, hebits]
  rfl

/-- The concatenation of the codes is as long as their lengths together. -/
theorem flatMap_codeOf_length (s : State) (bytes : List Byte) :
    (bytes.flatMap (codeOf s)).length = (bytes.map (fun b => (ctEntry s b).len.toNat)).sum := by
  rw [List.length_flatMap]
  simp only [codeOf_length]

/-! ## The encoder's obligations -/

/-- Settles O35: ESYM of a symbol with a code is a checked push of that code. -/
theorem esymAppendsCode : Obligations.EsymAppendsCode := by
  unfold Obligations.EsymAppendsCode
  refine fun sym => ⟨decode_word (o := .esym) (by decide) rfl rfl rfl, fun s hs herr =>
    ⟨esym_raises_of_no_code herr, fun hlen hfull => ?_, fun hlen hroom => ⟨_, exec_esym_of_code herr hlen, ?_⟩⟩⟩
  · obtain ⟨-, hp⟩ | ⟨hroom, -⟩ := pushChecked_cases (codeOf s sym) ((ctEntry s sym).len.setWidth 32) s
    · rw [Raises, exec_esym_of_code herr hlen, hp]
      rfl
    · rw [codeOf_length] at hroom
      omega
  · exact pushed_pushChecked hs _ _ (by rwa [codeOf_length])

/-- Settles O36: the sequence packs the concatenation of the codes, and EBITS, which counts the bits held, is its length.
With no ESYM nothing is held, so PFLUSH only responds. -/
theorem esymSequenceConcatenates : Obligations.EsymSequenceConcatenates := by
  unfold Obligations.EsymSequenceConcatenates
  refine ⟨fun bytes s t hs _ hlen hnb hebits hrun hok => ?_, fun s herr hlen hnb hebits => ?_⟩
  · have hbits : packedBits t = bytes.flatMap (codeOf s) := by
      rw [(packs_estr hs hrun hok).bits, packedBits_of_empty hlen hnb, List.nil_append]
    have htracks : Tracks t := tracks_estr (tracks_of_empty hlen hnb hebits) hrun
    exact ⟨hbits, by rw [tracks_iff_packedBits_length.1 htracks, hbits, flatMap_codeOf_length]⟩
  · exact ⟨respond .ok 0 s, runAll_cons_eq_next.2 ⟨_, exec_pflush_of_empty herr hnb, rfl⟩, hlen, hebits,
      packedBits_of_empty hlen hnb⟩

end Sys2Proof.Machine
end

section
/-! SUPPORT. The bit unpacker (43_bitunpacker): a slice of the staged count bit by bit, what DCNT, DSTART and UBIT do
outside the fault state, and the payload's pad and surplus, which UBIT, DSTEP and DRUN do not read. -/

namespace Sys2Proof.Machine

open Sys2Proof.Claims

/-! ## The staged count, the cursor, the bit read -/

theorem sliceMask_getLsbD (i : Nat) : (0xFFFF : Count).getLsbD i = decide (i < 16) := by
  have hmask : (0xFFFF : Count) = (BitVec.allOnes 16).setWidth 64 := by decide
  rw [hmask, BitVec.getLsbD_setWidth, BitVec.getLsbD_allOnes, ← Bool.decide_and, decide_eq_decide]
  omega

/-- Bit `j` lies in slice `j div 16`, at `j mod 16`. -/
theorem setSlice_getLsbD (v : Count) (k : BitVec 2) (imm : BitVec 16) {j : Nat} (hj : j < 64) :
    (setSlice v k imm).getLsbD j = if j / 16 = k.toNat then imm.getLsbD (j % 16) else v.getLsbD j := by
  simp only [setSlice, BitVec.getLsbD_or, BitVec.getLsbD_and, BitVec.getLsbD_not, BitVec.getLsbD_shiftLeft,
    BitVec.getLsbD_setWidth, sliceMask_getLsbD, hj]
  by_cases hk : j / 16 = k.toNat
  · have hlow : ¬ j < 16 * k.toNat := by omega
    have hpos : j - 16 * k.toNat = j % 16 := by omega
    have hin : j % 16 < 16 := by omega
    have hin' : j % 16 < 64 := by omega
    simp [hk, hlow, hpos, hin, hin']
  · rw [if_neg hk]
    by_cases hlow : j < 16 * k.toNat
    · simp [hlow]
    · have hout : ¬ j - 16 * k.toNat < 16 := by omega
      simp [hlow, hout, BitVec.getLsbD_of_ge imm _ (Nat.le_of_not_lt hout)]

theorem dend_iff {s : State} : dend s = true ↔ s.dpos = s.dbits := decide_eq_true_iff

theorem bitData_eq (b : Bool) : ((BitVec.ofBool b).setWidth 32 : Word) = if b then 1 else 0 := by cases b <;> rfl

theorem nextBit_eq_cursorBit (s : State) : nextBit s = cursorBit s := rfl

/-! ## The commands outside the fault state -/

section
variable {s : State} (herr : s.err = 0)
include herr

theorem exec_dcnt_of_ok (k : BitVec 2) (imm : BitVec 16) :
    exec (.dcnt k imm) s = .next (respond .ok 0 { s with tbcin := setSlice s.tbcin k imm }) := by
  rw [exec, execDcnt, command_of_ok herr]

theorem exec_dstart_of_ok :
    exec .dstart s =
      .next (respond .ok 0 { s with dbits := s.tbcin, dpos := 0, cur := s.root, out := [], outLen := 0 }) := by
  rw [exec, execDstart, command_of_ok herr]

/-- UBIT where no bit is left (43_bitunpacker R123). -/
theorem exec_ubit_of_exhausted (hend : s.dbits.toNat ≤ s.dpos.toNat) : exec .ubit s = .next (respond .ended 0 s) := by
  rw [exec, execUbit, command_of_ok herr, if_pos (BitVec.le_def.2 hend)]

/-- UBIT where a bit is left and its byte is in PAY (43_bitunpacker R123). -/
theorem exec_ubit_of_bit (hbit : CursorBitThere s) :
    exec .ubit s = .next (respond .ok (if cursorBit s then 1 else 0) { s with dpos := s.dpos + 1 }) := by
  obtain ⟨hleft, hbyte⟩ := hbit
  have havail : nextBitAvailable s = true := decide_eq_true hbyte
  rw [exec, execUbit, command_of_ok herr, if_neg (dbits_not_le_of_lt hleft), if_pos havail, bitData_eq,
    nextBit_eq_cursorBit]

end

/-! ## The unpacker's obligations -/

/-- Settles O37: DCNT replaces TBCIN by itself with one slice set. -/
theorem dcntWritesSlice : Obligations.DcntWritesSlice := by
  unfold Obligations.DcntWritesSlice
  exact fun k imm => ⟨decode_word (o := .dcnt) (by decide) rfl rfl (BitVec.or_assoc _ _ _).symm, fun s herr =>
    ⟨_, exec_dcnt_of_ok herr k imm, fun _ hj => setSlice_getLsbD s.tbcin k imm hj, rfl, sameBytes_of_eq rfl rfl⟩⟩

/-- Settles O38: with CUR on ROOT the cursor is at the root, with DPOS 0 the end is a count of 0, and no index is below an
OUTLEN of 0. -/
theorem dstartBeginsDecode : Obligations.DstartBeginsDecode := by
  unfold Obligations.DstartBeginsDecode
  refine ⟨by decide, fun s herr => ⟨_, exec_dstart_of_ok herr, rfl, fun _ => rfl, ?_, atRoot_iff.2 rfl,
    fun _ => outr_raises_of_outLen_le herr (Nat.zero_le _)⟩⟩
  exact dend_iff.trans eq_comm

/-- Settles O39: the three cases of UBIT; after the read DPOS meets DBITS exactly where the bit was the last. -/
theorem ubitReadsNextBit : Obligations.UbitReadsNextBit := by
  unfold Obligations.UbitReadsNextBit
  refine ⟨by decide, fun s herr => ⟨exec_ubit_of_exhausted herr, ubit_raises_of_byte_missing herr, fun hbit => ?_⟩⟩
  have hdpos := dpos_succ hbit.1
  refine ⟨_, exec_ubit_of_bit herr hbit, rfl, hdpos, sameBytes_of_eq rfl rfl, dend_iff.trans ?_⟩
  rw [← hdpos]
  exact BitVec.toNat_inj.symm

/-! ## Another payload in place -/

/-- `s` with another payload and length. -/
def withPayload (b : Memory × BitVec 25) (s : State) : State := { s with pay := b.1, payLen := b.2 }

/-- The same pass with its state changed by `f`. -/
def Pass.map (f : State → State) : Pass → Pass
  | .raised s => .raised (f s)
  | .moved s d => .moved (f s) d

/-- Both payloads hold the bytes of the bits counted, and agree on those bits (43_bitunpacker R124). -/
structure SameCountedBits (b : Memory × BitVec 25) (s : State) : Prop where
  held : s.dbits.toNat ≤ 8 * s.payLen.toNat
  otherHeld : s.dbits.toNat ≤ 8 * b.2.toNat
  agree : ∀ p, p < s.dbits.toNat → payBit (withPayload b s) p = payBit s p

section
variable {b : Memory × BitVec 25} {s : State}

/-- A count that two payloads hold is held byte by byte: the next bit is there in both. -/
theorem SameCountedBits.nextBitAvailable (h : SameCountedBits b s) (hleft : s.dpos.toNat < s.dbits.toNat) :
    nextBitAvailable s = true ∧ nextBitAvailable (withPayload b s) = true := by
  have hs := h.held
  have hb := h.otherHeld
  exact ⟨decide_eq_true (show s.dpos.toNat / 8 < s.payLen.toNat by omega),
    decide_eq_true (show s.dpos.toNat / 8 < b.2.toNat by omega)⟩

theorem SameCountedBits.nextBit (h : SameCountedBits b s) (hleft : s.dpos.toNat < s.dbits.toNat) :
    nextBit (withPayload b s) = nextBit s := h.agree _ hleft

/-- A pass of the walk changes neither the payload nor the count. -/
theorem SameCountedBits.of_moved {t : State} {d : Word} (h : SameCountedBits b s) (hw : walkPass s = .moved t d) :
    SameCountedBits b t := by
  rw [walkPass_moved hw]
  exact ⟨h.held, h.otherHeld, h.agree⟩

/-! ## The walk and the commands on another payload -/

/-- The end of a move does not read the payload. -/
theorem endMove_withPayload (d : Word) (s : State) :
    endMove d (withPayload b s) = (endMove d s).map (withPayload b) := by
  simp only [endMove, apply_ite (Pass.map (withPayload b))]
  rfl

/-- A pass of the walk reads the payload at the cursor's bit only. -/
theorem walkPass_withPayload (h : SameCountedBits b s) (hleft : s.dpos.toNat < s.dbits.toNat) :
    walkPass (withPayload b s) = (walkPass s).map (withPayload b) := by
  obtain ⟨havail, havail'⟩ := h.nextBitAvailable hleft
  have hchild : child (withPayload b s) (nextBit s) = child s (nextBit s) := rfl
  have hnode : tnNode (withPayload b s) = tnNode s := rfl
  simp only [walkPass, havail, havail', if_true, h.nextBit hleft, hchild, hnode]
  cases child s (nextBit s) with
  | null => rfl
  | node c =>
    dsimp only
    cases (tnNode s c).kind with
    | invalid => rfl
    | leaf =>
      by_cases hfull : s.outLen = s.outCap
      · rw [if_pos hfull]
        exact if_pos hfull
      · rw [if_neg hfull]
        exact (if_neg hfull).trans (endMove_withPayload _ { appendOut (tnNode s c).sym s with cur := s.root })
    | internal => exact endMove_withPayload 0 { s with cur := .node c }
    | single => exact endMove_withPayload 0 { s with cur := .node c }

/-- The loop of DRUN reads counted bits only. -/
theorem runWalk_withPayload (h : SameCountedBits b s) {n : Nat} (hn : n = s.dbits.toNat - s.dpos.toNat) :
    runWalk n (withPayload b s) = withPayload b (runWalk n s) := by
  induction n generalizing s with
  | zero => rfl
  | succ n ih =>
    rw [runWalk, runWalk, walkPass_withPayload h (by omega)]
    cases hw : walkPass s with
    | raised t => rfl
    | moved t d => exact ih (h.of_moved hw) (runWalk_count hw hn)

/-- A refusal does not read the payload, so a command reads of it what its rule does. -/
theorem command_withPayload {t : State} {rule : State → State} (hexec : command s rule = .next t)
    (hrule : rule (withPayload b s) = withPayload b (rule s)) :
    command (withPayload b s) rule = .next (withPayload b t) := by
  obtain ⟨herr, rfl⟩ | ⟨herr, rfl⟩ := command_cases hexec
  · rw [← hrule]
    exact command_of_ok (s := withPayload b s) herr rule
  · exact command_of_fault (s := withPayload b s) herr rule

theorem exec_ubit_withPayload {t : State} (h : SameCountedBits b s) (hexec : exec .ubit s = .next t) :
    exec .ubit (withPayload b s) = .next (withPayload b t) := by
  unfold exec at hexec ⊢
  refine command_withPayload hexec ?_
  by_cases hend : s.dbits ≤ s.dpos
  · rw [if_pos hend]
    exact if_pos hend
  · have hleft : s.dpos.toNat < s.dbits.toNat := BitVec.lt_def.1 (BitVec.not_le.1 hend)
    obtain ⟨havail, havail'⟩ := h.nextBitAvailable hleft
    rw [if_neg hend, if_pos havail, h.nextBit hleft]
    exact (if_neg hend).trans (if_pos havail')

theorem exec_dstep_withPayload {t : State} (h : SameCountedBits b s) (hexec : exec .dstep s = .next t) :
    exec .dstep (withPayload b s) = .next (withPayload b t) := by
  unfold exec at hexec ⊢
  refine command_withPayload hexec ?_
  by_cases hend : s.dbits ≤ s.dpos
  · rw [if_pos hend]
    exact if_pos hend
  · have hleft : s.dpos.toNat < s.dbits.toNat := BitVec.lt_def.1 (BitVec.not_le.1 hend)
    rw [if_neg hend, walkPass_withPayload h hleft]
    refine (if_neg hend).trans ?_
    cases walkPass s <;> rfl

theorem exec_drun_withPayload {t : State} (h : SameCountedBits b s) (hexec : exec .drun s = .next t) :
    exec .drun (withPayload b s) = .next (withPayload b t) := by
  unfold exec at hexec ⊢
  exact command_withPayload hexec (runWalk_withPayload h rfl)

end

/-- Settles O41: the second state is the first with the other payload in place, and each of the three commands reads
counted bits only. -/
theorem padBitsAreIgnored : Obligations.PadBitsAreIgnored := by
  unfold Obligations.PadBitsAreIgnored
  intro i s s' t hi hs' hheld hheld' hagree hexec
  have hsame : SameCountedBits (payBuf s') s := ⟨hheld, hheld', hagree⟩
  have hplaced : withPayload (payBuf s') s = s' := hs'.symm
  have hother : exec i (withPayload (payBuf s') s) = .next (withPayload (payBuf s') t) := by
    obtain rfl | rfl | rfl := hi
    · exact exec_ubit_withPayload hsame hexec
    · exact exec_dstep_withPayload hsame hexec
    · exact exec_drun_withPayload hsame hexec
  rwa [hplaced] at hother

end Sys2Proof.Machine
end

section
/-! SUPPORT. The symbol-aligned decoder (44_decoder): the child a bit leads to, one pass of the walk case by case, what
DSTEP and DRUN do outside the fault state, and DRUN as the repetition of DSTEP. -/

namespace Sys2Proof.Machine

open Sys2Proof.Claims

/-! ## The child a bit leads to -/

@[simp] theorem childOf_null (s : State) (b : Bool) : childOf s .null b = .null := rfl

section
variable {s : State} {i : NodeIdx}

theorem childOf_of_internal (h : (tnNode s i).kind = .internal) (b : Bool) :
    childOf s (.node i) b = if b then (tnNode s i).right else (tnNode s i).left := by
  simp only [childOf, h]

theorem childOf_of_single (h : (tnNode s i).kind = .single) (b : Bool) :
    childOf s (.node i) b = if b then .null else (tnNode s i).left := by
  simp only [childOf, h]

theorem childOf_of_leaf (h : (tnNode s i).kind = .leaf) (b : Bool) : childOf s (.node i) b = .null := by
  simp only [childOf, h]

theorem childOf_of_invalid (h : (tnNode s i).kind = .invalid) (b : Bool) : childOf s (.node i) b = .null := by
  simp only [childOf, h]

end

/-! ## One pass of the walk -/

theorem nextBitAvailable_of_cursorBitThere {s : State} (h : CursorBitThere s) : nextBitAvailable s = true :=
  decide_eq_true h.2

/-- DPOS is one short of DBITS, in bits and in numbers. -/
theorem dpos_succ_eq_dbits_iff {s : State} (h : s.dpos.toNat < s.dbits.toNat) :
    s.dpos + 1 = s.dbits ↔ s.dpos.toNat + 1 = s.dbits.toNat := by
  rw [← dpos_succ h, BitVec.toNat_inj]

theorem endMove_of_tail {s : State} (hlast : s.dpos + 1 = s.dbits) (hroot : s.root ≠ s.cur) (d : Word) :
    endMove d s = .raised (raise .corruptStreamTail (low32 (s.dpos + 1)) { s with dpos := s.dpos + 1 }) := by
  obtain ⟨-, -, h⟩ | ⟨hnot, -⟩ := endMove_cases d s
  · exact h
  · exact absurd ⟨hlast, hroot⟩ hnot

theorem endMove_of_not_tail {s : State} (h : s.dpos + 1 = s.dbits → s.root = s.cur) (d : Word) :
    endMove d s = .moved { s with dpos := s.dpos + 1 } d := by
  obtain ⟨hlast, hroot, -⟩ | ⟨-, hmove⟩ := endMove_cases d s
  · exact absurd (h hlast) hroot
  · exact hmove

section
variable {s : State} {c : NodeIdx} (hbit : CursorBitThere s) (hchild : child s (cursorBit s) = .node c)
include hbit hchild

theorem walkPass_of_invalid (hkind : (tnNode s c).kind = .invalid) :
    walkPass s = .raised (raise .corruptStreamNoChild (low32 s.dpos) s) := by
  have havail := nextBitAvailable_of_cursorBitThere hbit
  simp only [walkPass, havail, if_true, nextBit_eq_cursorBit, hchild, hkind]

theorem walkPass_of_leaf_full (hkind : (tnNode s c).kind = .leaf) (hfull : s.outLen = s.outCap) :
    walkPass s = .raised (raise .bufferFull 1 s) := by
  have havail := nextBitAvailable_of_cursorBitThere hbit
  simp only [walkPass, havail, if_true, nextBit_eq_cursorBit, hchild, hkind, if_pos hfull]

/-- An emission returns the cursor to the root, so the last bit's check finds it there. -/
theorem walkPass_of_leaf (hkind : (tnNode s c).kind = .leaf) (hroom : s.outLen ≠ s.outCap) :
    walkPass s = .moved { appendOut (tnNode s c).sym s with cur := s.root, dpos := s.dpos + 1 }
      (emitData (tnNode s c).sym) := by
  have havail := nextBitAvailable_of_cursorBitThere hbit
  simp only [walkPass, havail, if_true, nextBit_eq_cursorBit, hchild, hkind, if_neg hroom]
  exact endMove_of_not_tail (s := { appendOut (tnNode s c).sym s with cur := s.root }) (fun _ => rfl) _

theorem walkPass_of_inner (hkind : (tnNode s c).kind = .internal ∨ (tnNode s c).kind = .single) :
    walkPass s = endMove 0 { s with cur := .node c } := by
  have havail := nextBitAvailable_of_cursorBitThere hbit
  obtain hkind | hkind := hkind <;> simp only [walkPass, havail, if_true, nextBit_eq_cursorBit, hchild, hkind]

theorem walkPass_of_tail (hkind : (tnNode s c).kind = .internal ∨ (tnNode s c).kind = .single)
    (hlast : s.dpos + 1 = s.dbits) (hroot : s.root ≠ .node c) :
    walkPass s =
      .raised (raise .corruptStreamTail (low32 (s.dpos + 1)) { s with cur := .node c, dpos := s.dpos + 1 }) :=
  (walkPass_of_inner hbit hchild hkind).trans (endMove_of_tail (s := { s with cur := .node c }) hlast hroot 0)

theorem walkPass_of_move (hkind : (tnNode s c).kind = .internal ∨ (tnNode s c).kind = .single)
    (hnext : s.dpos + 1 = s.dbits → s.root = .node c) :
    walkPass s = .moved { s with cur := .node c, dpos := s.dpos + 1 } 0 :=
  (walkPass_of_inner hbit hchild hkind).trans (endMove_of_not_tail (s := { s with cur := .node c }) hnext 0)

end

/-! ## DSTEP and DRUN outside the fault state -/

section
variable {s : State} (herr : s.err = 0)
include herr

/-- DSTEP where no bit is left (44_decoder R131, line 1). -/
theorem exec_dstep_of_exhausted (hend : s.dbits.toNat ≤ s.dpos.toNat) : exec .dstep s = .next (respond .ended 0 s) := by
  rw [exec, execDstep, command_of_ok herr, if_pos (BitVec.le_def.2 hend)]

theorem exec_dstep_of_raised {t : State} (hleft : s.dpos.toNat < s.dbits.toNat) (hw : walkPass s = .raised t) :
    exec .dstep s = .next t := by
  rw [exec, execDstep, command_of_ok herr, if_neg (dbits_not_le_of_lt hleft), hw]

theorem exec_dstep_of_moved {t : State} {d : Word} (hleft : s.dpos.toNat < s.dbits.toNat)
    (hw : walkPass s = .moved t d) : exec .dstep s = .next (respond .ok d t) := by
  rw [exec, execDstep, command_of_ok herr, if_neg (dbits_not_le_of_lt hleft), hw]

/-- DSTEP where the cursor's bit is there and leads to no node or to an INVALID one (44_decoder R131, line 5). -/
theorem dstep_raises_of_no_child (hbit : CursorBitThere s)
    (hchild : child s (cursorBit s) = .null ∨
      ∃ c, child s (cursorBit s) = .node c ∧ (tnNode s c).kind = .invalid) :
    Raises .dstep s .corruptStreamNoChild (low s.dpos) := by
  obtain hnull | ⟨c, hnode, hkind⟩ := hchild
  · exact dstep_raises_of_child_null herr hbit hnull
  · rw [Raises, exec_dstep_of_raised herr hbit.1 (walkPass_of_invalid hbit hnode hkind), low32_eq_low]
    rfl

theorem exec_drun_of_ok : exec .drun s = .next (runWalk (s.dbits.toNat - s.dpos.toNat) s) := by
  rw [exec, execDrun, command_of_ok herr]

/-- DRUN where no bit is left (44_decoder R132). -/
theorem exec_drun_of_exhausted (hend : s.dbits.toNat ≤ s.dpos.toNat) :
    exec .drun s = .next (respond .ok (s.outLen.setWidth 32) s) := by
  rw [exec_drun_of_ok herr, Nat.sub_eq_zero_of_le hend, runWalk]

end

/-- The data of an emission in numbers (44_decoder R131, line 10). -/
theorem emitData_eq (sym : Sym) : emitData sym = BitVec.ofNat 32 (256 + sym.toNat) := by
  have hsym := sym.isLt
  have hor : 1 * 2 ^ 8 ||| sym.toNat = 1 * 2 ^ 8 + sym.toNat := mul_pow_or 1 sym.toNat 8 hsym
  apply BitVec.eq_of_toNat_eq
  rw [emitData, BitVec.toNat_or, BitVec.toNat_setWidth, BitVec.toNat_ofNat, Nat.mod_eq_of_lt (by omega),
    Nat.mod_eq_of_lt (by omega)]
  exact hor

/-! ## The decoder reads no response -/

/-- The pass with the state it goes on with changed by `f`. -/
def Pass.mapMoved (f : State → State) : Pass → Pass
  | .raised s => .raised s
  | .moved s d => .moved (f s) d

theorem endMove_respond (st : Status) (e d : Word) (s : State) :
    endMove d (respond st e s) = (endMove d s).mapMoved (respond st e) := by
  simp only [endMove, apply_ite (Pass.mapMoved (respond st e))]
  rfl

/-- A pass does not read the response, and a fault overwrites it. -/
theorem walkPass_respond (st : Status) (e : Word) (s : State) :
    walkPass (respond st e s) = (walkPass s).mapMoved (respond st e) := by
  have havail : nextBitAvailable (respond st e s) = nextBitAvailable s := rfl
  have hchild : child (respond st e s) (nextBit (respond st e s)) = child s (nextBit s) := rfl
  have hnode : tnNode (respond st e s) = tnNode s := rfl
  simp only [walkPass, havail, hchild, hnode]
  by_cases hthere : nextBitAvailable s = true
  · rw [if_pos hthere, if_pos hthere]
    cases child s (nextBit s) with
    | null => rfl
    | node c =>
      dsimp only
      cases (tnNode s c).kind with
      | invalid => rfl
      | leaf =>
        by_cases hfull : s.outLen = s.outCap
        · rw [if_pos hfull]
          exact if_pos hfull
        · rw [if_neg hfull]
          exact (if_neg hfull).trans (endMove_respond st e _ { appendOut (tnNode s c).sym s with cur := s.root })
      | internal => exact endMove_respond st e 0 { s with cur := .node c }
      | single => exact endMove_respond st e 0 { s with cur := .node c }
  · rw [if_neg hthere, if_neg hthere]
    rfl

theorem runWalk_respond (st : Status) (e : Word) (n : Nat) (s : State) : runWalk n (respond st e s) = runWalk n s := by
  induction n generalizing s with
  | zero => rfl
  | succ n ih =>
    rw [runWalk, runWalk, walkPass_respond]
    cases walkPass s with
    | raised t => rfl
    | moved t d => exact ih t

/-- The loop of DRUN is the repetition of DSTEP, but for the response at the end (44_decoder R132). -/
theorem runWalk_iterates_dstep {n : Nat} {s : State} (herr : s.err = 0) (hn : n = s.dbits.toNat - s.dpos.toNat) :
    ∃ k u, k ≤ n ∧ runAll (List.replicate k .dstep) s = .next u ∧
      ((u.err ≠ 0 ∧ runWalk n s = u) ∨
       (u.err = 0 ∧ u.dbits.toNat ≤ u.dpos.toNat ∧ runWalk n s = respond .ok (u.outLen.setWidth 32) u)) := by
  induction n generalizing s with
  | zero => exact ⟨0, s, Nat.le_refl 0, rfl, .inr ⟨herr, by omega, rfl⟩⟩
  | succ n ih =>
    have hleft : s.dpos.toNat < s.dbits.toNat := by omega
    rw [runWalk]
    cases hw : walkPass s with
    | raised t =>
      have hstep := exec_dstep_of_raised herr hleft hw
      exact ⟨1, t, by omega, runAll_cons_eq_next.2 ⟨t, hstep, rfl⟩, .inl ⟨(walkPass_raised hw).1, rfl⟩⟩
    | moved t d =>
      have hstep := exec_dstep_of_moved herr hleft hw
      have hcount := runWalk_count hw hn
      have herr' : (respond .ok d t).err = 0 := by rw [walkPass_moved hw]; exact herr
      obtain ⟨k, u, hk, hrun, hfinal⟩ := ih herr' hcount
      rw [runWalk_respond] at hfinal
      exact ⟨k + 1, u, Nat.succ_le_succ hk, runAll_cons_eq_next.2 ⟨_, hstep, hrun⟩, hfinal⟩

/-! ## The decoder's obligations -/

/-- Settles O42: the child is read off the node's kind, and a DSTEP that finds none raises. -/
theorem childOfCursor : Obligations.ChildOfCursor := by
  unfold Obligations.ChildOfCursor child
  refine ⟨fun s b => ⟨fun hcur => ?_, fun i hcur => ?_⟩, fun s => dstep_raises_of_no_child⟩
  · rw [hcur, childOf_null]
  · rw [hcur]
    exact ⟨fun h => childOf_of_internal h b, fun h => childOf_of_single h b, fun h => childOf_of_leaf h b,
      fun h => childOf_of_invalid h b⟩

/-- What a DSTEP that emits leaves (44_decoder R131, lines 8 to 11 and 14). -/
theorem dstep_emits {s : State} {c : NodeIdx} (hi : s.Inv) (herr : s.err = 0) (hbit : CursorBitThere s)
    (hchild : child s (cursorBit s) = .node c) (hkind : (tnNode s c).kind = .leaf) (hroom : s.outLen ≠ s.outCap) :
    ∃ t, exec .dstep s = .next t ∧
      outByte t s.outLen.toNat = (tnNode s c).sym ∧ t.outLen.toNat = s.outLen.toNat + 1 ∧
      (∀ a, a ≠ s.outLen.toNat → outByte t a = outByte s a) ∧ (∀ a, payByte t a = payByte s a) ∧
      t = { s with dpos := s.dpos + 1, cur := s.root, out := t.out, outLen := t.outLen,
                   rsp := some ⟨.ok, BitVec.ofNat 32 (256 + (tnNode s c).sym.toNat)⟩ } := by
  obtain ⟨-, -, -, hout⟩ := hi.canonical_parts
  have hread := outByte_appendOut hout (tnNode s c).sym
  rw [exec_dstep_of_moved herr hbit.1 (walkPass_of_leaf hbit hchild hkind hroom), emitData_eq]
  exact ⟨_, rfl, (hread _).trans (if_pos rfl), outLen_succ (hi.outLen_lt hroom) hi.outCap.2,
    fun a ha => (hread a).trans (if_neg ha), fun _ => rfl, rfl⟩

/-- Settles O43: line by line, the case of the pass that the line's condition selects. -/
theorem dstepMovesOneBit : Obligations.DstepMovesOneBit := by
  unfold Obligations.DstepMovesOneBit
  refine ⟨by decide, fun s hi herr => ⟨exec_dstep_of_exhausted herr, dstep_raises_of_byte_missing herr, fun hbit =>
    ⟨fun hnull => dstep_raises_of_no_child herr hbit (.inl hnull), fun c hchild =>
      ⟨fun hkind => dstep_raises_of_no_child herr hbit (.inr ⟨c, hchild, hkind⟩), fun hkind hfull => ?_,
        dstep_emits hi herr hbit hchild, fun hkind hlast hroot => ?_, fun hkind hnext => ?_⟩⟩⟩⟩
  · exact exec_dstep_of_raised herr hbit.1 (walkPass_of_leaf_full hbit hchild hkind hfull)
  · have hlast' := (dpos_succ_eq_dbits_iff hbit.1).2 hlast
    rw [exec_dstep_of_raised herr hbit.1 (walkPass_of_tail hbit hchild hkind hlast' hroot), hlast', low32_eq_low]
    rfl
  · have hnext' : s.dpos + 1 = s.dbits → s.root = .node c := fun hlast =>
      hnext.resolve_left (not_not_intro ((dpos_succ_eq_dbits_iff hbit.1).1 hlast))
    exact exec_dstep_of_moved herr hbit.1 (walkPass_of_move hbit hchild hkind hnext')

/-- Settles O45: the loop's number is DBITS - DPOS, and the loop is the repetition of DSTEP. -/
theorem drunIteratesDstep : Obligations.DrunIteratesDstep := by
  unfold Obligations.DrunIteratesDstep
  refine ⟨by decide, fun s herr => ?_⟩
  rw [exec_drun_of_ok herr]
  obtain ⟨k, u, hk, hrun, ⟨hfault, hfinal⟩ | ⟨hok, hend, hfinal⟩⟩ := runWalk_iterates_dstep herr rfl
  · exact ⟨k, u, hk, hrun, .inl ⟨hfault, congrArg _ hfinal⟩⟩
  · exact ⟨k, u, hk, hrun, .inr ⟨hok, hend, exec_dstep_of_exhausted hok hend, congrArg _ hfinal⟩⟩

/-- Settles O46: DSTART puts DPOS at 0, where a count of 0 is exhausted. -/
theorem zeroBitsDecodeToNothing : Obligations.ZeroBitsDecodeToNothing := by
  unfold Obligations.ZeroBitsDecodeToNothing
  refine fun s herr hcount => ⟨_, exec_dstart_of_ok herr, rfl, rfl, ?_⟩
  have hend : s.tbcin.toNat ≤ (0 : Count).toNat := by rw [hcount]
  exact ⟨exec_dstep_of_exhausted herr hend, exec_drun_of_exhausted herr hend⟩

end Sys2Proof.Machine
end

section
/-! SUPPORT. What DRUN makes of the bits ahead of the cursor (44_decoder R132): a path to a leaf emits the leaf's symbol,
a concatenation of such paths the sequence of their symbols; the single-symbol tree. -/

namespace Sys2Proof.Machine

open Sys2Proof.Claims

/-! ## The bits ahead of the cursor -/

/-- The bits `DPOS … DBITS - 1` of PAY. -/
def bitsAhead (s : State) : List Bool :=
  (List.range' s.dpos.toNat (s.dbits.toNat - s.dpos.toNat)).map (payBit s)

theorem bitsAhead_eq_nil_iff {s : State} : bitsAhead s = [] ↔ s.dbits.toNat ≤ s.dpos.toNat := by
  rw [bitsAhead, List.map_eq_nil_iff, List.range'_eq_nil_iff, Nat.sub_eq_zero_iff_le]

theorem bitsAhead_of_left {s : State} (hleft : s.dpos.toNat < s.dbits.toNat) :
    bitsAhead s = cursorBit s :: bitsAhead { s with dpos := s.dpos + 1 } := by
  have hcount : s.dbits.toNat - s.dpos.toNat = (s.dbits.toNat - (s.dpos.toNat + 1)) + 1 := by omega
  rw [bitsAhead, hcount, List.range'_succ, List.map_cons, ← dpos_succ hleft]
  rfl

/-- The first bit ahead is the cursor's, and the others are ahead once DPOS has moved. -/
theorem bitsAhead_eq_cons {s : State} {b : Bool} {bs : List Bool} (h : bitsAhead s = b :: bs) :
    s.dpos.toNat < s.dbits.toNat ∧ cursorBit s = b ∧ bitsAhead { s with dpos := s.dpos + 1 } = bs := by
  have hleft : s.dpos.toNat < s.dbits.toNat := by
    rw [← Nat.not_le, ← bitsAhead_eq_nil_iff, h]
    exact List.cons_ne_nil b bs
  rw [bitsAhead_of_left hleft] at h
  exact ⟨hleft, List.cons.inj h⟩

theorem bitsAhead_of_dpos_zero {s : State} (h : s.dpos = 0) :
    bitsAhead s = (List.range s.dbits.toNat).map (payBit s) := by
  rw [bitsAhead, h, List.range_eq_range']
  rfl

/-- A count that PAY holds is held byte by byte. -/
theorem cursorBitThere_of_held {s : State} (hheld : s.dbits.toNat ≤ 8 * s.payLen.toNat)
    (hleft : s.dpos.toNat < s.dbits.toNat) : CursorBitThere s :=
  ⟨hleft, by omega⟩

/-! ## Paths in the tree -/

theorem tnNode_eq_of_tn_eq {s t : State} (h : t.tn = s.tn) : tnNode t = tnNode s := by
  funext i
  rw [tnNode, h, tnNode]

theorem walkFrom_eq_of_tn_eq {s t : State} (h : t.tn = s.tn) : walkFrom t = walkFrom s := by
  have hchild : childOf t = childOf s := by
    funext p b
    unfold childOf
    rw [tnNode_eq_of_tn_eq h]
  funext p bs
  induction bs generalizing p with
  | nil => rfl
  | cons b bs ih => rw [walkFrom, walkFrom, hchild, ih]

/-- Paths and leaves are read off TN alone. -/
theorem isLeafOf_walkFrom_of_tn_eq {s t : State} {p : Ptr} {bs : List Bool} {sym : Sym}
    (hleaf : isLeafOf s (walkFrom s p bs) sym) (h : t.tn = s.tn) : isLeafOf t (walkFrom t p bs) sym := by
  rwa [isLeafOf, walkFrom_eq_of_tn_eq h, tnNode_eq_of_tn_eq h]

theorem walkFrom_null (s : State) (bs : List Bool) : walkFrom s .null bs = .null := by
  induction bs with
  | nil => rfl
  | cons b bs ih => rw [walkFrom, childOf_null, ih]

/-- A path that reaches a leaf does not begin at NULL. -/
theorem exists_node_of_isLeafOf_walkFrom {s : State} {p : Ptr} {bs : List Bool} {sym : Sym}
    (h : isLeafOf s (walkFrom s p bs) sym) : ∃ c, p = .node c := by
  cases p with
  | null =>
    obtain ⟨i, hi, -⟩ := h
    rw [walkFrom_null] at hi
    cases hi
  | node c => exact ⟨c, rfl⟩

/-- A path of one bit or more to a leaf begins at an INTERNAL or SINGLE node: the other kinds have no child. -/
theorem inner_of_isLeafOf_walkFrom {s : State} {c : NodeIdx} {b : Bool} {bs : List Bool} {sym : Sym}
    (h : isLeafOf s (walkFrom s (.node c) (b :: bs)) sym) :
    (tnNode s c).kind = .internal ∨ (tnNode s c).kind = .single := by
  obtain ⟨i, hchild⟩ := exists_node_of_isLeafOf_walkFrom (p := childOf s (.node c) b) h
  cases hkind : (tnNode s c).kind with
  | invalid => rw [childOf_of_invalid hkind] at hchild; cases hchild
  | leaf => rw [childOf_of_leaf hkind] at hchild; cases hchild
  | internal => exact .inl rfl
  | single => exact .inr rfl

/-! ## A symbol emitted -/

/-- `s` after the emission of `sym` by a bit that leaves the unpacker at `p` (44_decoder R131, lines 8, 9 and 14). -/
def emitted (sym : Sym) (p : Count) (s : State) : State := { appendOut sym s with cur := s.root, dpos := p }

theorem walkPass_of_isLeafOf {s : State} {sym : Sym} (hbit : CursorBitThere s)
    (hleaf : isLeafOf s (child s (cursorBit s)) sym) (hroom : s.outLen ≠ s.outCap) :
    walkPass s = .moved (emitted sym (s.dpos + 1) s) (emitData sym) := by
  obtain ⟨c, hchild, hkind, rfl⟩ := hleaf
  exact walkPass_of_leaf hbit hchild hkind hroom

theorem outputBytes_length (s : State) : (outputBytes s).length = s.outLen.toNat := by
  rw [outputBytes, List.length_map, List.length_range]

theorem outputBytes_appendOut {s : State} (hi : s.Inv) (hroom : s.outLen.toNat < s.outCap.toNat) (sym : Sym) :
    outputBytes (appendOut sym s) = outputBytes s ++ [sym] := by
  obtain ⟨-, -, -, hout⟩ := hi.canonical_parts
  rw [outputBytes, appendOut_outLen, outLen_succ hroom hi.outCap.2, List.range_succ, List.map_append, outputBytes]
  congr 1
  · refine List.map_congr_left fun a ha => ?_
    rw [outByte_appendOut hout, if_neg (List.mem_range.1 ha).ne]
  · rw [List.map_singleton, outByte_appendOut hout, if_pos rfl]

/-! ## DRUN along paths -/

/-- DRUN goes on from where one pass of the walk leads. -/
theorem exec_drun_of_moved {s t : State} {d : Word} (herr : s.err = 0) (hleft : s.dpos.toNat < s.dbits.toNat)
    (hw : walkPass s = .moved t d) : exec .drun s = exec .drun t := by
  have herr' : t.err = 0 := by rw [walkPass_moved hw]; exact herr
  have hcount : s.dbits.toNat - s.dpos.toNat = (s.dbits.toNat - s.dpos.toNat - 1) + 1 := by omega
  rw [exec_drun_of_ok herr, exec_drun_of_ok herr', ← runWalk_count hw hcount.symm, hcount, runWalk, hw]
  rfl

/-- Bits ahead that begin with a path from the cursor to a leaf: DRUN emits the leaf's symbol and goes on at the root
with the bits after the path. The last bit's check does not fault before the leaf, since bits are left there. -/
theorem exec_drun_of_path {path rest : List Bool} {s : State} {sym : Sym} (hi : s.Inv) (herr : s.err = 0)
    (hheld : s.dbits.toNat ≤ 8 * s.payLen.toNat) (hroom : s.outLen ≠ s.outCap) (hne : path ≠ [])
    (hahead : bitsAhead s = path ++ rest) (hleaf : isLeafOf s (walkFrom s s.cur path) sym) :
    ∃ p, exec .drun s = exec .drun (emitted sym p s) ∧ bitsAhead (emitted sym p s) = rest ∧ (emitted sym p s).Inv := by
  induction path generalizing s with
  | nil => exact absurd rfl hne
  | cons b path ih =>
    obtain ⟨hleft, rfl, hnext⟩ := bitsAhead_eq_cons hahead
    have hbit := cursorBitThere_of_held hheld hleft
    cases path with
    | nil =>
      have hw := walkPass_of_isLeafOf hbit hleaf hroom
      exact ⟨_, exec_drun_of_moved herr hleft hw, hnext, (hi.of_walkPass hleft).2 _ _ hw⟩
    | cons b' path =>
      obtain ⟨c, hchild⟩ := exists_node_of_isLeafOf_walkFrom (p := child s (cursorBit s)) hleaf
      rw [walkFrom, show childOf s s.cur (cursorBit s) = .node c from hchild] at hleaf
      have hmore : s.dpos + 1 ≠ s.dbits := fun hlast => by
        obtain ⟨hleft', -⟩ := bitsAhead_eq_cons hnext
        exact hleft'.ne (congrArg BitVec.toNat hlast)
      have hw := walkPass_of_move hbit hchild (inner_of_isLeafOf_walkFrom hleaf) fun hlast => absurd hlast hmore
      obtain ⟨p, hdrun, hrest⟩ := ih (s := { s with cur := .node c, dpos := s.dpos + 1 })
        ((hi.of_walkPass hleft).2 _ _ hw) herr hheld hroom (List.cons_ne_nil b' path) hnext
        (isLeafOf_walkFrom_of_tn_eq hleaf rfl)
      exact ⟨p, (exec_drun_of_moved herr hleft hw).trans hdrun, hrest⟩

/-- The code of each of these symbols is a path of one bit or more from ROOT to a leaf of it. -/
def PathsToLeaves (code : Sym → List Bool) (bytes : List Byte) (s : State) : Prop :=
  ∀ b ∈ bytes, code b ≠ [] ∧ isLeafOf s (walkFrom s s.root (code b)) b

theorem PathsToLeaves.of_tree_eq {code : Sym → List Bool} {bytes : List Byte} {s t : State}
    (h : PathsToLeaves code bytes s) (htn : t.tn = s.tn) (hroot : t.root = s.root) : PathsToLeaves code bytes t := by
  intro b hb
  obtain ⟨hne, hleaf⟩ := h b hb
  rw [hroot]
  exact ⟨hne, isLeafOf_walkFrom_of_tn_eq hleaf htn⟩

/-- From the root, on bits that are the codes of a sequence of symbols, DRUN emits the sequence and ends at the root. -/
theorem exec_drun_decodes {code : Sym → List Bool} {bytes : List Byte} {s : State} (hi : s.Inv) (herr : s.err = 0)
    (hheld : s.dbits.toNat ≤ 8 * s.payLen.toNat) (hcur : s.cur = s.root)
    (hroom : s.outLen.toNat + bytes.length ≤ s.outCap.toNat) (hahead : bitsAhead s = bytes.flatMap code)
    (hpaths : PathsToLeaves code bytes s) :
    ∃ u, exec .drun s = .next u ∧ endsAtRoot u ∧ outputBytes u = outputBytes s ++ bytes ∧
      u.rsp = some ⟨.ok, BitVec.ofNat 32 (outputBytes s ++ bytes).length⟩ := by
  induction bytes generalizing s with
  | nil =>
    have hend := bitsAhead_eq_nil_iff.1 hahead
    have hdend : s.dpos = s.dbits := BitVec.eq_of_toNat_eq (Nat.le_antisymm hi.dpos hend)
    refine ⟨_, exec_drun_of_exhausted herr hend, ⟨herr, dend_iff.2 hdend, atRoot_iff.2 hcur⟩,
      (List.append_nil _).symm, ?_⟩
    rw [List.append_nil, outputBytes_length, BitVec.ofNat_toNat]
    rfl
  | cons b bytes ih =>
    rw [List.length_cons] at hroom
    obtain ⟨hne, hleaf⟩ := hpaths b List.mem_cons_self
    have hlt : s.outLen.toNat < s.outCap.toNat := by omega
    have hfull : s.outLen ≠ s.outCap := fun he => hlt.ne (congrArg BitVec.toNat he)
    obtain ⟨p, hdrun, hrest, hi'⟩ := exec_drun_of_path hi herr hheld hfull hne hahead (by rwa [hcur])
    have hlen : (emitted b p s).outLen.toNat = s.outLen.toNat + 1 := outLen_succ hlt hi.outCap.2
    have hroom' : (emitted b p s).outLen.toNat + bytes.length ≤ (emitted b p s).outCap.toNat := by
      rw [hlen]
      show _ ≤ s.outCap.toNat
      omega
    have hpaths' : PathsToLeaves code bytes s := fun x hx => hpaths x (List.mem_cons_of_mem b hx)
    obtain ⟨u, hu, hroot, hout, hrsp⟩ := ih (s := emitted b p s) hi' herr hheld rfl hroom' hrest
      (hpaths'.of_tree_eq rfl rfl)
    have hemit : outputBytes (emitted b p s) ++ bytes = outputBytes s ++ b :: bytes := by
      rw [show outputBytes (emitted b p s) = outputBytes s ++ [b] from outputBytes_appendOut hi hlt b,
        List.append_assoc, List.singleton_append]
    rw [hemit] at hout hrsp
    exact ⟨u, hdrun.trans hu, hroot, hout, hrsp⟩

/-! ## The single-symbol tree -/

/-- `TN[0] = LEAF(sym)`, `TN[1] = SINGLE(left = PTR(0))`, `ROOT = PTR(1)` (44_decoder R134). -/
structure SingleSymbolTree (sym : Sym) (s : State) : Prop where
  leafKind : (tnNode s 0).kind = .leaf
  leafSym : (tnNode s 0).sym = sym
  rootKind : (tnNode s 1).kind = .single
  rootLeft : (tnNode s 1).left = .node 0
  root : s.root = .node 1

theorem SingleSymbolTree.childOf_root_true {sym : Sym} {s : State} (h : SingleSymbolTree sym s) :
    childOf s s.root true = .null := by
  rw [h.root, childOf_of_single h.rootKind, if_pos rfl]

theorem SingleSymbolTree.isLeafOf_childOf_root_false {sym : Sym} {s : State} (h : SingleSymbolTree sym s) :
    isLeafOf s (childOf s s.root false) sym := by
  rw [h.root, childOf_of_single h.rootKind, if_neg Bool.false_ne_true]
  exact ⟨0, h.rootLeft, h.leafKind, h.leafSym⟩

/-- Settles O47: from the root a 1 bit leads nowhere and a 0 bit to the leaf, so a 0 is a path to the symbol, and a run
of zero bits is a concatenation of such paths. -/
theorem singleSymbolTreeDecodes : Obligations.SingleSymbolTreeDecodes := by
  unfold Obligations.SingleSymbolTreeDecodes
  intro s sym hi herr hleafKind hleafSym hrootKind hrootLeft hroot hcur
  have htree : SingleSymbolTree sym s := ⟨hleafKind, hleafSym, hrootKind, hrootLeft, hroot⟩
  refine ⟨fun hbit hone => ?_, fun hbit hzero hroom => ?_, fun hdpos houtLen hheld hroom hzeros => ?_⟩
  · refine dstep_raises_of_no_child herr hbit (.inl ?_)
    rw [child, hcur, hone, htree.childOf_root_true]
  · have hleaf : isLeafOf s (child s (cursorBit s)) sym := by
      rw [child, hcur, hzero]
      exact htree.isLeafOf_childOf_root_false
    exact ⟨_, exec_dstep_of_moved herr hbit.1 (walkPass_of_isLeafOf hbit hleaf hroom), herr, rfl, rfl,
      outputBytes_appendOut hi (hi.outLen_lt hroom) sym⟩
  · have hahead : bitsAhead s = (List.replicate s.dbits.toNat sym).flatMap fun _ => [false] := by
      rw [bitsAhead_of_dpos_zero hdpos, List.flatMap_replicate, List.flatten_replicate_singleton,
        List.eq_replicate_iff]
      exact ⟨by rw [List.length_map, List.length_range], List.forall_mem_map.2 fun p hp =>
        hzeros p (List.mem_range.1 hp)⟩
    have hpaths : PathsToLeaves (fun _ => [false]) (List.replicate s.dbits.toNat sym) s := fun b hb =>
      ⟨List.cons_ne_nil _ _, List.eq_of_mem_replicate hb ▸ htree.isLeafOf_childOf_root_false⟩
    have hnone : outputBytes s = [] := by
      rw [← List.length_eq_zero_iff, outputBytes_length, houtLen]
      rfl
    have hroom' : s.outLen.toNat + (List.replicate s.dbits.toNat sym).length ≤ s.outCap.toNat := by
      rw [List.length_replicate, houtLen]
      simpa using hroom
    obtain ⟨u, hdrun, hend, hout, hrsp⟩ := exec_drun_decodes hi herr hheld hcur hroom' hahead hpaths
    rw [hnone, List.nil_append] at hout hrsp
    rw [List.length_replicate] at hrsp
    exact ⟨u, hdrun, hend.1, hout, hrsp⟩

end Sys2Proof.Machine
end

section
/-! SUPPORT. The round trip (44_decoder R135): an encode session on a block with room runs through and leaves the codes
at the front of PAY, and a decode session reads that many bits. -/

namespace Sys2Proof.Machine

open Sys2Proof.Claims

/-! ## Sequences of commands -/

theorem runAll_append_eq_next {is js : List Instr} {s t : State} :
    runAll (is ++ js) s = .next t ↔ ∃ u, runAll is s = .next u ∧ runAll js u = .next t := by
  induction is generalizing s with
  | nil => simp [runAll]
  | cons i is ih =>
    rw [List.cons_append, runAll, runAll]
    cases exec i s <;> simp [ih]

/-! ## What an encode session writes -/

/-- The two states differ at most in the packer, the payload buffer and the response. -/
def SameButPacker (s t : State) : Prop :=
  t = { s with acc := t.acc, nb := t.nb, ebits := t.ebits, pay := t.pay, payLen := t.payLen, rsp := t.rsp }

section
variable {s t : State} (h : SameButPacker s t)
include h

theorem SameButPacker.trans {u : State} (h' : SameButPacker t u) : SameButPacker s u := by
  unfold SameButPacker at h h' ⊢
  rw [h', h]

theorem SameButPacker.ct : t.ct = s.ct := by rw [h]
theorem SameButPacker.tn : t.tn = s.tn := by rw [h]
theorem SameButPacker.root : t.root = s.root := by rw [h]
theorem SameButPacker.err : t.err = s.err := by rw [h]
theorem SameButPacker.payCap : t.payCap = s.payCap := by rw [h]
theorem SameButPacker.outCap : t.outCap = s.outCap := by rw [h]

end

theorem ctEntry_eq_of_ct_eq {s t : State} (h : t.ct = s.ct) : ctEntry t = ctEntry s := by
  funext sym
  rw [ctEntry, h, ctEntry]

/-- A sequence of symbols with codes runs through where PAY holds the bytes that its bits complete. -/
theorem runAll_estr_of_room {bytes : List Byte} {s : State} (hi : s.Inv) (herr : s.err = 0)
    (hcoded : ∀ b ∈ bytes, (ctEntry s b).len ≠ 0)
    (hroom : ((packedBits s).length + (bytes.flatMap (codeOf s)).length) / 8 ≤ s.payCap.toNat) :
    ∃ t, runAll (estr bytes) s = .next t ∧ t.Inv ∧ SameButPacker s t := by
  induction bytes generalizing s with
  | nil => exact ⟨s, rfl, hi, rfl⟩
  | cons b bytes ih =>
    have hlen := hcoded b List.mem_cons_self
    rw [List.flatMap_cons, List.length_append] at hroom
    have hfirst : s.payLen.toNat + (s.nb.toNat + (codeOf s b).length) / 8 ≤ s.payCap.toNat := by
      rw [packedBits_length] at hroom
      omega
    obtain ⟨hbits, -, -, -, -, -, -, -, hframe⟩ :=
      pushed_pushChecked hi.canonical _ ((ctEntry s b).len.setWidth 32) hfirst
    generalize hu : pushChecked (codeOf s b) ((ctEntry s b).len.setWidth 32) s = u at hbits hframe
    have hsame : SameButPacker s u := by
      unfold SameButPacker
      rw [hframe]
    have hroom' : ((packedBits u).length + (bytes.flatMap (codeOf u)).length) / 8 ≤ u.payCap.toNat := by
      rw [hbits, codeOf_eq_of_ct_eq hsame.ct, hsame.payCap, List.length_append, Nat.add_assoc]
      exact hroom
    obtain ⟨t, hrun, hit, hrest⟩ := ih (hu ▸ hi.of_pushChecked _ _) (hsame.err.trans herr)
      (fun x hx => ctEntry_eq_of_ct_eq hsame.ct ▸ hcoded x (List.mem_cons_of_mem b hx)) hroom'
    exact ⟨t, runAll_estr_cons.2 ⟨u, hu ▸ exec_esym_of_code herr hlen, hrun⟩, hit, hsame.trans hrest⟩

/-- The first bits of a byte begin its eight bits. -/
theorem leadBits_eq_take (v : Byte) {k : Nat} (hk : k ≤ 8) : leadBits v k = (leadBits v 8).take k := by
  rw [leadBits, leadBits, ← List.map_take, List.take_range, Nat.min_eq_left hk]

/-- PFLUSH where PAY has room for the partial byte: the bits the packer held begin those of PAY. -/
theorem exec_pflush_of_room {s : State} (hi : s.Inv) (herr : s.err = 0)
    (hroom : ((packedBits s).length + 7) / 8 ≤ s.payCap.toNat) :
    ∃ t, exec .pflush s = .next t ∧ t.Inv ∧ SameButPacker s t ∧ t.nb = 0 ∧ t.rsp = some ⟨.ok, 0⟩ ∧
      t.ebits = s.ebits ∧ ∃ pad, payBits t = packedBits s ++ pad := by
  by_cases hnb : s.nb = 0
  · have hacc : accBits s = [] := by
      rw [accBits, hnb]
      rfl
    refine ⟨_, exec_pflush_of_empty herr hnb, hi.of_respond _ _, rfl, hnb, rfl, rfl, [], ?_⟩
    rw [packedBits, hacc, List.append_nil, List.append_nil]
    rfl
  · have hpos : s.nb.toNat ≠ 0 := fun he => hnb (BitVec.eq_of_toNat_eq he)
    have hlt : s.payLen.toNat < s.payCap.toNat := by
      rw [packedBits_length] at hroom
      omega
    have hnotFull : s.payLen ≠ s.payCap := fun he => hlt.ne (congrArg BitVec.toNat he)
    obtain ⟨-, -, hpay, -⟩ := hi.canonical_parts
    have hbits : payBits (appendPay s.acc s) = payBits s ++ leadBits s.acc 8 :=
      payBits_appendPay hpay (payLen_succ hlt hi.payCap.2) s.acc
    refine ⟨_, exec_pflush_of_partial herr hnb hnotFull, (hi.of_flushAcc hlt _).of_respond _ _, rfl, rfl, rfl, rfl,
      (leadBits s.acc 8).drop s.nb.toNat, hbits.trans ?_⟩
    rw [packedBits, accBits_eq_leadBits, leadBits_eq_take s.acc s.nb.isLt.le, List.append_assoc,
      List.take_append_drop]

/-- PCLR leaves an empty packer that counts nothing, with the invariant kept. -/
theorem exec_pclr_clears {s : State} (hi : s.Inv) (herr : s.err = 0) :
    ∃ t, exec .pclr s = .next t ∧ t.Inv ∧ SameButPacker s t ∧ packedBits t = [] ∧ Tracks t := by
  have hcleared : ({ s with acc := 0, nb := 0, ebits := 0, pay := [], payLen := 0 } : State).Inv :=
    { hi with
      canonical := by
        obtain ⟨hct, htn, -, hout⟩ := hi.canonical_parts
        exact State.canonical_iff.2 ⟨hct, htn, rfl, hout⟩
      payKeys := rfl
      payLen := Nat.zero_le _
      accPad := fun _ _ => BitVec.getLsbD_zero
      ebits := Nat.le_refl 0 }
  exact ⟨_, exec_pclr_of_ok herr, hcleared.of_respond _ _, rfl, packedBits_of_empty rfl rfl,
    tracks_of_empty rfl rfl rfl⟩

/-- What an encode session over `bytes` from `s` leaves in `t` (42_encoder R112): the codes of `s` at the front of PAY,
counted by EBITS, and nothing in ACC. -/
structure Encoded (bytes : List Byte) (s t : State) : Prop where
  inv : t.Inv
  frame : SameButPacker s t
  nb : t.nb = 0
  rsp : t.rsp = some ⟨.ok, 0⟩
  count : t.ebits.toNat = (bytes.flatMap (codeOf s)).length
  bits : ∃ pad, payBits t = bytes.flatMap (codeOf s) ++ pad

/-- An encode session of symbols with codes runs through where PAY has room. -/
theorem runAll_encodeSession_of_room {bytes : List Byte} {s : State} (hi : s.Inv) (herr : s.err = 0)
    (hcoded : ∀ b ∈ bytes, (ctEntry s b).len ≠ 0)
    (hroom : ((bytes.flatMap (codeOf s)).length + 7) / 8 ≤ s.payCap.toNat) :
    ∃ t, runAll (encodeSession bytes) s = .next t ∧ Encoded bytes s t := by
  obtain ⟨u, hclear, hu, hsame, hempty, htracks⟩ := exec_pclr_clears hi herr
  have hcode : codeOf u = codeOf s := codeOf_eq_of_ct_eq hsame.ct
  have herrU : u.err = 0 := hsame.err.trans herr
  have hroomU : ((packedBits u).length + (bytes.flatMap (codeOf u)).length) / 8 ≤ u.payCap.toNat := by
    rw [hempty, hcode, hsame.payCap, List.length_nil, Nat.zero_add]
    exact (Nat.div_le_div_right (Nat.le_add_right _ 7)).trans hroom
  obtain ⟨v, hrun, hv, hsameV⟩ := runAll_estr_of_room hu herrU (ctEntry_eq_of_ct_eq hsame.ct ▸ hcoded) hroomU
  have herrV : v.err = 0 := hsameV.err.trans herrU
  have hpacked : packedBits v = bytes.flatMap (codeOf s) := by
    rw [(packs_estr hu.canonical hrun herrV).bits, hempty, hcode, List.nil_append]
  have hcount : v.ebits.toNat = (packedBits v).length := tracks_iff_packedBits_length.1 (tracks_estr htracks hrun)
  obtain ⟨t, hflush, ht, hsameT, hnb, hrsp, hebits, hbits⟩ := exec_pflush_of_room hv herrV
    (by rw [hpacked, hsameV.payCap, hsame.payCap]; exact hroom)
  have hsession : runAll (encodeSession bytes) s = .next t :=
    runAll_cons_eq_next.2 ⟨u, hclear, runAll_append_eq_next.2 ⟨v, hrun, runAll_cons_eq_next.2 ⟨t, hflush, rfl⟩⟩⟩
  exact ⟨t, hsession, ht, hsame.trans (hsameV.trans hsameT), hnb, hrsp, by rw [hebits, hcount, hpacked],
    hpacked ▸ hbits⟩

/-! ## A decode session -/

/-- The four slices of a count, put into any word, make the count. -/
theorem setSlice_four (v c : Count) :
    setSlice (setSlice (setSlice (setSlice v 0 (c.extractLsb' 0 16)) 1 (c.extractLsb' 16 16)) 2
      (c.extractLsb' 32 16)) 3 (c.extractLsb' 48 16) = c := by
  apply BitVec.eq_of_getLsbD_eq
  intro j hj
  have hlt : j % 16 < 16 := Nat.mod_lt j (by decide)
  simp only [setSlice_getLsbD _ _ _ hj, BitVec.getLsbD_extractLsb', hlt, decide_true, Bool.true_and]
  have hk : j / 16 = 0 ∨ j / 16 = 1 ∨ j / 16 = 2 ∨ j / 16 = 3 := by omega
  obtain hk | hk | hk | hk := hk <;> simp [hk] <;> congr 1 <;> omega

theorem runAll_dset64 {s : State} (herr : s.err = 0) (count : Count) :
    runAll (dset64 count) s = .next (respond .ok 0 { s with tbcin := count }) := by
  have hnext (v : Count) (k : BitVec 2) (imm : BitVec 16) : exec (.dcnt k imm) (respond .ok 0 { s with tbcin := v }) =
      .next (respond .ok 0 { s with tbcin := setSlice v k imm }) :=
    exec_dcnt_of_ok (s := respond .ok 0 { s with tbcin := v }) herr k imm
  simp only [dset64, runAll, exec_dcnt_of_ok herr, hnext, setSlice_four]

/-- `s` with a count staged and latched by DSTART (43_bitunpacker R121, R122). -/
def decodeReady (count : Count) (s : State) : State :=
  respond .ok 0 { s with tbcin := count, dbits := count, dpos := 0, cur := s.root, out := [], outLen := 0 }

/-- A decode session is DRUN from where the count is latched. -/
theorem runAll_decodeSession {s u : State} {count : Count} (herr : s.err = 0)
    (hdrun : exec .drun (decodeReady count s) = .next u) : runAll (decodeSession count) s = .next u :=
  runAll_append_eq_next.2 ⟨_, runAll_dset64 herr count,
    runAll_cons_eq_next.2 ⟨decodeReady count s, exec_dstart_of_ok herr, runAll_cons_eq_next.2 ⟨u, hdrun, rfl⟩⟩⟩

theorem State.Inv.of_decodeReady {s : State} (h : s.Inv) (count : Count) : (decodeReady count s).Inv :=
  { h with
    canonical := by
      obtain ⟨hct, htn, hpay, -⟩ := h.canonical_parts
      exact State.canonical_iff.2 ⟨hct, htn, hpay, rfl⟩
    outKeys := rfl
    outLen := Nat.zero_le _
    dpos := Nat.zero_le _ }

/-- The bits ahead of a decode are as many bits of PAY as are counted. -/
theorem bitsAhead_decodeReady {s : State} {count : Count} {bits pad : List Bool} (hbits : payBits s = bits ++ pad)
    (hcount : count.toNat = bits.length) (hheld : count.toNat ≤ 8 * s.payLen.toNat) :
    bitsAhead (decodeReady count s) = bits := by
  calc bitsAhead (decodeReady count s)
      = (List.range count.toNat).map (payBit s) := bitsAhead_of_dpos_zero rfl
    _ = (payBits s).take bits.length := by
      rw [payBits, ← List.map_take, List.take_range, ← hcount, Nat.min_eq_left hheld]
    _ = bits := by rw [hbits, List.take_left]

/-- The codes of 44_decoder R135 are paths to leaves of one bit or more. -/
theorem codesArePaths.pathsToLeaves {s : State} (h : codesArePaths s) {bytes : List Byte}
    (hcoded : ∀ b ∈ bytes, (ctEntry s b).len ≠ 0) : PathsToLeaves (codeOf s) bytes s := by
  intro b hb
  refine ⟨fun hnil => hcoded b hb (BitVec.eq_of_toNat_eq ?_), h b (hcoded b hb)⟩
  rw [← codeOf_length, hnil]
  rfl

/-- Settles O48: the session leaves the codes of the sequence at the front of PAY, as many bits as EBITS counts; those
are the bits ahead of the decode, and they are paths from the root to the leaves of the sequence. -/
theorem encodeThenDecodeRoundTrips : Obligations.EncodeThenDecodeRoundTrips := by
  unfold Obligations.EncodeThenDecodeRoundTrips
  intro bytes s hi herr hcodes hcoded hpay hout
  rw [← flatMap_codeOf_length] at hpay
  obtain ⟨t, hrun, henc⟩ := runAll_encodeSession_of_room hi herr hcoded hpay
  have herr' : t.err = 0 := henc.frame.err.trans herr
  have hheld : t.ebits.toNat ≤ 8 * t.payLen.toNat := by
    have h := henc.inv.ebits
    rwa [henc.nb] at h
  have hroom : (0 : BitVec 25).toNat + bytes.length ≤ t.outCap.toNat := by
    rw [henc.frame.outCap]
    simpa using hout
  have hpaths := (hcodes.pathsToLeaves hcoded).of_tree_eq henc.frame.tn henc.frame.root
  obtain ⟨pad, hbits⟩ := henc.bits
  obtain ⟨u, hdrun, hend, houtput, hrsp⟩ := exec_drun_decodes (henc.inv.of_decodeReady t.ebits) herr' hheld rfl
    hroom (bitsAhead_decodeReady hbits henc.count hheld) (hpaths.of_tree_eq rfl rfl)
  exact ⟨t, u, hrun, herr', henc.nb, henc.rsp, runAll_decodeSession herr' hdrun, hend, houtput, hrsp⟩

end Sys2Proof.Machine
end

section
/-! SUPPORT. Read-out and system (45_readout_system): the registers as numbers, the number of each register, what PAYW, PAYR
and OUTR do outside the fault state, and what RDREG and SRESET do in every state. -/

namespace Sys2Proof.Machine

open Sys2Proof.Claims

/-! ## The registers as numbers -/

theorem low32_toNat (c : Count) : (low32 c).toNat = c.toNat % 4294967296 := by
  rw [low32, BitVec.extractLsb'_toNat, Nat.shiftRight_zero]

theorem high32_toNat (c : Count) : (high32 c).toNat = c.toNat / 4294967296 := by
  have hc := c.isLt
  rw [high32, BitVec.extractLsb'_toNat, Nat.shiftRight_eq_div_pow]
  omega

theorem flagValue_of_iff {b : Bool} {p : Prop} [Decidable p] (h : b = true ↔ p) : flagValue p = b.toNat := by
  rw [← flagValue_eq_true b, flagValue, flagValue, if_congr h.symm rfl rfl]

/-- A flag put above a word's bits. -/
theorem or_flagAt_toNat {w : Word} {k : Nat} (b : Bool) (hw : w.toNat < 2 ^ k) (hk : 1 + k ≤ 32) :
    (w ||| flagAt b k).toNat = w.toNat + 2 ^ k * b.toNat := by
  rw [flagAt, BitVec.or_comm, field_or_toNat _ hw hk, BitVec.toNat_ofBool]
  ring

theorem rootV_iff {s : State} : rootV s = true ↔ s.root ≠ .null := by
  cases hroot : s.root with
  | null => simp [rootV_of_null hroot]
  | node i => simp [rootV_of_node hroot]

/-- STATUS: ERR, then DEND, ATROOT and ROOTV in bits 8, 9 and 10 (10_state R32). -/
theorem statusWord_toNat (s : State) : (statusWord s).toNat = regValue s .status := by
  have herr := s.err.isLt
  have herr32 : (s.err.setWidth 32 : Word).toNat = s.err.toNat := BitVec.toNat_setWidth_of_le (by decide)
  have hdend := (dend s).toNat_le
  have hatRoot := (atRoot s).toNat_le
  have h8 := or_flagAt_toNat (k := 8) (dend s) (herr32.trans_lt herr) (by decide)
  have h9 := or_flagAt_toNat (k := 9) (atRoot s) (h8.trans_lt (by omega)) (by decide)
  have h10 := or_flagAt_toNat (k := 10) (rootV s) (h9.trans_lt (by omega)) (by decide)
  rw [statusWord, h10, h9, h8, herr32, regValue, flagValue_of_iff dend_iff, flagValue_of_iff atRoot_iff,
    flagValue_of_iff rootV_iff]
  omega

/-- A register's word is its value field by field (10_state R32). -/
theorem readReg_toNat (s : State) (r : Reg) : (readReg s r).toNat = regValue s r := by
  cases r
  case status => exact statusWord_toNat s
  case einfo => rfl
  case ebitsLo | tbcinLo | dbitsLo | dposLo => exact low32_toNat _
  case ebitsHi | tbcinHi | dbitsHi | dposHi => exact high32_toNat _
  case payLen | outLen | payCap | outCap => exact BitVec.toNat_setWidth_of_le (by decide)
  case packSt =>
    rw [readReg, BitVec.or_comm, two_fields_toNat _ _ (by decide), regValue]
    omega
  case treeSt =>
    have hroot : (s.root.word.setWidth 32 : Word).toNat = s.root.word.toNat := BitVec.toNat_setWidth_of_le (by decide)
    have hlow : (s.root.word.setWidth 32 : Word).toNat < 2 ^ 16 := hroot.trans_lt (by omega)
    rw [readReg, BitVec.or_comm, field_or_toNat _ hlow (by decide), hroot, regValue, Ptr.word_toNat, Ptr.word_toNat]
    omega

/-! ## The numbers of the registers -/

theorem Reg.mem_all (r : Reg) : r ∈ Reg.all := by cases r <;> decide

/-- The table written out is the one the model numbers the registers by. -/
theorem registerNumbers_eq_map : registerNumbers = Reg.all.map fun r => (r.number.toNat, r) := by decide

theorem mem_registerNumbers_iff {n : BitVec 4} {r : Reg} : (n.toNat, r) ∈ registerNumbers ↔ n = r.number := by
  rw [registerNumbers_eq_map, List.mem_map]
  constructor
  · rintro ⟨r', -, h⟩
    obtain ⟨hn, rfl⟩ := Prod.mk.inj h
    exact (BitVec.eq_of_toNat_eq hn).symm
  · rintro rfl
    exact ⟨r, Reg.mem_all r, rfl⟩

/-! ## The commands -/

/-- RDREG in every state, the fault state included (45_readout_system R143). -/
theorem exec_rdreg (r : Reg) (s : State) : exec (.rdreg r) s = .next (respond .ok (readReg s r) s) := rfl

/-- SRESET in every state, the fault state included (45_readout_system R144). -/
theorem exec_sreset (s : State) : exec .sreset s = .next (respond .ok 0 (toReset s)) := rfl

/-- The mask of SRESET's row leaves no bit out, so the row has one word. -/
theorem eq_of_decode_sreset {w : Word} (h : decode w = .ok .sreset) : w = 0x04000000 := by
  have hsel : w &&& Op.sreset.mask = Op.sreset.matchWord := exists_decode_op_iff.1 ⟨.sreset, h, rfl⟩
  have hmask : Op.sreset.mask = BitVec.allOnes 32 := by decide
  rw [hmask, BitVec.and_allOnes] at hsel
  exact hsel

section
variable {s : State} (herr : s.err = 0)
include herr

/-- PAYW where PAY is full (45_readout_system R140). -/
theorem payw_raises_of_full (byte : Byte) (hfull : s.payLen = s.payCap) : Raises (.payw byte) s .bufferFull 0 := by
  refine raises_of_rule (by rw [exec, execPayw]) herr ?_
  exact if_pos hfull

/-- PAYW where PAY is not full (45_readout_system R140). -/
theorem exec_payw_of_room (byte : Byte) (hroom : s.payLen ≠ s.payCap) :
    exec (.payw byte) s = .next (respond .ok 0 (appendPay byte s)) := by
  rw [exec, execPayw, command_of_ok herr, if_neg hroom]

/-- PAYR below PAYLEN (45_readout_system R141). -/
theorem exec_payr_of_lt {idx : BitVec 24} (hidx : idx.toNat < s.payLen.toNat) :
    exec (.payr idx) s = .next (respond .ok ((payByte s idx.toNat).setWidth 32) s) := by
  rw [exec, execPayr, command_of_ok herr, if_neg (Nat.not_le_of_lt hidx)]

/-- OUTR below OUTLEN (45_readout_system R142). -/
theorem exec_outr_of_lt {idx : BitVec 24} (hidx : idx.toNat < s.outLen.toNat) :
    exec (.outr idx) s = .next (respond .ok ((outByte s idx.toNat).setWidth 32) s) := by
  rw [exec, execOutr, command_of_ok herr, if_neg (Nat.not_le_of_lt hidx)]

end

/-! ## The obligations of read-out and system -/

/-- Settles O50: PAYW faults where PAY is full, and else appends its byte, which by the invariant's room does not wrap
PAYLEN. -/
theorem paywAppendsByte : Obligations.PaywAppendsByte := by
  unfold Obligations.PaywAppendsByte
  refine fun byte => ⟨decode_word (o := .payw) (by decide) rfl rfl rfl, fun s hi herr =>
    ⟨payw_raises_of_full herr byte, fun hroom => ⟨_, exec_payw_of_room herr byte hroom, ?_⟩⟩⟩
  obtain ⟨-, -, hpay, -⟩ := hi.canonical_parts
  refine ⟨?_, fun a ha => ?_, fun _ => rfl, payLen_succ (hi.payLen_lt hroom) hi.payCap.2, rfl⟩
  · exact (payByte_appendPay hpay byte _).trans (if_pos rfl)
  · exact (payByte_appendPay hpay byte a).trans (if_neg ha)

/-- Settles O53: the table lists each register once, by its number; RDREG only responds, with the register's word, which is
its value. -/
theorem rdregReadsRegister : Obligations.RdregReadsRegister := by
  unfold Obligations.RdregReadsRegister
  simp only [mem_registerNumbers_iff]
  refine ⟨fun n r hn => ⟨?_, fun s => ⟨_, _, exec_rdreg r s, rfl, readReg_toNat s r, sameBytes_of_eq rfl rfl⟩⟩,
    fun n => ⟨Reg.ofNumber n, (Reg.number_ofNumber n).symm⟩, fun r => ⟨r.number, rfl⟩⟩
  rw [hn]
  exact decode_word (o := .rdreg) (by decide) rfl rfl rfl

/-- Settles O52: each of the two faults at or past its buffer's length, and below it only responds with the byte. -/
theorem byteReadsOrBadIndex : Obligations.ByteReadsOrBadIndex := by
  unfold Obligations.ByteReadsOrBadIndex
  exact fun idx => ⟨decode_word (o := .payr) (by decide) rfl rfl rfl, decode_word (o := .outr) (by decide) rfl rfl rfl,
    fun s herr => ⟨payr_raises_of_payLen_le herr,
      fun hidx => ⟨_, exec_payr_of_lt herr hidx, rfl, sameBytes_of_eq rfl rfl⟩,
      outr_raises_of_outLen_le herr,
      fun hidx => ⟨_, exec_outr_of_lt herr hidx, rfl, sameBytes_of_eq rfl rfl⟩⟩⟩

/-- Settles O54: SRESET's row has one word, and the reset state's STATUS does not depend on the capacities. -/
theorem sresetResetsBlock : Obligations.SresetResetsBlock := by
  unfold Obligations.SresetResetsBlock
  exact ⟨by decide, fun _ => eq_of_decode_sreset,
    fun s => ⟨_, exec_sreset s, rfl, statusWord_resetFor s.payCap s.outCap⟩⟩

end Sys2Proof.Machine
end

section
/-! SUPPORT. The fault state (60_exceptions): what a command and a step do in it, and the commands that raise no fault. -/

namespace Sys2Proof.Machine

open Sys2Proof.Claims

/-! ## In the fault state -/

section
variable {s : State} (herr : s.err ≠ 0)
include herr

/-- The fault state refuses every command but SRESET and RDREG (60_exceptions R186). -/
theorem exec_of_fault (i : Instr) : exec i s = .next (refuse s) ∨ i = .sreset ∨ ∃ r, i = .rdreg r := by
  unfold exec
  cases i
  case sreset => exact .inr (.inl rfl)
  case rdreg r => exact .inr (.inr ⟨r, rfl⟩)
  case ctclr | ctlen | ctbit | ctrd | tclr | tleaf | tint | tsngl | tleft | tright | troot | trd | pclr | pbits | pflush
      | esym | payw | payr | outr | dcnt | dstart | ubit | dstep | drun =>
    exact .inl (command_of_fault herr _)

/-- The fault state refuses every word, legal or illegal, but SRESET's and RDREG's (60_exceptions R186). -/
theorem step_of_fault {w : Word} {rest : List Input} (hin : s.inputs = .command w :: rest) :
    step s = .next (refuse { s with inputs := rest }) ∨ decode w = .ok .sreset ∨ ∃ r, decode w = .ok (.rdreg r) := by
  by_cases hd : ∃ i, decode w = .ok i
  · obtain ⟨i, hd⟩ := hd
    rw [step_of_command hin hd, hd]
    obtain hrefused | rfl | ⟨r, rfl⟩ := exec_of_fault (s := { s with inputs := rest }) herr i
    · exact .inl hrefused
    · exact .inr (.inl rfl)
    · exact .inr (.inr ⟨r, rfl⟩)
  · rw [step_of_illegal hin (not_exists.1 hd)]
    exact .inl (command_of_fault (s := { s with inputs := rest }) herr _)

end

/-! ## RDREG's and SRESET's words, in every state -/

theorem readReg_inputs (s : State) (rest : List Input) (r : Reg) : readReg { s with inputs := rest } r = readReg s r := rfl

theorem step_rdreg {s : State} {w : Word} {rest : List Input} {r : Reg} (hin : s.inputs = .command w :: rest)
    (hd : decode w = .ok (.rdreg r)) : step s = .next { s with inputs := rest, rsp := some ⟨.ok, readReg s r⟩ } := by
  rw [step_of_command hin hd, exec_rdreg, readReg_inputs, respond]

theorem step_sreset {s : State} {w : Word} {rest : List Input} (hin : s.inputs = .command w :: rest)
    (hd : decode w = .ok .sreset) :
    step s = .next { State.resetFor s.payCap s.outCap with inputs := rest, rsp := some ⟨.ok, 0⟩ } := by
  rw [step_of_command hin hd, exec_sreset, respond, toReset]

/-! ## Commands that raise no fault -/

/-- Each of the seventeen commands of 60_exceptions R181 responds OK outside the fault state and stays outside it. -/
theorem exec_ok_of_neverFaults {i : Instr} {s t : State} (hi : neverFaults i = true) (herr : s.err = 0)
    (hexec : exec i s = .next t) : t.err = 0 ∧ ∃ d, t.rsp = some ⟨.ok, d⟩ := by
  unfold exec at hexec
  cases i
  case pbits | pflush | esym | payw | payr | outr | ubit | dstep | drun => cases hi
  case sreset =>
    cases hexec
    exact ⟨rfl, _, rfl⟩
  case rdreg =>
    cases hexec
    exact ⟨herr, _, rfl⟩
  case ctclr | ctlen | ctbit | ctrd | tclr | tleaf | tint | tsngl | tleft | tright | troot | trd | pclr | dcnt | dstart =>
    obtain ⟨-, rfl⟩ | ⟨hne, -⟩ := command_cases hexec
    · exact ⟨herr, _, rfl⟩
    · exact absurd herr hne

/-! ## The obligations of the exceptions -/

/-- Settles O13: RDREG's and SRESET's words do what they do in every state, and the fault state refuses all others. -/
theorem faultStateRefuses : Obligations.FaultStateRefuses := by
  unfold Obligations.FaultStateRefuses
  intro s w rest herr hin
  refine ⟨fun r hd => ⟨_, readReg s r, step_rdreg hin hd, readReg_toNat s r, rfl⟩, step_sreset hin, fun hrdreg hsreset => ?_⟩
  obtain hrefused | hd | ⟨r, hd⟩ := step_of_fault herr hin
  · exact hrefused
  · exact absurd hd hsreset
  · exact absurd hd (hrdreg r)

/-- Settles O12: in the fault state a word that is not SRESET's is refused or is RDREG's, and both write the response only. -/
theorem firstFaultIsKept : Obligations.FirstFaultIsKept := by
  unfold Obligations.FirstFaultIsKept
  intro s t w rest herr hin hsreset hstep
  obtain hrefused | hd | ⟨r, hd⟩ := step_of_fault herr hin
  · cases hrefused.symm.trans hstep
    exact ⟨rfl, rfl⟩
  · exact absurd hd hsreset
  · cases (step_rdreg hin hd).symm.trans hstep
    exact ⟨rfl, rfl⟩

/-- Settles O17: outside the fault state the seventeen commands respond OK, and in it every command but SRESET and RDREG is
refused. -/
theorem commandsThatNeverFault : Obligations.CommandsThatNeverFault := by
  unfold Obligations.CommandsThatNeverFault
  refine fun i s t hi hexec => ⟨fun herr => exec_ok_of_neverFaults hi herr hexec, fun herr => ?_⟩
  refine (exec_of_fault herr i).imp_left fun hrefused => ?_
  cases hrefused.symm.trans hexec
  rfl

end Sys2Proof.Machine
end

section
/-! SUPPORT. The encoder undoes the decoder: the operand fields of the command that a word decodes to are the word's low
bits, all of them. -/

namespace Sys2Proof

/-! ## From a command to its word and back -/

/-- Settles O4: a command's word lies in its row, which reads its operands back. -/
theorem decodeEncodeRoundTrip : Obligations.DecodeEncodeRoundTrip := by
  unfold Obligations.DecodeEncodeRoundTrip
  exact fun _ => decode_encode

/-! ## From a word to its command and back -/

theorem extractLsb'_toNat_eq (w : Word) (p n : Nat) : (w.extractLsb' p n).toNat = w.toNat / 2 ^ p % 2 ^ n := by
  rw [BitVec.extractLsb'_toNat, Nat.shiftRight_eq_div_pow]

/-- PBITS's bit count is one more than its field, and so 1 to 16 (30_encoding R63). -/
theorem pbitsCount_of_field (cnt : BitVec 4) :
    (cnt.setWidth 5 + 1 - 1).toNat % 16 = cnt.toNat ∧
      1 ≤ (cnt.setWidth 5 + 1).toNat ∧ (cnt.setWidth 5 + 1).toNat ≤ 16 := by
  revert cnt
  decide

theorem assemble_wellFormed (o : Op) (w : Word) : (assemble o w).wellFormed = true := by
  cases o
  case pbits =>
    obtain ⟨-, hlo, hhi⟩ := pbitsCount_of_field (w.extractLsb' 16 4)
    simp only [assemble, Instr.wellFormed, hlo, hhi, decide_true, Bool.and_self]
  all_goals rfl

/-- Operand assembly drops no bit of a row's operand fields. -/
theorem fieldValue_assemble (o : Op) (w : Word) : (assemble o w).fieldValue = w.toNat % 2 ^ o.format.operandBits := by
  cases o <;> dsimp only [assemble, Instr.fieldValue, Op.format, Op.row, Format.operandBits]
  case sreset | ctclr | tclr | pclr | pflush | dstart | ubit | dstep | drun => omega
  case rdreg => rw [Reg.number_ofNumber, extractLsb'_toNat_eq, Nat.pow_zero, Nat.div_one]
  case tint | tsngl | troot | trd | esym | payw | payr | outr => rw [extractLsb'_toNat_eq, Nat.pow_zero, Nat.div_one]
  case ctlen | ctrd | tleaf | tleft | tright | dcnt =>
    rw [extractLsb'_toNat_eq, extractLsb'_toNat_eq]
    omega
  case ctbit =>
    have hbit : (w.getLsbD 16).toNat = w.toNat / 2 ^ 16 % 2 := by
      rw [BitVec.getLsbD, Nat.toNat_testBit]
    rw [extractLsb'_toNat_eq, extractLsb'_toNat_eq, hbit]
    omega
  case pbits =>
    rw [(pbitsCount_of_field (w.extractLsb' 16 4)).1, extractLsb'_toNat_eq, extractLsb'_toNat_eq]
    omega

/-- The opcode and the operand fields are the whole word. -/
theorem encode_of_decode {w : Word} {i : Instr} (h : decode w = .ok i) : encode i = w := by
  obtain ⟨o, hcode, hmbz, rfl⟩ := decode_eq_ok.1 h
  apply BitVec.eq_of_toNat_eq
  have hfields : (assemble o w).fieldValue = w.toNat % 2 ^ 26 := by
    have hdvd : 2 ^ o.format.operandBits ∣ 2 ^ 26 := Nat.pow_dvd_pow 2 o.format.operandBits_le
    rw [fieldValue_assemble, ← Nat.mod_mod_of_dvd w.toNat hdvd, Nat.mod_eq_of_lt hmbz]
  rw [encode_toNat, assemble_op, ← hcode, hfields, Nat.mul_comm, Nat.div_add_mod]

/-- Settles O5: the row of a word assembles well-formed operands and drops no bit. -/
theorem decodedWordReencodes : Obligations.DecodedWordReencodes := by
  unfold Obligations.DecodedWordReencodes
  refine fun w i h => ⟨?_, encode_of_decode h⟩
  obtain ⟨o, -, -, rfl⟩ := decode_eq_ok.1 h
  exact assemble_wellFormed o w

/-- Settles O7: each of the eleven words is its command's. -/
theorem writtenWordsDecode : Obligations.WrittenWordsDecode := by
  unfold Obligations.WrittenWordsDecode
  decide

end Sys2Proof
end

section
/-! SUPPORT. What every command does: it keeps the invariant, answers with one response, and outside the fault state
completes or raises one of the faults of the table of 60_exceptions R180. -/

namespace Sys2Proof.Machine

open Sys2Proof.Claims

/-! ## A command word, a reset, a wait -/

/-- Settles O1: the word is taken from the port and decoded. -/
theorem stepRunsDecodedCommand : Obligations.StepRunsDecodedCommand := by
  unfold Obligations.StepRunsDecodedCommand
  exact fun _ _ _ _ => step_of_command

/-- Settles O3: a reset takes the block to the reset state, and with no input the block waits. -/
theorem hardwareResetAndWaiting : Obligations.HardwareResetAndWaiting := by
  unfold Obligations.HardwareResetAndWaiting
  exact ⟨fun _ _ _ => step_of_reset, fun _ => step_of_idle⟩

/-! ## The invariant -/

/-- Settles O9: both capacities of State.reset are 64. -/
theorem resetMeetsInvariant : Obligations.ResetMeetsInvariant := by
  unfold Obligations.ResetMeetsInvariant
  exact ⟨fun _ _ hp hp' ho ho' => .of_resetFor ⟨hp, hp'⟩ ⟨ho, ho'⟩, .of_resetFor (by decide) (by decide)⟩

/-- A refusal keeps the invariant, so a command keeps it if its rule does. -/
theorem State.Inv.of_command {s t : State} {rule : State → State} (hi : s.Inv) (h : command s rule = .next t)
    (hrule : (rule s).Inv) : t.Inv := by
  obtain ⟨-, rfl⟩ | ⟨-, rfl⟩ := command_cases h
  · exact hrule
  · exact hi.of_respond _ _

theorem State.Inv.of_ctclr {s : State} (h : s.Inv) : ({ s with ct := [] } : State).Inv :=
  { h with
    canonical := by
      obtain ⟨-, htn, hpay, hout⟩ := h.canonical_parts
      exact State.canonical_iff.2 ⟨rfl, htn, hpay, hout⟩
    ctKeys := rfl }

theorem State.Inv.of_tclr {s : State} (h : s.Inv) : ({ s with tn := [], root := .null } : State).Inv :=
  { h with
    canonical := by
      obtain ⟨hct, -, hpay, hout⟩ := h.canonical_parts
      exact State.canonical_iff.2 ⟨hct, rfl, hpay, hout⟩
    tnKeys := rfl
    nodeSym := fun _ hc => by cases hc }

theorem State.Inv.of_root {s : State} (h : s.Inv) (p : Ptr) : ({ s with root := p } : State).Inv := { h with }

theorem State.Inv.of_tbcin {s : State} (h : s.Inv) (v : Count) : ({ s with tbcin := v } : State).Inv := { h with }

theorem State.Inv.of_pclr {s t : State} (hi : s.Inv) (h : exec .pclr s = .next t) : t.Inv := by
  by_cases herr : s.err = 0
  · obtain ⟨u, hu, hinv, -⟩ := exec_pclr_clears hi herr
    cases hu.symm.trans h
    exact hinv
  · unfold exec at h
    cases (command_of_fault herr _).symm.trans h
    exact hi.of_respond _ _

theorem State.Inv.of_dstep {s t : State} (hi : s.Inv) (h : exec .dstep s = .next t) : t.Inv := by
  unfold exec at h
  refine hi.of_command h ?_
  by_cases hend : s.dbits ≤ s.dpos
  · rw [if_pos hend]
    exact hi.of_respond _ _
  · obtain ⟨hraised, hmoved⟩ := hi.of_walkPass (BitVec.lt_def.1 (BitVec.not_le.1 hend))
    rw [if_neg hend]
    cases hw : walkPass s with
    | raised u => exact hraised u hw
    | moved u d => exact (hmoved u d hw).of_respond _ _

/-- Every command keeps the invariant. -/
theorem exec_keeps_inv {i : Instr} {s t : State} (hi : s.Inv) (h : exec i s = .next t) : t.Inv := by
  cases i
  case pclr => exact hi.of_pclr h
  case dstep => exact hi.of_dstep h
  all_goals unfold exec at h
  case sreset =>
    cases h
    exact hi.of_toReset.of_respond _ _
  case rdreg =>
    cases h
    exact hi.of_respond _ _
  case ctclr => exact hi.of_command h (hi.of_ctclr.of_respond _ _)
  case ctlen | ctbit => exact hi.of_command h ((hi.of_setCtEntry _ _).of_respond _ _)
  case ctrd | trd => exact hi.of_command h (hi.of_respond _ _)
  case tclr => exact hi.of_command h (hi.of_tclr.of_respond _ _)
  case tleaf => exact hi.of_command h ((hi.of_setTnNode _ _ fun hk => absurd rfl hk).of_respond _ _)
  case tint | tsngl => exact hi.of_command h ((hi.of_setTnNode _ _ fun _ => rfl).of_respond _ _)
  case tleft idx c =>
    exact hi.of_command h ((hi.of_setTnNode idx ⟨_, _, .node c, _⟩ (hi.tnNode_sym idx)).of_respond _ _)
  case tright idx c =>
    exact hi.of_command h ((hi.of_setTnNode idx ⟨_, _, _, .node c⟩ (hi.tnNode_sym idx)).of_respond _ _)
  case troot => exact hi.of_command h ((hi.of_root _).of_respond _ _)
  case pbits => exact hi.of_command h (hi.of_pushChecked _ _)
  case esym =>
    refine hi.of_command h ?_
    dsimp only
    split_ifs
    · exact hi.of_raise _ _
    · exact hi.of_pushChecked _ _
  case pflush =>
    refine hi.of_command h ?_
    split_ifs with hnone hfull
    · exact hi.of_respond _ _
    · exact hi.of_raise _ _
    · exact (hi.of_flushAcc (hi.payLen_lt hfull) _).of_respond _ _
  case payw =>
    refine hi.of_command h ?_
    split_ifs with hfull
    · exact hi.of_raise _ _
    · exact (hi.of_appendPay (hi.payLen_lt hfull) _).of_respond _ _
  case payr | outr =>
    refine hi.of_command h ?_
    split_ifs
    · exact hi.of_raise _ _
    · exact hi.of_respond _ _
  case dcnt => exact hi.of_command h ((hi.of_tbcin _).of_respond _ _)
  case dstart => exact hi.of_command h (hi.of_decodeReady s.tbcin)
  case ubit =>
    refine hi.of_command h ?_
    split_ifs with hend
    · exact hi.of_respond _ _
    · exact (hi.of_move (BitVec.lt_def.1 (BitVec.not_le.1 hend)) s.cur).of_respond _ _
    · exact hi.of_raise _ _
  case drun => exact hi.of_command h hi.of_runWalk

/-- Settles O10: a step waits, resets the block, executes a command or answers an illegal word, and each keeps the
invariant. -/
theorem stepKeepsInvariant : Obligations.StepKeepsInvariant := by
  unfold Obligations.StepKeepsInvariant
  intro s t hi h
  obtain ⟨-, rfl⟩ | ⟨d, rest, -, rfl⟩ | ⟨w, rest, i, -, -, hexec⟩ | ⟨w, rest, -, -, hill⟩ := step_cases h
  · exact hi
  · exact (hi.of_inputs rest).of_toReset
  · exact exec_keeps_inv (hi.of_inputs rest) hexec
  · exact (hi.of_inputs rest).of_command hill ((hi.of_inputs rest).of_raise _ _)

theorem runAll_keeps_inv {is : List Instr} {s t : State} (hi : s.Inv) (h : runAll is s = .next t) : t.Inv := by
  induction is generalizing s with
  | nil =>
    cases h
    exact hi
  | cons i is ih =>
    obtain ⟨u, hexec, hrest⟩ := runAll_cons_eq_next.1 h
    exact ih (exec_keeps_inv hi hexec) hrest

/-! ## One response to each command -/

/-- What no command writes: what the host will do next, and the two capacities (log entries 1 and 2). -/
def unwritten (s : State) : List Input × BitVec 25 × BitVec 25 := (s.inputs, s.payCap, s.outCap)

/-- The block has given a response, and what no command writes is as in `s`. -/
structure Answered (s t : State) : Prop where
  rsp : ∃ r, t.rsp = some r
  unwritten : unwritten t = unwritten s

theorem Answered.of_respond (st : Status) (d : Word) {s t : State} (h : Machine.unwritten t = Machine.unwritten s) :
    Answered s (respond st d t) := ⟨⟨_, rfl⟩, h⟩

theorem Answered.of_raise (c : Cause) (info : Word) (s : State) : Answered s (raise c info s) :=
  .of_respond _ _ rfl

/-- A refusal is a response, so a command answers if its rule does. -/
theorem command_answered {s : State} {rule : State → State} (hrule : Answered s (rule s)) :
    ∃ t, command s rule = .next t ∧ Answered s t := by
  by_cases herr : s.err = 0
  · exact ⟨_, command_of_ok herr rule, hrule⟩
  · exact ⟨_, command_of_fault herr rule, .of_respond _ _ rfl⟩

theorem Answered.of_pushChecked (bs : List Bool) (d : Word) (s : State) : Answered s (pushChecked bs d s) := by
  obtain ⟨-, hp⟩ | ⟨-, hp⟩ := pushChecked_cases bs d s
  · rw [hp]
    exact .of_raise _ _ s
  · rw [hp, pushBits_frame]
    exact .of_respond _ _ rfl

theorem Answered.of_sameButWalk {s t : State} (h : SameButWalk s t) (hrsp : ∃ r, t.rsp = some r) : Answered s t := by
  refine ⟨hrsp, ?_⟩
  rw [h]
  rfl

theorem Answered.of_raised {s t : State} (h : walkPass s = .raised t) : Answered s t :=
  .of_sameButWalk (.of_raised h) ⟨_, (walkPass_raised h).2.1⟩

theorem Answered.of_runWalk (s : State) : Answered s (runWalk (s.dbits.toNat - s.dpos.toNat) s) :=
  .of_sameButWalk (.of_runWalk s) <|
    runWalk_induction (P := fun _ => True) (Q := fun u => ∃ r, u.rsp = some r) (fun _ _ _ _ _ _ => trivial)
      (fun _ _ _ _ hw => (Answered.of_raised hw).rsp) (fun _ _ _ => ⟨_, rfl⟩) trivial

/-- Every command answers with a next state that has a response. -/
theorem exec_answered (i : Instr) (s : State) : ∃ t, exec i s = .next t ∧ Answered s t := by
  unfold exec
  cases i
  case sreset | rdreg => exact ⟨_, rfl, .of_respond _ _ rfl⟩
  case ctclr | ctlen | ctbit | ctrd | tclr | tleaf | tint | tsngl | tleft | tright | troot | trd | pclr | dcnt | dstart =>
    exact command_answered (.of_respond _ _ rfl)
  case pbits => exact command_answered (.of_pushChecked _ _ s)
  case esym =>
    refine command_answered ?_
    dsimp only
    split_ifs
    · exact .of_raise _ _ s
    · exact .of_pushChecked _ _ s
  case pflush | payw | payr | outr | ubit =>
    refine command_answered ?_
    split_ifs <;> exact .of_respond _ _ rfl
  case dstep =>
    refine command_answered ?_
    split_ifs
    · exact .of_respond _ _ rfl
    · cases hw : walkPass s with
      | raised t => exact .of_raised hw
      | moved t d =>
        rw [walkPass_moved hw]
        exact .of_respond _ _ rfl
  case drun => exact command_answered (.of_runWalk s)

/-- A command word, legal or not, is taken from the port and answered. -/
theorem step_answered {s : State} {w : Word} {rest : List Input} (hin : s.inputs = .command w :: rest) :
    ∃ t, step s = .next t ∧ Answered { s with inputs := rest } t := by
  by_cases hd : ∃ i, decode w = .ok i
  · obtain ⟨i, hd⟩ := hd
    rw [step_of_command hin hd]
    exact exec_answered i _
  · rw [step_of_illegal hin (not_exists.1 hd)]
    exact command_answered (.of_raise _ _ _)

/-- Settles O11: with no input the block waits, a reset resets it, and a command word is taken and answered. -/
theorem everyCommandIsAnswered : Obligations.EveryCommandIsAnswered := by
  unfold Obligations.EveryCommandIsAnswered
  refine ⟨fun s => ?_, fun s w rest hin => ?_⟩
  · match hin : s.inputs with
    | [] => exact ⟨_, step_of_idle hin⟩
    | .reset _ :: _ => exact ⟨_, step_of_reset hin⟩
    | .command _ :: _ =>
      obtain ⟨t, ht, -⟩ := step_answered hin
      exact ⟨t, ht⟩
  · obtain ⟨t, ht, hans⟩ := step_answered hin
    obtain ⟨r, hr⟩ := hans.rsp
    exact ⟨t, r, ht, hr, congrArg Prod.fst hans.unwritten⟩

end Sys2Proof.Machine
end

section
/-! SUPPORT. The faults (60_exceptions R180 to R184): which command raises which fault, under which condition and with which
information; a command that raises none completes. What a response says about ERR. -/

namespace Sys2Proof.Machine

open Sys2Proof.Claims

/-! ## What a command can do outside the fault state -/

/-- BUFFER_FULL(0): what the command would append to PAY does not fit (60_exceptions R180). -/
def PayFull (i : Instr) (s : State) : Prop :=
  (∃ n v, i = .pbits n v ∧ s.payCap.toNat < s.payLen.toNat + (s.nb.toNat + n.toNat) / 8) ∨
  (∃ sym, i = .esym sym ∧ (ctEntry s sym).len ≠ 0 ∧
    s.payCap.toNat < s.payLen.toNat + (s.nb.toNat + (ctEntry s sym).len.toNat) / 8) ∨
  (i = .pflush ∧ s.nb ≠ 0 ∧ s.payLen = s.payCap) ∨ (∃ b, i = .payw b ∧ s.payLen = s.payCap)

/-- The command `i` raises a fault in `s` and leaves `t`: the rows of 60_exceptions R180, "raised by". The walk's faults are
those of one pass, of DSTEP from `s` and of DRUN from where its passes have led. -/
inductive RaisesIn : Instr → State → State → Prop
  | noCode {s : State} (sym : Sym) (hlen : (ctEntry s sym).len = 0) :
    RaisesIn (.esym sym) s (raise .corruptCodeTable (sym.setWidth 32) s)
  | payFull {s : State} {i : Instr} (hfull : PayFull i s) : RaisesIn i s (raise .bufferFull 0 s)
  | payIndex {s : State} (idx : BitVec 24) (hidx : s.payLen.toNat ≤ idx.toNat) :
    RaisesIn (.payr idx) s (raise .badIndex (idx.setWidth 32) s)
  | outIndex {s : State} (idx : BitVec 24) (hidx : s.outLen.toNat ≤ idx.toNat) :
    RaisesIn (.outr idx) s (raise .badIndex (idx.setWidth 32) s)
  | bitMissing {s : State} (hleft : s.dpos.toNat < s.dbits.toNat) (hbyte : s.payLen.toNat ≤ s.dpos.toNat / 8) :
    RaisesIn .ubit s (raise .payloadShort (low s.dpos) s)
  | walked {s t u : State} {i : Instr} (hi : i = .dstep ∧ u = s ∨ i = .drun) (hleft : u.dpos.toNat < u.dbits.toNat)
    (hw : walkPass u = .raised t) : RaisesIn i s t

/-- No fault stands, and the response is OK or END. -/
def Completed (t : State) : Prop := t.err = 0 ∧ ∃ st d, t.rsp = some ⟨st, d⟩ ∧ (st = .ok ∨ st = .ended)

/-- A fault stands, and the response is FAULT with its code (60_exceptions R184). -/
def Faulted (t : State) : Prop := t.err ≠ 0 ∧ t.rsp = some ⟨.fault, t.err.setWidth 32⟩

theorem Faulted.of_raise (c : Cause) (info : Word) (s : State) : Faulted (raise c info s) :=
  ⟨raise_err_ne_zero c info s, rfl⟩

theorem RaisesIn.faulted {i : Instr} {s t : State} (h : RaisesIn i s t) : Faulted t := by
  cases h
  case noCode | payFull | payIndex | outIndex | bitMissing => exact .of_raise _ _ s
  case walked hw =>
    obtain ⟨herr, hrsp, -⟩ := walkPass_raised hw
    exact ⟨herr, hrsp⟩

theorem Completed.of_ok {s : State} (d : Word) (herr : s.err = 0) : Completed (respond .ok d s) :=
  ⟨herr, _, d, rfl, .inl rfl⟩

theorem Completed.of_ended {s : State} (d : Word) (herr : s.err = 0) : Completed (respond .ended d s) :=
  ⟨herr, _, d, rfl, .inr rfl⟩

theorem pushChecked_outcome {s : State} (herr : s.err = 0) (bs : List Bool) (d : Word) :
    (s.payCap.toNat < s.payLen.toNat + (s.nb.toNat + bs.length) / 8 ∧ pushChecked bs d s = raise .bufferFull 0 s) ∨
    Completed (pushChecked bs d s) := by
  refine (pushChecked_cases bs d s).imp_right fun ⟨_, hp⟩ => ?_
  rw [hp, pushBits_frame]
  exact .of_ok d herr

/-- The loop of DRUN completes, or ends in the fault of one of its passes. -/
theorem runWalk_outcome {s : State} (herr : s.err = 0) :
    RaisesIn .drun s (runWalk (s.dbits.toNat - s.dpos.toNat) s) ∨
      Completed (runWalk (s.dbits.toNat - s.dpos.toNat) s) := by
  refine runWalk_induction (P := fun u => u.err = 0) (Q := fun u => RaisesIn .drun s u ∨ Completed u)
    (fun u v d hu _ hw => ?_) (fun u v _ hleft hw => .inl (.walked (.inr rfl) hleft hw))
    (fun u hu _ => .inr (.of_ok _ hu)) herr
  rw [walkPass_moved hw]
  exact hu

/-- Everything a command can do outside the fault state: complete, or raise a fault of the table. -/
theorem exec_outcome {i : Instr} {s t : State} (herr : s.err = 0) (h : exec i s = .next t) :
    RaisesIn i s t ∨ Completed t := by
  unfold exec at h
  cases i
  case sreset =>
    cases h
    exact .inr (.of_ok _ rfl)
  case rdreg =>
    cases h
    exact .inr (.of_ok _ herr)
  all_goals
    obtain ⟨-, rfl⟩ | ⟨hne, -⟩ := command_cases h
    case inr => exact absurd herr hne
  case ctclr | ctlen | ctbit | ctrd | tclr | tleaf | tint | tsngl | tleft | tright | troot | trd | pclr | dcnt | dstart =>
    exact .inr (.of_ok _ herr)
  case pbits n v =>
    refine (pushChecked_outcome herr (bitsDown v n.toNat) 0).imp_left fun ⟨hfull, hp⟩ => ?_
    rw [bitsDown_length] at hfull
    rw [hp]
    exact .payFull (.inl ⟨n, v, rfl, hfull⟩)
  case esym sym =>
    dsimp only
    split_ifs with hlen
    · exact .inl (.noCode sym hlen)
    · refine (pushChecked_outcome herr (ctEntry s sym).bits _).imp_left fun ⟨hfull, hp⟩ => ?_
      rw [CodeEntry.bits_length] at hfull
      rw [hp]
      exact .payFull (.inr (.inl ⟨sym, rfl, hlen, hfull⟩))
  case pflush =>
    split_ifs with hnb hfull
    · exact .inr (.of_ok _ herr)
    · exact .inl (.payFull (.inr (.inr (.inl ⟨rfl, hnb, hfull⟩))))
    · exact .inr (.of_ok _ herr)
  case payw b =>
    split_ifs with hfull
    · exact .inl (.payFull (.inr (.inr (.inr ⟨b, rfl, hfull⟩))))
    · exact .inr (.of_ok _ herr)
  case payr idx =>
    split_ifs with hidx
    · exact .inl (.payIndex idx hidx)
    · exact .inr (.of_ok _ herr)
  case outr idx =>
    split_ifs with hidx
    · exact .inl (.outIndex idx hidx)
    · exact .inr (.of_ok _ herr)
  case ubit =>
    split_ifs with hend hbit
    · exact .inr (.of_ended _ herr)
    · exact .inr (.of_ok _ herr)
    · have hbyte : s.payLen.toNat ≤ s.dpos.toNat / 8 := by
        rw [nextBitAvailable, decide_eq_true_iff] at hbit
        exact Nat.le_of_not_lt hbit
      rw [low32_eq_low]
      exact .inl (.bitMissing (BitVec.lt_def.1 (BitVec.not_le.1 hend)) hbyte)
  case dstep =>
    split_ifs with hend
    · exact .inr (.of_ended _ herr)
    · cases hw : walkPass s with
      | raised u => exact .inl (.walked (.inl ⟨rfl, rfl⟩) (BitVec.lt_def.1 (BitVec.not_le.1 hend)) hw)
      | moved u d =>
        rw [walkPass_moved hw]
        exact .inr (.of_ok _ herr)
  case drun => exact runWalk_outcome herr

/-- A command word outside the fault state raises a fault or completes. -/
theorem step_outcome {s t : State} {w : Word} {rest : List Input} (herr : s.err = 0)
    (hin : s.inputs = .command w :: rest) (h : step s = .next t) : Faulted t ∨ Completed t := by
  by_cases hd : ∃ i, decode w = .ok i
  · obtain ⟨i, hd⟩ := hd
    rw [step_of_command hin hd] at h
    exact (exec_outcome (s := { s with inputs := rest }) herr h).imp_left RaisesIn.faulted
  · rw [step_of_illegal hin (not_exists.1 hd), illegalCommand, command_of_ok (s := { s with inputs := rest }) herr] at h
    cases h
    exact .inl (.of_raise _ _ _)

/-! ## What a response says about ERR -/

/-- A command but RDREG that responds OK or END leaves no fault standing. -/
theorem err_eq_zero_of_response {i : Instr} {s t : State} {st : Status} {d : Word} (hi : ∀ r, i ≠ .rdreg r)
    (h : exec i s = .next t) (hrsp : t.rsp = some ⟨st, d⟩) (hst : st = .ok ∨ st = .ended) : t.err = 0 := by
  by_cases herr : s.err = 0
  · obtain hf | hc := exec_outcome herr h
    · rw [hf.faulted.2] at hrsp
      cases hrsp
      simp at hst
    · exact hc.1
  · obtain hrefused | rfl | ⟨r, rfl⟩ := exec_of_fault herr i
    · cases hrefused.symm.trans h
      cases hrsp
      simp at hst
    · cases h
      rfl
    · exact absurd rfl (hi r)

/-- A command that responds FAULT or REFUSED leaves a fault standing. -/
theorem err_ne_zero_of_response {i : Instr} {s t : State} {d : Word} (h : exec i s = .next t)
    (hrsp : t.rsp = some ⟨.fault, d⟩ ∨ t.rsp = some ⟨.refused, d⟩) : t.err ≠ 0 := by
  by_cases herr : s.err = 0
  · obtain hf | ⟨-, st, d', hok, hst⟩ := exec_outcome herr h
    · exact hf.faulted.1
    · obtain rfl | rfl := hst <;> simp [hok] at hrsp
  · obtain hrefused | rfl | ⟨r, rfl⟩ := exec_of_fault herr i
    · cases hrefused.symm.trans h
      exact herr
    · cases h
      simp at hrsp
    · cases h
      simp at hrsp

/-! ## The walk's faults -/

/-- The four faults that one pass of the walk raises, read off the state it leaves (60_exceptions R180). -/
theorem walkPass_raised_cases {s t : State} (hleft : s.dpos.toNat < s.dbits.toNat) (h : walkPass s = .raised t) :
    (t.err = 2 ∧ CursorBitThere t ∧ t.einfo = low t.dpos ∧
      (child t (cursorBit t) = .null ∨ ∃ c, child t (cursorBit t) = .node c ∧ (tnNode t c).kind = .invalid)) ∨
    (t.err = 3 ∧ t.dpos = t.dbits ∧ t.cur ≠ t.root ∧ t.einfo = low t.dbits) ∨
    (t.err = 4 ∧ t.dpos.toNat < t.dbits.toNat ∧ t.payLen.toNat ≤ t.dpos.toNat / 8 ∧ t.einfo = low t.dpos) ∨
    (t.err = 5 ∧ t.einfo = 1 ∧ t.outLen = t.outCap ∧ CursorBitThere t ∧
      ∃ c, child t (cursorBit t) = .node c ∧ (tnNode t c).kind = .leaf) := by
  have hthere (havail : nextBitAvailable s = true) : CursorBitThere s := ⟨hleft, of_decide_eq_true havail⟩
  obtain ⟨hmissing, hw⟩ | ⟨havail, hchild, hw⟩ | ⟨havail, c, hchild, hkind, ⟨hfull, hw⟩ | ⟨-, hw⟩⟩ |
    ⟨-, c, -, -, ⟨hlast, hroot, hw⟩ | ⟨-, hw⟩⟩ := walkPass_cases s <;> rw [hw] at h <;> cases h
  · exact .inr (.inr (.inl ⟨rfl, hleft, Nat.le_of_not_lt (of_decide_eq_false hmissing), low32_eq_low _⟩))
  · exact .inl ⟨rfl, hthere havail, low32_eq_low _, hchild⟩
  · exact .inr (.inr (.inr ⟨rfl, rfl, hfull, hthere havail, c, hchild, hkind⟩))
  · exact .inr (.inl ⟨rfl, hlast, hroot.symm, by rw [raise_einfo, hlast, low32_eq_low]; rfl⟩)

theorem raise_err_ne_three {c : Cause} (hc : c ≠ .corruptStreamTail) (info : Word) (s : State) :
    (raise c info s).err ≠ 3 := by
  rw [raise_err]
  revert hc
  cases c <;> decide

/-- What a pass that raises has written: the tail's fault the move too, the others the fault registers only. -/
theorem walkPass_raised_precise {s t : State} (h : walkPass s = .raised t) :
    (t.err ≠ 3 → t = { s with err := t.err, einfo := t.einfo, rsp := some ⟨.fault, t.err.setWidth 32⟩ }) ∧
    (t.err = 3 → t.dpos = s.dpos + 1 ∧ t.dpos = t.dbits ∧ t.cur ≠ t.root ∧
      t = { s with dpos := t.dpos, cur := t.cur, err := 3, einfo := low t.dpos, rsp := some ⟨.fault, 3⟩ }) := by
  obtain ⟨-, hw⟩ | ⟨-, -, hw⟩ | ⟨-, c, -, -, ⟨-, hw⟩ | ⟨-, hw⟩⟩ |
    ⟨-, c, -, -, ⟨hlast, hroot, hw⟩ | ⟨-, hw⟩⟩ := walkPass_cases s <;> rw [hw] at h <;> cases h
  · exact ⟨fun _ => rfl, fun h3 => absurd h3 (raise_err_ne_three (by decide) _ _)⟩
  · exact ⟨fun _ => rfl, fun h3 => absurd h3 (raise_err_ne_three (by decide) _ _)⟩
  · exact ⟨fun _ => rfl, fun h3 => absurd h3 (raise_err_ne_three (by decide) _ _)⟩
  · refine ⟨fun h3 => absurd rfl h3, fun _ => ⟨rfl, hlast, hroot.symm, ?_⟩⟩
    rw [low32_eq_low]
    rfl

/-! ## The obligations of the faults -/

/-- Settles O16: each way to raise a fault is a row of the table. -/
theorem faultCausesAndInformation : Obligations.FaultCausesAndInformation := by
  unfold Obligations.FaultCausesAndInformation
  intro i s t herr hexec hne
  obtain hf | hc := exec_outcome herr hexec
  case inr => exact absurd hc.1 hne
  cases hf with
  | noCode sym hlen => exact .inl ⟨rfl, sym, rfl, hlen, rfl⟩
  | payFull hfull => exact .inr (.inr (.inr (.inr (.inl ⟨rfl, rfl, hfull⟩))))
  | payIndex idx hidx => exact .inr (.inr (.inr (.inr (.inr (.inr ⟨rfl, idx, rfl, .inl ⟨rfl, hidx⟩⟩)))))
  | outIndex idx hidx => exact .inr (.inr (.inr (.inr (.inr (.inr ⟨rfl, idx, rfl, .inr ⟨rfl, hidx⟩⟩)))))
  | bitMissing hleft hbyte => exact .inr (.inr (.inr (.inl ⟨rfl, .inl rfl, hleft, hbyte, rfl⟩)))
  | walked hi hleft hw =>
    have hi := hi.imp_left And.left
    obtain ⟨herr, hrow⟩ | ⟨herr, hrow⟩ | ⟨herr, hrow⟩ | ⟨herr, hrow⟩ := walkPass_raised_cases hleft hw
    · obtain ⟨hbit, hinfo, hchild⟩ := hrow
      exact .inr (.inl ⟨herr, hi, hbit, hinfo, hchild⟩)
    · exact .inr (.inr (.inl ⟨herr, hi, hrow⟩))
    · exact .inr (.inr (.inr (.inl ⟨herr, .inr hi, hrow⟩)))
    · exact .inr (.inr (.inr (.inr (.inr (.inl ⟨herr, hi, hrow⟩)))))

/-- Settles O15: but for the walk's, a fault is raised from the state as it was; a pass of the walk has moved where it
raises the tail's fault. -/
theorem faultsArePrecise : Obligations.FaultsArePrecise := by
  unfold Obligations.FaultsArePrecise
  intro i s t hdrun herr hexec hne
  obtain hf | hc := exec_outcome herr hexec
  case inr => exact absurd hc.1 hne
  cases hf with
  | noCode | payFull | payIndex | outIndex | bitMissing =>
    exact ⟨fun _ => rfl, fun h3 => absurd h3 (raise_err_ne_three (by decide) _ _)⟩
  | walked hi _ hw =>
    obtain ⟨rfl, rfl⟩ | rfl := hi
    · exact (walkPass_raised_precise hw).imp_right fun htail h3 => ⟨rfl, htail h3⟩
    · exact absurd rfl hdrun

/-- Settles O18: a command word leaves a fault with its FAULT response, or none with another response. -/
theorem errorLineRisesWithFault : Obligations.ErrorLineRisesWithFault := by
  unfold Obligations.ErrorLineRisesWithFault
  intro s t w rest herr hin hstep
  rw [errO, decide_eq_true_iff]
  obtain ⟨hne, hrsp⟩ | ⟨hok, st, d, hrsp, hst⟩ := step_outcome herr hin hstep
  · refine ⟨⟨fun _ => ⟨_, hrsp⟩, fun _ => hne⟩, fun d hd => ?_⟩
    rw [hrsp] at hd
    cases hd
    rfl
  · have hnot : ∀ d, t.rsp ≠ some ⟨.fault, d⟩ := fun d' hd => by
      rw [hrsp] at hd
      cases hd
      simp at hst
    exact ⟨⟨fun hne => absurd hok hne, fun ⟨d, hd⟩ => absurd hd (hnot d)⟩, fun d hd => absurd hd (hnot d)⟩

/-- Settles O14: in the fault state a step waits, refuses, reads a register, or resets the block. -/
theorem faultStateLeftByResetOnly : Obligations.FaultStateLeftByResetOnly := by
  unfold Obligations.FaultStateLeftByResetOnly
  intro s t herr hstep hok
  match hin : s.inputs with
  | [] =>
    cases (step_of_idle hin).symm.trans hstep
    exact absurd hok herr
  | .reset d :: rest =>
    cases (step_of_reset hin).symm.trans hstep
    exact ⟨rest, .inr ⟨d, rfl⟩, rfl⟩
  | .command w :: rest =>
    obtain hrefused | hd | ⟨r, hd⟩ := step_of_fault herr hin
    · cases hrefused.symm.trans hstep
      exact absurd hok herr
    · cases (step_sreset hin hd).symm.trans hstep
      exact ⟨rest, .inl ⟨w, rfl, hd⟩, rfl⟩
    · cases (step_rdreg hin hd).symm.trans hstep
      exact absurd hok herr

/-! ## The tree -/

/-- TN with ROOT (10_state R24). -/
def tree (s : State) : List (Nat × Node) × Ptr := (s.tn, s.root)

theorem pushChecked_tree (bs : List Bool) (d : Word) (s : State) : tree (pushChecked bs d s) = tree s := by
  rw [pushChecked_frame]
  rfl

theorem SameButWalk.tree {s t : State} (h : SameButWalk s t) : tree t = tree s := by
  rw [h]
  rfl

/-- A command that is not one of the eight writers of 10_state R24 leaves TN and ROOT unchanged. -/
theorem exec_keeps_tree {i : Instr} {s t : State} (hw : writesTree i = false) (h : exec i s = .next t) :
    tree t = tree s := by
  unfold exec at h
  cases i
  case tclr | tleaf | tint | tsngl | tleft | tright | troot | sreset => cases hw
  case rdreg => cases h; rfl
  case ctclr | ctlen | ctbit | ctrd | trd | pclr | dcnt | dstart => exact command_keeps h rfl rfl
  case payw | payr | outr | ubit | pflush =>
    refine command_keeps h rfl ?_
    split_ifs <;> rfl
  case pbits => exact command_keeps h rfl (pushChecked_tree ..)
  case esym =>
    refine command_keeps h rfl ?_
    dsimp only
    split_ifs
    · rfl
    · exact pushChecked_tree ..
  case dstep => exact (SameButWalk.of_dstep (by rwa [exec])).tree
  case drun => exact (SameButWalk.of_drun (by rwa [exec])).tree

/-- Settles O20: every command but the writers keeps the tree, and a step that is no reset's and no writer's waits,
executes such a command, or answers an illegal word. -/
theorem treeIsReadOnly : Obligations.TreeIsReadOnly := by
  unfold Obligations.TreeIsReadOnly
  refine ⟨fun _ _ _ hw h => Prod.mk.inj (exec_keeps_tree hw h), fun s t h hne => ?_⟩
  have hchanged : tree t ≠ tree s := fun he =>
    hne.elim (fun htn => htn (Prod.mk.inj he).1) fun hroot => hroot (Prod.mk.inj he).2
  obtain ⟨-, rfl⟩ | ⟨d, rest, hin, -⟩ | ⟨w, rest, i, hin, hd, hexec⟩ | ⟨w, rest, -, -, hill⟩ := step_cases h
  · exact absurd rfl hchanged
  · exact .inr ⟨d, rest, hin⟩
  · cases hw : writesTree i with
    | true => exact .inl ⟨w, rest, i, hin, hd, hw⟩
    | false => exact absurd (exec_keeps_tree hw hexec) hchanged
  · exact absurd (command_keeps (f := tree) hill rfl rfl) hchanged

/-! ## The cursor -/

/-- Settles O44: a pass leaves the cursor where it was, at the root after an emission, or on the inner node it moved to. -/
theorem dstepNeverRestsOnLeaf : Obligations.DstepNeverRestsOnLeaf := by
  unfold Obligations.DstepNeverRestsOnLeaf
  intro s t h
  unfold exec at h
  obtain ⟨-, rfl⟩ | ⟨-, rfl⟩ := command_cases h
  case inr => exact .inl rfl
  split_ifs
  · exact .inl rfl
  · obtain ⟨-, hw⟩ | ⟨-, -, hw⟩ | ⟨-, c, -, -, ⟨-, hw⟩ | ⟨-, hw⟩⟩ |
      ⟨-, c, -, hkind, ⟨-, -, hw⟩ | ⟨-, hw⟩⟩ := walkPass_cases s <;> rw [hw]
    · exact .inl rfl
    · exact .inl rfl
    · exact .inl rfl
    · exact .inr (.inl rfl)
    · exact .inr (.inr ⟨c, rfl, hkind⟩)
    · exact .inr (.inr ⟨c, rfl, hkind⟩)

end Sys2Proof.Machine
end

section
/-! SUPPORT. Sequences of one command: UBIT after UBIT reads the payload bit by bit, PAYW after PAYW loads it, CTBIT after
CTBIT fills in an entry's code. -/

namespace Sys2Proof.Machine

open Sys2Proof.Claims

theorem runAll_replicate_succ {i : Instr} {k : Nat} {s u t : State}
    (hrun : runAll (List.replicate k i) s = .next u) (hlast : exec i u = .next t) :
    runAll (List.replicate (k + 1) i) s = .next t := by
  rw [List.replicate_succ']
  exact runAll_append_eq_next.2 ⟨u, hrun, runAll_cons_eq_next.2 ⟨t, hlast, rfl⟩⟩

/-! ## UBIT after UBIT -/

/-- `s` with the unpacker's cursor at bit `p` and another response. -/
def cursorAt (p : Nat) (r : Option Response) (s : State) : State := { s with dpos := BitVec.ofNat 64 p, rsp := r }

theorem cursorAt_dpos_toNat {s : State} {p : Nat} (hp : p ≤ s.dbits.toNat) (r : Option Response) :
    (cursorAt p r s).dpos.toNat = p := by
  have hlt := s.dbits.isLt
  exact Nat.mod_eq_of_lt (by omega)

section
variable {s : State} (herr : s.err = 0) (hheld : s.dbits.toNat ≤ 8 * s.payLen.toNat)
include herr hheld

/-- UBIT with the cursor at bit `p` reads that bit (43_bitunpacker R123, 20_memory R40). -/
theorem exec_ubit_cursorAt {p : Nat} (hp : p < s.dbits.toNat) (r : Option Response) :
    exec .ubit (cursorAt p r s) = .next
      (cursorAt (p + 1) (some ⟨.ok, if (payByte s (p / 8)).getLsbD (7 - p % 8) then 1 else 0⟩) s) := by
  have hpos := cursorAt_dpos_toNat hp.le r
  have hbit : CursorBitThere (cursorAt p r s) :=
    cursorBitThere_of_held (s := cursorAt p r s) hheld (by rw [hpos]; exact hp)
  have hread : cursorBit (cursorAt p r s) = (payByte s (p / 8)).getLsbD (7 - p % 8) := by
    rw [cursorBit, hpos]
    rfl
  have hnext : (cursorAt p r s).dpos + 1 = BitVec.ofNat 64 (p + 1) := (BitVec.ofNat_add p 1).symm
  rw [exec_ubit_of_bit (s := cursorAt p r s) herr hbit, hread, hnext]
  rfl

/-- After `k` UBIT the cursor has passed `k` bits, or all there are. -/
theorem runAll_ubits (hdpos : s.dpos = 0) (k : Nat) :
    ∃ r, runAll (List.replicate k .ubit) s = .next (cursorAt (min k s.dbits.toNat) r s) := by
  induction k with
  | zero =>
    refine ⟨s.rsp, ?_⟩
    rw [Nat.zero_min, cursorAt, ← show s.dpos = BitVec.ofNat 64 0 from hdpos]
    rfl
  | succ k ih =>
    obtain ⟨r, hrun⟩ := ih
    by_cases hk : k < s.dbits.toNat
    · rw [Nat.min_eq_left hk.le] at hrun
      rw [Nat.min_eq_left (Nat.succ_le_of_lt hk)]
      exact ⟨_, runAll_replicate_succ hrun (exec_ubit_cursorAt herr hheld hk r)⟩
    · rw [Nat.min_eq_right (Nat.le_of_not_lt hk)] at hrun
      rw [Nat.min_eq_right (by omega)]
      have hend := exec_ubit_of_exhausted (s := cursorAt s.dbits.toNat r s) herr
        (cursorAt_dpos_toNat (Nat.le_refl _) r).ge
      exact ⟨_, runAll_replicate_succ hrun hend⟩

end

/-- Settles O40: after `k` UBIT the cursor stands at bit `k`, which the next one reads, or at the end, where it responds
END. -/
theorem ubitReadsExactlyTheCount : Obligations.UbitReadsExactlyTheCount := by
  unfold Obligations.UbitReadsExactlyTheCount
  intro s k herr hdpos hheld
  obtain ⟨r, hrun⟩ := runAll_ubits herr hheld hdpos k
  refine ⟨fun hk => ?_, fun hk => ?_⟩
  · rw [Nat.min_eq_left hk.le] at hrun
    exact runAll_replicate_succ hrun (exec_ubit_cursorAt herr hheld hk r)
  · rw [Nat.min_eq_right hk] at hrun
    have hend := exec_ubit_of_exhausted (s := cursorAt s.dbits.toNat r s) herr
      (cursorAt_dpos_toNat (Nat.le_refl _) r).ge
    rw [runAll_replicate_succ hrun hend, cursorAt, BitVec.ofNat_toNat, BitVec.setWidth_eq]
    rfl

/-! ## PAYW after PAYW -/

theorem payloadBytes_length (s : State) : (payloadBytes s).length = s.payLen.toNat := by
  rw [payloadBytes, List.length_map, List.length_range]

theorem payloadBytes_appendPay {s : State} (hi : s.Inv) (hroom : s.payLen.toNat < s.payCap.toNat) (b : Byte) :
    payloadBytes (appendPay b s) = payloadBytes s ++ [b] := by
  obtain ⟨-, -, hpay, -⟩ := hi.canonical_parts
  rw [payloadBytes, appendPay_payLen, payLen_succ hroom hi.payCap.2, List.range_succ, List.map_append, payloadBytes]
  congr 1
  · refine List.map_congr_left fun a ha => ?_
    rw [payByte_appendPay hpay, if_neg (List.mem_range.1 ha).ne]
  · rw [List.map_singleton, payByte_appendPay hpay, if_pos rfl]

/-- Bytes for which PAY has room are appended in order, and nothing else changes. -/
theorem runAll_payw_of_room {bytes : List Byte} {s : State} (hi : s.Inv) (herr : s.err = 0)
    (hrsp : s.rsp = some ⟨.ok, 0⟩) (hroom : s.payLen.toNat + bytes.length ≤ s.payCap.toNat) :
    ∃ t, runAll (bytes.map .payw) s = .next t ∧ payloadBytes t = payloadBytes s ++ bytes ∧
      t = { s with pay := t.pay, payLen := t.payLen } := by
  induction bytes generalizing s with
  | nil => exact ⟨s, rfl, (List.append_nil _).symm, rfl⟩
  | cons b bytes ih =>
    rw [List.length_cons] at hroom
    have hlt : s.payLen.toNat < s.payCap.toNat := by omega
    have hfull : s.payLen ≠ s.payCap := fun he => hlt.ne (congrArg BitVec.toNat he)
    have hlen : (respond .ok 0 (appendPay b s)).payLen.toNat = s.payLen.toNat + 1 := payLen_succ hlt hi.payCap.2
    obtain ⟨t, hrun, hbytes, hframe⟩ := ih ((hi.of_appendPay hlt b).of_respond .ok 0) herr rfl
      (show _ ≤ s.payCap.toNat by rw [hlen]; omega)
    refine ⟨t, runAll_cons_eq_next.2 ⟨_, exec_payw_of_room herr b hfull, hrun⟩, ?_, ?_⟩
    · rw [hbytes, show payloadBytes (respond .ok 0 (appendPay b s)) = payloadBytes s ++ [b] from
        payloadBytes_appendPay hi hlt b, List.append_assoc, List.singleton_append]
    · rw [hframe, respond, ← hrsp]
      rfl

/-- Settles O51: PCLR empties PAY, and each PAYW appends its byte. -/
theorem loadedPayloadIsThere : Obligations.LoadedPayloadIsThere := by
  unfold Obligations.LoadedPayloadIsThere
  intro payload s hi herr hroom
  have hclear := exec_pclr_of_ok herr
  obtain ⟨t, hrun, hbytes, hframe⟩ := runAll_payw_of_room (exec_keeps_inv hi hclear) herr rfl
    (by simpa using hroom)
  have hlen : t.payLen.toNat = payload.length := by
    rw [← payloadBytes_length, hbytes]
    rfl
  refine ⟨t, runAll_cons_eq_next.2 ⟨_, hclear, hrun⟩, hbytes, hlen, fun a => ?_, hframe⟩
  rw [hframe]
  rfl

/-! ## CTBIT after CTBIT -/

theorem setCtEntry_canonical {s : State} (h : s.canonical = true) (sym : Sym) (e : CodeEntry) :
    (setCtEntry sym e s).canonical = true := by
  obtain ⟨hct, htn, hpay, hout⟩ := State.canonical_iff.1 h
  exact State.canonical_iff.2 ⟨Cells.wf_write hct _ _, htn, hpay, hout⟩

/-- From `s` to `t` the bits at `idxs` of the code of `sym` were set, and nothing else changed. -/
structure BitsSet (sym : Sym) (idxs : List Nat) (s t : State) : Prop where
  len : (ctEntry t sym).len = (ctEntry s sym).len
  code : ∀ j, (ctEntry t sym).code.getLsbD j = (decide (j ∈ idxs) || (ctEntry s sym).code.getLsbD j)
  others : ∀ x, x ≠ sym → ctEntry t x = ctEntry s x
  frame : t = { s with ct := t.ct }

theorem runAll_ctbits {sym : Sym} {idxs : List Nat} {s : State} (hs : s.canonical = true) (herr : s.err = 0)
    (hrsp : s.rsp = some ⟨.ok, 0⟩) (hlt : ∀ i ∈ idxs, i < 256) :
    ∃ t, runAll (idxs.map fun i => .ctbit sym (BitVec.ofNat 8 i) true) s = .next t ∧ BitsSet sym idxs s t := by
  induction idxs generalizing s with
  | nil => exact ⟨s, rfl, rfl, fun j => by simp, fun _ _ => rfl, rfl⟩
  | cons i idxs ih =>
    have hi : (BitVec.ofNat 8 i).toNat = i := Nat.mod_eq_of_lt (hlt i List.mem_cons_self)
    have hexec := exec_ctbit_of_ok herr sym (BitVec.ofNat 8 i) true
    obtain ⟨hentry, hothers, -⟩ :=
      wroteEntry_setCtEntry hs sym ⟨(ctEntry s sym).len, setBit (ctEntry s sym).code (BitVec.ofNat 8 i).toNat true⟩
    obtain ⟨t, hrun, hset⟩ := ih (s := respond .ok 0 (setCtEntry sym _ s)) (setCtEntry_canonical hs sym _) herr rfl
      fun x hx => hlt x (List.mem_cons_of_mem i hx)
    refine ⟨t, runAll_cons_eq_next.2 ⟨_, hexec, hrun⟩, ?_, fun j => ?_, fun x hx => ?_, ?_⟩
    · rw [hset.len, hentry]
    · rw [hset.code, hentry]
      dsimp only
      rw [hi, setBit_getLsbD _ _ _ _ (hlt i List.mem_cons_self)]
      by_cases hj : j = i <;> simp [hj]
    · rw [hset.others x hx, hothers x hx]
    · rw [hset.frame, respond, ← hrsp]
      rfl

/-- Settles O55: CTLEN opens an entry of zero bits, and a CTBIT sets each bit that is 1; the four slices of DSET64 make the
count. -/
theorem pseudoCommandsLoad : Obligations.PseudoCommandsLoad := by
  unfold Obligations.PseudoCommandsLoad
  refine ⟨fun sym bits s hs herr _ hmax => ?_, fun v s herr => runAll_dset64 herr v⟩
  have hopen := exec_ctlen_of_ok herr sym (BitVec.ofNat 8 bits.length)
  obtain ⟨hentry, hothers, -⟩ := wroteEntry_setCtEntry hs sym ⟨BitVec.ofNat 8 bits.length, 0⟩
  obtain ⟨t, hrun, hset⟩ := runAll_ctbits (sym := sym)
    (idxs := (List.range bits.length).filter fun i => bits.getD i false)
    (s := respond .ok 0 (setCtEntry sym ⟨BitVec.ofNat 8 bits.length, 0⟩ s)) (setCtEntry_canonical hs sym _) herr rfl
    fun i hi => by
      have := List.mem_range.1 (List.mem_of_mem_filter hi)
      omega
  have hlen : (ctEntry t sym).len.toNat = bits.length := by
    rw [hset.len, hentry]
    exact Nat.mod_eq_of_lt (by omega)
  have hcode : codeOf t sym = bits := by
    refine List.ext_getElem (by rw [codeOf_length, hlen]) fun i _ hi => ?_
    have hbit := hset.code i
    rw [hentry] at hbit
    simpa [codeOf, hi] using hbit
  refine ⟨t, runAll_cons_eq_next.2 ⟨_, hopen, hrun⟩, hcode, fun x hx => ?_, hset.frame⟩
  rw [hset.others x hx, hothers x hx]

end Sys2Proof.Machine
end

section
/-! SUPPORT. The host's tables (47_host_reference sections 1 to 4): the frequency table counts the bytes, and the codes of a
tree are paths that part at a node. Host software, not the block. -/

namespace Sys2Proof.Machine

open Sys2Proof.Claims

/-! ## The frequency table -/

theorem ofNat_sym_toNat {i : Nat} (hi : i < Config.nsym) : (BitVec.ofNat 8 i).toNat = i := Nat.mod_eq_of_lt hi

/-- The entries of the table are the bytes that occur, each with its count (47_host_reference R150). -/
theorem mem_analyze_iff {bytes : List Byte} {p : Sym × Nat} : p ∈ analyze bytes ↔ p.2 = bytes.count p.1 ∧ 1 ≤ p.2 := by
  rw [analyze, List.mem_filterMap]
  constructor
  · rintro ⟨i, -, hi⟩
    split_ifs at hi with hzero
    cases hi
    exact ⟨rfl, Nat.one_le_iff_ne_zero.2 hzero⟩
  · rintro ⟨hcount, hpos⟩
    have hsym : BitVec.ofNat 8 p.1.toNat = p.1 := by rw [BitVec.ofNat_toNat, BitVec.setWidth_eq]
    refine ⟨p.1.toNat, List.mem_range.2 p.1.isLt, ?_⟩
    rw [hsym, ← hcount, if_neg (by omega)]

theorem analyze_ascending (bytes : List Byte) : Ascending (analyze bytes) := by
  rw [Ascending, analyze, List.pairwise_filterMap]
  refine List.Pairwise.imp_of_mem (fun {i j} hi hj hlt p hp q hq => ?_) List.pairwise_lt_range
  split_ifs at hp hq
  cases hp
  cases hq
  rwa [ofNat_sym_toNat (List.mem_range.1 hi), ofNat_sym_toNat (List.mem_range.1 hj)]

/-- The entries left out are those that count nothing. -/
theorem sum_filterMap_nonzero {f : Nat → Sym} {c : Nat → Nat} (is : List Nat) :
    ((is.filterMap fun i => if c i = 0 then none else some (f i, c i)).map fun p => p.2).sum = (is.map c).sum := by
  induction is with
  | nil => rfl
  | cons i is ih => by_cases hzero : c i = 0 <;> simp [hzero, ih]

theorem sum_count_eq_length {syms : List Sym} (hnodup : syms.Nodup) {bytes : List Byte} (hall : ∀ b ∈ bytes, b ∈ syms) :
    (syms.map fun x => bytes.count x).sum = bytes.length := by
  rw [← List.sum_toFinset _ hnodup]
  have hcard : ∑ x ∈ syms.toFinset, (bytes : Multiset Byte).count x = (bytes : Multiset Byte).card :=
    Multiset.sum_count_eq_card fun b hb => List.mem_toFinset.2 (hall b hb)
  simpa using hcard

/-- Each symbol once: the 256 symbols in ascending order. -/
theorem allSyms_nodup : ((List.range Config.nsym).map (BitVec.ofNat 8)).Nodup := by
  refine List.Nodup.map_on (fun i hi j hj heq => ?_) List.nodup_range
  rw [← ofNat_sym_toNat (List.mem_range.1 hi), ← ofNat_sym_toNat (List.mem_range.1 hj), heq]

theorem mem_allSyms (b : Sym) : b ∈ (List.range Config.nsym).map (BitVec.ofNat 8) :=
  List.mem_map.2 ⟨b.toNat, List.mem_range.2 b.isLt, by rw [BitVec.ofNat_toNat, BitVec.setWidth_eq]⟩

/-- Settles O56: an entry is a byte that occurs with its count, the entries ascend as the symbols do, and the counts of all
the symbols make the length. -/
theorem frequencyTableCounts : Obligations.FrequencyTableCounts := by
  unfold Obligations.FrequencyTableCounts
  refine fun bytes => ⟨analyze_ascending bytes, fun p hp => mem_analyze_iff.1 hp, fun b hb => ?_, ?_⟩
  · exact List.mem_map.2 ⟨(b, bytes.count b), mem_analyze_iff.2 ⟨rfl, List.count_pos_iff.2 hb⟩, rfl⟩
  · rw [analyze, sum_filterMap_nonzero, ← sum_count_eq_length allSyms_nodup fun b _ => mem_allSyms b, List.map_map]
    rfl

/-! ## The codes of a tree -/

/-- Two paths that part after `p` are no prefixes of one another, nor is anything that goes on from them. -/
theorem not_prefix_of_branches {p a b : List Bool} {x y : Bool} (hxy : x ≠ y) (ha : p ++ [x] <+: a)
    (hb : p ++ [y] <+: b) : ¬ a <+: b := by
  intro hab
  have hpre : p ++ [x] <+: p ++ [y] := List.prefix_of_prefix_length_le (ha.trans hab) hb (by simp)
  have heq := hpre.eq_of_length (by simp)
  exact hxy (by simpa using heq)

/-- The codes of a tree go on from the path to it. -/
theorem prefix_of_mem_codes {t : HuffTree} {path : List Bool} {c : Sym × List Bool} (h : c ∈ t.codes path) :
    path <+: c.2 := by
  induction t generalizing path with
  | leaf sym w =>
    cases List.mem_singleton.1 h
    dsimp only
    split_ifs with hroot
    · exact hroot ▸ List.nil_prefix
    · exact List.prefix_rfl
  | internal j w l r ihl ihr =>
    obtain hl | hr := List.mem_append.1 h
    · exact (List.prefix_append path [false]).trans (ihl hl)
    · exact (List.prefix_append path [true]).trans (ihr hr)
  | single sym w =>
    cases List.mem_singleton.1 h
    exact List.prefix_append path [false]

theorem codes_ne_nil {t : HuffTree} {path : List Bool} {c : Sym × List Bool} (h : c ∈ t.codes path) : c.2 ≠ [] := by
  induction t generalizing path with
  | leaf sym w =>
    cases List.mem_singleton.1 h
    dsimp only
    split_ifs with hroot
    · exact List.cons_ne_nil _ _
    · exact hroot
  | internal j w l r ihl ihr => exact (List.mem_append.1 h).elim ihl ihr
  | single sym w =>
    cases List.mem_singleton.1 h
    exact List.append_ne_nil_of_right_ne_nil _ (List.cons_ne_nil _ _)

theorem codes_prefixFree (t : HuffTree) (path : List Bool) :
    (t.codes path).Pairwise fun a b => ¬ a.2 <+: b.2 ∧ ¬ b.2 <+: a.2 := by
  induction t generalizing path with
  | leaf sym w => exact List.pairwise_singleton _ _
  | internal j w l r ihl ihr =>
    refine List.pairwise_append.2 ⟨ihl _, ihr _, fun a ha b hb => ?_⟩
    have hleft := prefix_of_mem_codes ha
    have hright := prefix_of_mem_codes hb
    exact ⟨not_prefix_of_branches Bool.false_ne_true hleft hright,
      not_prefix_of_branches Bool.false_ne_true.symm hright hleft⟩
  | single sym w => exact List.pairwise_singleton _ _

/-- Settles O57: two codes of a tree part at the node where their paths do. -/
theorem generatedCodesArePrefixFree : Obligations.GeneratedCodesArePrefixFree := by
  unfold Obligations.GeneratedCodesArePrefixFree
  exact fun t => ⟨codes_prefixFree t [], fun _ => codes_ne_nil⟩

end Sys2Proof.Machine
end

section
/-! SUPPORT. The container (47_host_reference section 5): numbers in bytes, the pairs, the header's parts, the writer's sort,
and what the reader takes. Host software, not the block. -/

namespace Sys2Proof.Machine

open Sys2Proof.Claims

/-! ## Numbers and pairs in bytes -/

theorem leBytes_length (k v : Nat) : (leBytes k v).length = k := by
  induction k generalizing v with
  | zero => rfl
  | succ k ih => rw [leBytes, List.length_cons, ih]

theorem leValue_leBytes {k v : Nat} (h : v < 256 ^ k) : leValue (leBytes k v) = v := by
  induction k generalizing v with
  | zero =>
    rw [pow_zero] at h
    rw [leBytes, leValue]
    omega
  | succ k ih =>
    have hdiv : v / 256 < 256 ^ k := Nat.div_lt_of_lt_mul (by rwa [Nat.pow_succ'] at h)
    rw [leBytes, leValue, ih hdiv, BitVec.toNat_ofNat]
    omega

theorem pairBytes_length (p : Sym × Nat) : (pairBytes p).length = 5 := by
  rw [pairBytes, List.length_cons, leBytes_length]

theorem flatMap_pairBytes_length (table : FreqTable) : (table.flatMap pairBytes).length = 5 * table.length := by
  rw [List.length_flatMap]
  simp only [pairBytes_length, List.map_const', List.sum_replicate, smul_eq_mul, Nat.mul_comm]

theorem readPairs_length (n : Nat) (bs : List Byte) : (readPairs n bs).length = n := by
  induction n generalizing bs with
  | zero => rfl
  | succ n ih => rw [readPairs, List.length_cons, ih]

theorem readPairs_pairBytes {p : Sym × Nat} (hp : p.2 < 4294967296) (n : Nat) (bs : List Byte) :
    readPairs (n + 1) (pairBytes p ++ bs) = p :: readPairs n bs := by
  have hfield : (frequencyField p.2).toNat = p.2 := by
    rw [frequencyField, if_pos hp]
    exact Nat.mod_eq_of_lt hp
  have hlen : (leBytes 4 p.2).length = 4 := leBytes_length 4 p.2
  have hcount : leValue ((leBytes 4 p.2 ++ bs).take 4) = p.2 := by
    rw [List.take_left' hlen, leValue_leBytes hp]
  rw [readPairs, pairBytes, hfield, List.cons_append, List.headD_cons, List.drop_one, List.tail_cons, hcount,
    List.drop_succ_cons, List.drop_left' hlen]

/-- The pairs of a table whose counts have a field are read back. -/
theorem readPairs_flatMap {table : FreqTable} (h : ∀ p ∈ table, p.2 < 4294967296) :
    readPairs table.length (table.flatMap pairBytes) = table := by
  induction table with
  | nil => rfl
  | cons p table ih =>
    rw [List.flatMap_cons, List.length_cons, readPairs_pairBytes (h p List.mem_cons_self),
      ih fun q hq => h q (List.mem_cons_of_mem p hq)]

/-! ## The parts of a file -/

theorem splitExact_eq_some {n : Nat} {bs a b : List Byte} :
    splitExact n bs = some (a, b) ↔ a.length = n ∧ bs = a ++ b := by
  rw [splitExact]
  constructor
  · intro h
    split_ifs at h with hn
    cases h
    exact ⟨List.length_take_of_le hn, (List.take_append_drop n bs).symm⟩
  · rintro ⟨rfl, rfl⟩
    rw [if_pos (by rw [List.length_append]; exact Nat.le_add_right _ _), List.take_left, List.drop_left]

/-- A header is taken exactly if the bytes are a count, as many pairs, the magic and a rest (47_host_reference R160). -/
theorem readHeader_eq_some {bs rest : List Byte} {table : FreqTable} :
    readHeader bs = some (table, rest) ↔
      ∃ count pairs, count.length = 4 ∧ pairs.length = 5 * leValue count ∧ table = readPairs (leValue count) pairs ∧
        bs = count ++ (pairs ++ (magic ++ rest)) := by
  constructor
  · intro h
    unfold readHeader at h
    split at h
    · cases h
    · next count rest₁ h₁ =>
      split at h
      · cases h
      · next pairs rest₂ h₂ =>
        split at h
        · cases h
        · next m rest₃ h₃ =>
          split_ifs at h with hm
          cases h
          obtain ⟨hcount, rfl⟩ := splitExact_eq_some.1 h₁
          obtain ⟨hpairs, rfl⟩ := splitExact_eq_some.1 h₂
          obtain ⟨-, rfl⟩ := splitExact_eq_some.1 h₃
          exact ⟨count, pairs, hcount, hpairs, rfl, by rw [hm]⟩
  · rintro ⟨count, pairs, hcount, hpairs, rfl, rfl⟩
    simp only [readHeader, splitExact_eq_some.2 ⟨hcount, rfl⟩, splitExact_eq_some.2 ⟨hpairs, rfl⟩,
      splitExact_eq_some.2 ⟨show magic.length = 8 from rfl, rfl⟩, if_true]

/-- A file is taken exactly if it has a header with a possible table, eight bytes of bit count, and a payload. -/
theorem readContainer_eq_some {bs : List Byte} {c : Container} :
    readContainer bs = some c ↔
      structurallyPossible c.table = true ∧ ∃ total, total.length = 8 ∧ c.totalBits = BitVec.ofNat 64 (leValue total) ∧
        readHeader bs = some (c.table, total ++ c.payload) := by
  constructor
  · intro h
    unfold readContainer at h
    split at h
    · cases h
    · next table rest hheader =>
      split_ifs at h with htable
      split at h
      · cases h
      · next total payload hsplit =>
        cases h
        obtain ⟨htotal, rfl⟩ := splitExact_eq_some.1 hsplit
        exact ⟨htable, total, htotal, rfl, hheader⟩
  · rintro ⟨htable, total, htotal, hbits, hheader⟩
    simp only [readContainer, hheader, htable, if_true, splitExact_eq_some.2 ⟨htotal, rfl⟩, ← hbits]

theorem looksLikeContainer_iff {bs : List Byte} :
    looksLikeContainer bs = true ↔ ∃ table rest, readHeader bs = some (table, rest) := by
  rw [looksLikeContainer, Option.isSome_iff_exists, Prod.exists]

/-- How long a file with a header is. -/
theorem length_of_readHeader {bs rest : List Byte} {table : FreqTable} (h : readHeader bs = some (table, rest)) :
    bs.length = 12 + 5 * table.length + rest.length := by
  obtain ⟨count, pairs, hcount, hpairs, rfl, rfl⟩ := readHeader_eq_some.1 h
  rw [readPairs_length, List.length_append, List.length_append, List.length_append, hcount, hpairs,
    show magic.length = 8 from rfl]
  omega

/-! ## The table -/

theorem structurallyPossible_iff {table : FreqTable} :
    structurallyPossible table = true ↔ table ≠ [] ∧ Ascending table ∧ ∀ p ∈ table, 1 ≤ p.2 := by
  unfold Ascending
  induction table with
  | nil => simp [structurallyPossible]
  | cons p table ih =>
    cases table with
    | nil => simp [structurallyPossible]
    | cons q table =>
      have htrans : (p :: q :: table).Pairwise (fun a b => a.1.toNat < b.1.toNat) ↔
          p.1.toNat < q.1.toNat ∧ (q :: table).Pairwise fun a b => a.1.toNat < b.1.toNat := by
        rw [List.pairwise_cons, List.forall_mem_cons, and_assoc, and_congr_right_iff]
        refine fun hpq => and_iff_right_of_imp fun hpair r hr => hpq.trans ?_
        exact List.rel_of_pairwise_cons hpair hr
      rw [structurallyPossible, Bool.and_eq_true, Bool.and_eq_true, decide_eq_true_iff, decide_eq_true_iff, ih, htrans,
        List.forall_mem_cons (a := p)]
      simp only [ne_eq, reduceCtorEq, not_false_eq_true, true_and]
      tauto

/-- The order of the writer's sort (47_host_reference R151). -/
def symLe (p q : Sym × Nat) : Prop := p.1.toNat ≤ q.1.toNat

theorem insertPair_eq_orderedInsert [DecidableRel symLe] (p : Sym × Nat) (table : FreqTable) :
    insertPair p table = table.orderedInsert symLe p := by
  induction table with
  | nil => rfl
  | cons q table ih =>
    rw [insertPair, List.orderedInsert_cons, ih]
    exact if_congr Iff.rfl rfl rfl

/-- The writer's sort is the insertion sort of Mathlib. -/
theorem sortTable_eq_insertionSort [DecidableRel symLe] (table : FreqTable) :
    sortTable table = table.insertionSort symLe := by
  induction table with
  | nil => rfl
  | cons p table ih =>
    rw [List.insertionSort_cons, ← ih, ← insertPair_eq_orderedInsert]
    rfl

theorem sortTable_sorted (table : FreqTable) : (sortTable table).Pairwise symLe := by
  classical
  have htotal : Std.Total symLe := ⟨fun p q => Nat.le_total p.1.toNat q.1.toNat⟩
  have htrans : IsTrans _ symLe := ⟨fun _ _ _ => Nat.le_trans⟩
  rw [sortTable_eq_insertionSort]
  exact List.pairwise_insertionSort symLe table

/-- The writer's sort leaves a sorted table as it is. -/
theorem sortTable_of_sorted {table : FreqTable} (h : table.Pairwise symLe) : sortTable table = table := by
  classical
  rw [sortTable_eq_insertionSort]
  exact h.insertionSort_eq

theorem sortTable_of_ascending {table : FreqTable} (h : Ascending table) : sortTable table = table :=
  sortTable_of_sorted (List.Pairwise.imp (fun hlt => Nat.le_of_lt hlt) h)

/-- Sorted without a repeated symbol is strictly ascending. -/
theorem sortTable_ascending {table : FreqTable} (h : (table.map fun p => p.1).Nodup) : Ascending (sortTable table) := by
  have hnodup : ((sortTable table).map fun p => p.1).Nodup := ((sortTable_perm table).map _).nodup_iff.2 h
  refine ((sortTable_sorted table).and (List.pairwise_map.1 hnodup)).imp fun ⟨hle, hne⟩ => ?_
  exact lt_of_le_of_ne hle fun heq => hne (BitVec.eq_of_toNat_eq heq)

/-- A strictly ascending table has at most one pair for each symbol. -/
theorem length_le_of_ascending {table : FreqTable} (h : Ascending table) : table.length ≤ Config.nsym := by
  have hnodup : (table.map fun p => p.1.toNat).Nodup :=
    List.pairwise_map.2 (List.Pairwise.imp (fun hlt => Nat.ne_of_lt hlt) h)
  have hsubset : (table.map fun p => p.1.toNat) ⊆ List.range Config.nsym := fun n hn => by
    obtain ⟨p, -, rfl⟩ := List.mem_map.1 hn
    exact List.mem_range.2 p.1.isLt
  simpa using (List.subperm_of_subset hnodup hsubset).length_le

/-! ## The round trip -/

theorem writeContainer_eq (c : Container) :
    writeContainer c = leBytes 4 c.table.length ++ ((sortTable c.table).flatMap pairBytes ++
      (magic ++ (leBytes 8 c.totalBits.toNat ++ c.payload))) := by
  simp only [writeContainer, List.append_assoc]

/-- The header that the writer wrote of an ascending table is read back. -/
theorem readHeader_writeContainer {c : Container} (hasc : Ascending c.table)
    (hcounts : ∀ p ∈ c.table, p.2 < 4294967296) :
    readHeader (writeContainer c) = some (c.table, leBytes 8 c.totalBits.toNat ++ c.payload) := by
  have hlen := length_le_of_ascending hasc
  have hcount : leValue (leBytes 4 c.table.length) = c.table.length := leValue_leBytes (hlen.trans_lt (by decide))
  refine readHeader_eq_some.2 ⟨leBytes 4 c.table.length, c.table.flatMap pairBytes, leBytes_length _ _, ?_, ?_, ?_⟩
  · rw [hcount, flatMap_pairBytes_length]
  · rw [hcount, readPairs_flatMap hcounts]
  · rw [writeContainer_eq, sortTable_of_ascending hasc]

/-- Settles O58: the writer's parts are those the reader takes, the writer's sort is done once, and what the reader takes
has the header's parts and a possible table. -/
theorem containerRoundTrips : Obligations.ContainerRoundTrips := by
  unfold Obligations.ContainerRoundTrips
  refine ⟨fun c hne hasc hcounts => ?_, fun c hnodup => ?_, fun bs c h => ?_, fun bs h => ?_⟩
  · have hheader := readHeader_writeContainer hasc fun p hp => (hcounts p hp).2
    have htotal : c.totalBits = BitVec.ofNat 64 (leValue (leBytes 8 c.totalBits.toNat)) := by
      rw [leValue_leBytes c.totalBits.isLt, BitVec.ofNat_toNat, BitVec.setWidth_eq]
    refine ⟨readContainer_eq_some.2 ⟨structurallyPossible_iff.2 ⟨hne, hasc, fun p hp => (hcounts p hp).1⟩,
      _, leBytes_length _ _, htotal, hheader⟩, looksLikeContainer_iff.2 ⟨_, _, hheader⟩, ?_⟩
    rw [length_of_readHeader hheader, List.length_append, leBytes_length]
    omega
  · refine ⟨sortTable c.table, sortTable_perm _, sortTable_ascending hnodup, ?_⟩
    rw [writeContainer_eq, writeContainer_eq, sortTable_of_sorted (sortTable_sorted c.table),
      (sortTable_perm c.table).length_eq]
  · obtain ⟨hpossible, total, htotal, -, hheader⟩ := readContainer_eq_some.1 h
    obtain ⟨hne, hasc, hcounts⟩ := structurallyPossible_iff.1 hpossible
    refine ⟨hne, hasc, hcounts, looksLikeContainer_iff.2 ⟨_, _, hheader⟩, ?_⟩
    rw [length_of_readHeader hheader, List.length_append, htotal]
    omega
  · obtain ⟨table, rest, hheader⟩ := looksLikeContainer_iff.1 h
    rw [length_of_readHeader hheader]
    omega

end Sys2Proof.Machine
end

section
/-! SUPPORT. The host's driver (47_host_reference R167, R168): issuing commands never stops, a failure leaves a fault
standing, and recovery reads it and resets the block. -/

namespace Sys2Proof.Machine

open Sys2Proof.Claims

/-! ## Replies -/

/-- The reply of commands issued from `s`: a result, or a failure with a fault standing, and in both what no command writes
is as in `s`. It never stopped. -/
def Reply.Sound {α : Type} (s : State) : Reply α → Prop
  | .got _ t => unwritten t = unwritten s
  | .failed t => unwritten t = unwritten s ∧ t.err ≠ 0
  | .stopped _ => False

theorem Reply.Sound.andThen {α β : Type} {s : State} {r : Reply α} {f : α → State → Reply β} (hr : r.Sound s)
    (hf : ∀ a t, (f a t).Sound t) : (r.andThen f).Sound s := by
  cases r with
  | got a t =>
    have ht : unwritten t = unwritten s := hr
    have hnext := hf a t
    rw [Reply.andThen_got]
    cases h : f a t with
    | got b u =>
      rw [h] at hnext
      exact Eq.trans hnext ht
    | failed u =>
      rw [h] at hnext
      exact ⟨hnext.1.trans ht, hnext.2⟩
    | stopped u =>
      rw [h] at hnext
      exact hnext
  | failed t => exact hr
  | stopped t => exact hr

theorem issue_sound (i : Instr) (s : State) : (issue i s).Sound s := by
  obtain ⟨t, hexec, ⟨⟨st, d⟩, hrsp⟩, hsame⟩ := exec_answered i s
  rw [issue_of_next hexec hrsp]
  split_ifs with hst
  · refine ⟨hsame, err_ne_zero_of_response hexec (d := d) ?_⟩
    obtain rfl | rfl := hst
    · exact .inl hrsp
    · exact .inr hrsp
  · exact hsame

theorem issueAll_sound (is : List Instr) (s : State) : (issueAll is s).Sound s := by
  induction is generalizing s with
  | nil => exact rfl
  | cons i is ih => exact (issue_sound i s).andThen fun _ t => (ih t).andThen fun _ _ => rfl

theorem readCount_sound (lo hi : Reg) (s : State) : (readCount lo hi s).Sound s :=
  (issue_sound _ s).andThen fun _ t => (issue_sound _ t).andThen fun _ _ => rfl

theorem readBytes_sound (read : BitVec 24 → Instr) (n : Nat) (s : State) : (readBytes read n s).Sound s :=
  (issueAll_sound _ s).andThen fun _ _ => rfl

theorem encodeOnBlock_sound (codes : List (Sym × List Bool)) (bytes : List Byte) (s : State) :
    (encodeOnBlock codes bytes s).Sound s :=
  (issueAll_sound _ s).andThen fun _ t => (readCount_sound _ _ t).andThen fun _ u =>
    (issue_sound _ u).andThen fun _ v => (readBytes_sound _ _ v).andThen fun _ _ => rfl

theorem decodeOnBlock_sound (table : FreqTable) (tree : HuffTree) (count : Count) (payload : List Byte) (s : State) :
    (decodeOnBlock table tree count payload s).Sound s :=
  (issueAll_sound _ s).andThen fun _ t => readBytes_sound _ _ t

/-! ## Recovery -/

/-- STATUS[7:0] is ERR (10_state R32). -/
theorem statusWord_setWidth (s : State) : (statusWord s).setWidth 8 = s.err := by
  apply BitVec.eq_of_toNat_eq
  have herr := s.err.isLt
  rw [BitVec.toNat_setWidth, statusWord_toNat, regValue]
  omega

theorem issue_rdreg (r : Reg) (s : State) :
    issue (.rdreg r) s = .got ⟨.ok, readReg s r⟩ (respond .ok (readReg s r) s) := rfl

/-- Recovery reads ERR and EINFO, in the fault state too, and SRESET leaves the reset state. -/
theorem recover_eq {s u : State} (h : unwritten u = unwritten s) : recover u = afterRecovery s u := by
  have hself : recover u = (.blockFault ((statusWord u).setWidth 8) u.einfo, respond .ok 0 (toReset u)) := rfl
  have hreset : (respond .ok 0 (toReset u) : State) =
      { State.resetFor s.payCap s.outCap with inputs := s.inputs, rsp := some ⟨.ok, 0⟩ } := by
    obtain ⟨hinputs, hcaps⟩ := Prod.mk.inj h
    obtain ⟨hpay, hout⟩ := Prod.mk.inj hcaps
    rw [respond, toReset, hinputs, hpay, hout]
  rw [hself, statusWord_setWidth, hreset]
  rfl

theorem finish_failed {α : Type} {s u : State} {r : Reply α} (hr : r.Sound s) (h : r = .failed u)
    (result : α → List Byte) : u.err ≠ 0 ∧ finish r result = afterRecovery s u := by
  subst h
  exact ⟨hr.2, recover_eq hr.1⟩

/-- What the host's program reports is no stop, and a block fault is reported only after a recovery. -/
def Recovers (s : State) (r : HostResult × State) : Prop :=
  r.1 ≠ .stopped ∧ ∀ err info t, r = (.blockFault err info, t) →
    ∃ u : State, u.err ≠ 0 ∧ (.blockFault err info, t) = afterRecovery s u

theorem Recovers.of_formatError (s : State) : Recovers s (.formatError, s) :=
  ⟨HostResult.noConfusion, fun _ _ _ h => by cases h⟩

theorem Recovers.of_nothing (s : State) : Recovers s (.nothing, s) :=
  ⟨HostResult.noConfusion, fun _ _ _ h => by cases h⟩

theorem Recovers.of_finish {α : Type} {s : State} {r : Reply α} (hr : r.Sound s) (result : α → List Byte) :
    Recovers s (finish r result) := by
  cases r with
  | got a t => exact ⟨HostResult.noConfusion, fun _ _ _ h => by cases h⟩
  | failed u =>
    obtain ⟨herr, heq⟩ := finish_failed hr rfl result
    rw [heq]
    exact ⟨HostResult.noConfusion, fun _ _ _ h => ⟨u, herr, h.symm⟩⟩
  | stopped t => exact hr.elim

theorem compress_of_tree {bytes : List Byte} {tree : HuffTree} (h : build (analyze bytes) = some tree) (s : State) :
    compress bytes s =
      finish (encodeOnBlock (generate tree) bytes s) fun r => writeContainer ⟨analyze bytes, r.1, r.2⟩ := by
  rw [compress, h]

theorem decompress_of_tree {file : List Byte} {c : Container} {tree : HuffTree} (hfile : readContainer file = some c)
    (h : build c.table = some tree) (s : State) :
    decompress file s = finish (decodeOnBlock c.table tree c.totalBits c.payload s) id := by
  simp only [decompress, hfile, h]

theorem compress_recovers (bytes : List Byte) (s : State) : Recovers s (compress bytes s) := by
  cases h : build (analyze bytes) with
  | none =>
    rw [compress, h]
    exact .of_nothing s
  | some tree =>
    rw [compress_of_tree h]
    exact .of_finish (encodeOnBlock_sound _ _ s) _

theorem decompress_recovers (file : List Byte) (s : State) : Recovers s (decompress file s) := by
  cases hfile : readContainer file with
  | none =>
    rw [decompress, hfile]
    exact .of_formatError s
  | some c =>
    cases h : build c.table with
    | none =>
      simp only [decompress, hfile, h]
      exact .of_formatError s
    | some tree =>
      rw [decompress_of_tree hfile h]
      exact .of_finish (decodeOnBlock_sound _ _ _ _ s) _

/-- Settles O60: replies never stop and fail with a fault standing, and recovery reads that fault and resets the block. -/
theorem hostRecoversBySreset : Obligations.HostRecoversBySreset := by
  unfold Obligations.HostRecoversBySreset
  refine ⟨fun i rest s t d hexec hrsp => ?_, fun bytes s u tree htree hfail => ?_,
    fun file s u c tree hfile htree hfail => ?_, fun bytes s run hrun => ?_⟩
  · have hissue : issue i s = .failed t := by
      obtain hrsp | hrsp := hrsp <;> simp [issue_of_next hexec hrsp]
    rw [issueAll, hissue, Reply.andThen_failed]
  · rw [compress_of_tree htree]
    exact finish_failed (encodeOnBlock_sound _ _ s) hfail _
  · rw [decompress_of_tree hfile htree]
    exact finish_failed (decodeOnBlock_sound _ _ _ _ s) hfail _
  · obtain rfl | rfl := hrun
    · exact compress_recovers bytes s
    · exact decompress_recovers bytes s

end Sys2Proof.Machine
end

section
/-! SUPPORT. How sessions end (70_reset R203): a fault stays to the end, PFLUSH empties ACC, and a walk that uses up its bits
without a fault stands at the root. -/

namespace Sys2Proof.Machine

open Sys2Proof.Claims

/-! ## A fault stays -/

/-- No command but SRESET leaves the fault state (60_exceptions R188). -/
theorem err_eq_zero_of_exec {i : Instr} {s t : State} (hi : i ≠ .sreset) (h : exec i s = .next t) (hok : t.err = 0) :
    s.err = 0 := by
  by_contra herr
  obtain hrefused | hreset | ⟨r, rfl⟩ := exec_of_fault herr i
  · cases hrefused.symm.trans h
    exact herr hok
  · exact hi hreset
  · cases h
    exact herr hok

theorem err_eq_zero_of_runAll {is : List Instr} {s t : State} (his : .sreset ∉ is) (h : runAll is s = .next t)
    (hok : t.err = 0) : s.err = 0 := by
  induction is generalizing s with
  | nil =>
    cases h
    exact hok
  | cons i is ih =>
    obtain ⟨hi, hrest⟩ := not_or.1 (mt List.mem_cons.2 his)
    obtain ⟨u, hexec, hrun⟩ := runAll_cons_eq_next.1 h
    exact err_eq_zero_of_exec (Ne.symm hi) hexec (ih hrest hrun)

/-! ## PFLUSH -/

theorem pflush_empties_acc {s t : State} (h : exec .pflush s = .next t) (hok : t.err = 0) : t.nb = 0 := by
  unfold exec at h
  obtain ⟨-, rfl⟩ | ⟨hne, rfl⟩ := command_cases h
  · split_ifs at hok ⊢ with hnb hfull
    · exact hnb
    · exact absurd hok (raise_err_ne_zero _ _ _)
    · rfl
  · exact absurd hok hne

theorem encodeFinished_end {bytes : List Byte} {s t : State} (h : encodeFinished bytes s t) : t.err = 0 ∧ t.nb = 0 := by
  obtain ⟨hrun, d, hrsp⟩ := h
  obtain ⟨u, -, hrest⟩ := runAll_cons_eq_next.1 hrun
  obtain ⟨v, -, hlast⟩ := runAll_append_eq_next.1 hrest
  obtain ⟨w, hflush, hnil⟩ := runAll_cons_eq_next.1 hlast
  cases hnil
  have hok := err_eq_zero_of_response (fun r => Instr.noConfusion) hflush hrsp (.inl rfl)
  exact ⟨hok, pflush_empties_acc hflush hok⟩

/-! ## The walk to its end -/

/-- The walk has not faulted: the cursor has passed no more bits than there are, and if all, it stands at the root. -/
structure WalkSound (s : State) : Prop where
  err : s.err = 0
  dpos : s.dpos.toNat ≤ s.dbits.toNat
  root : s.dpos = s.dbits → s.cur = s.root

theorem WalkSound.of_respond {s : State} (h : WalkSound s) (st : Status) (d : Word) : WalkSound (respond st d s) :=
  ⟨h.err, h.dpos, h.root⟩

/-- A pass that goes on has been checked at the last bit (44_decoder R131, line 15). -/
theorem WalkSound.of_moved {s t : State} {d : Word} (h : WalkSound s) (hleft : s.dpos.toNat < s.dbits.toNat)
    (hw : walkPass s = .moved t d) : WalkSound t := by
  obtain ⟨hdpos, hdbits⟩ := walkPass_dpos hw hleft
  refine ⟨by rw [walkPass_moved hw]; exact h.err, by rw [hdpos, hdbits]; exact hleft, ?_⟩
  obtain ⟨-, hp⟩ | ⟨-, -, hp⟩ | ⟨-, c, -, -, ⟨-, hp⟩ | ⟨-, hp⟩⟩ | ⟨-, c, -, -, ⟨-, -, hp⟩ | ⟨hnot, hp⟩⟩ :=
    walkPass_cases s <;> rw [hp] at hw <;> cases hw
  · exact fun _ => rfl
  · exact fun hlast => by_contra fun hne => hnot ⟨hlast, Ne.symm hne⟩

/-- With no bit left the walk has ended at the root. -/
theorem WalkSound.endsAtRoot {s : State} (h : WalkSound s) (hend : s.dbits.toNat ≤ s.dpos.toNat) : endsAtRoot s := by
  have hlast : s.dpos = s.dbits := BitVec.eq_of_toNat_eq (Nat.le_antisymm h.dpos hend)
  exact ⟨h.err, dend_iff.2 hlast, atRoot_iff.2 (h.root hlast)⟩

/-- DRUN ends in a fault, or responds with OUTLEN at the end of the walk. -/
theorem drun_outcome {s t : State} (h : WalkSound s) (hexec : exec .drun s = .next t) :
    Faulted t ∨ (endsAtRoot t ∧ t.rsp = some ⟨.ok, t.outLen.setWidth 32⟩) := by
  cases (exec_drun_of_ok h.err).symm.trans hexec
  exact runWalk_induction (P := WalkSound)
    (Q := fun u => Faulted u ∨ (endsAtRoot u ∧ u.rsp = some ⟨.ok, u.outLen.setWidth 32⟩))
    (fun _ _ _ hu hleft hw => hu.of_moved hleft hw)
    (fun _ _ _ _ hw => .inl ⟨(walkPass_raised hw).1, (walkPass_raised hw).2.1⟩)
    (fun _ hu hend => .inr ⟨(hu.of_respond _ _).endsAtRoot hend, rfl⟩) h

/-- DRUN that responds other than FAULT has ended the walk, and its response is OUTLEN. -/
theorem drun_end {s t : State} {st : Status} {d : Word} (h : WalkSound s) (hexec : exec .drun s = .next t)
    (hrsp : t.rsp = some ⟨st, d⟩) (hst : st ≠ .fault) : endsAtRoot t ∧ d = t.outLen.setWidth 32 := by
  obtain ⟨-, hf⟩ | ⟨hend, hok⟩ := drun_outcome h hexec
  · rw [hf] at hrsp
    cases hrsp
    exact absurd rfl hst
  · rw [hok] at hrsp
    cases hrsp
    exact ⟨hend, rfl⟩

/-- Everything DSTEP can do outside the fault state: respond END, or one pass of the walk. -/
theorem exec_dstep_cases {s t : State} (herr : s.err = 0) (h : exec .dstep s = .next t) :
    (s.dbits.toNat ≤ s.dpos.toNat ∧ t = respond .ended 0 s) ∨
    (s.dpos.toNat < s.dbits.toNat ∧ walkPass s = .raised t) ∨
    (s.dpos.toNat < s.dbits.toNat ∧ ∃ u d, walkPass s = .moved u d ∧ t = respond .ok d u) := by
  by_cases hend : s.dbits.toNat ≤ s.dpos.toNat
  · cases (exec_dstep_of_exhausted herr hend).symm.trans h
    exact .inl ⟨hend, rfl⟩
  · have hleft := Nat.lt_of_not_le hend
    cases hw : walkPass s with
    | raised u =>
      cases (exec_dstep_of_raised herr hleft hw).symm.trans h
      exact .inr (.inl ⟨hleft, rfl⟩)
    | moved u d =>
      cases (exec_dstep_of_moved herr hleft hw).symm.trans h
      exact .inr (.inr ⟨hleft, u, d, rfl, rfl⟩)

theorem WalkSound.of_dstep {s t : State} (h : WalkSound s) (hexec : exec .dstep s = .next t) (hok : t.err = 0) :
    WalkSound t := by
  obtain ⟨-, rfl⟩ | ⟨-, hw⟩ | ⟨hleft, u, d, hw, rfl⟩ := exec_dstep_cases h.err hexec
  · exact h.of_respond _ _
  · exact absurd hok (walkPass_raised hw).1
  · exact (h.of_moved hleft hw).of_respond _ _

/-- DSTEP that responds END has changed nothing, at the end of the walk. -/
theorem dstep_end {s t : State} {d : Word} (h : WalkSound s) (hexec : exec .dstep s = .next t)
    (hrsp : t.rsp = some ⟨.ended, d⟩) : s.dbits.toNat ≤ s.dpos.toNat ∧ t = respond .ended 0 s := by
  obtain hend | ⟨-, hw⟩ | ⟨-, u, d', -, rfl⟩ := exec_dstep_cases h.err hexec
  · exact hend
  · rw [(walkPass_raised hw).2.1] at hrsp
    cases hrsp
  · cases hrsp

/-- DSTEP after DSTEP without a fault: the walk goes on, over the same count. -/
theorem WalkSound.of_dsteps {s t : State} {k : Nat} (h : WalkSound s)
    (hrun : runAll (List.replicate k .dstep) s = .next t) (hok : t.err = 0) : WalkSound t ∧ SameButWalk s t := by
  induction k generalizing s with
  | zero =>
    cases hrun
    exact ⟨h, rfl⟩
  | succ k ih =>
    obtain ⟨u, hexec, hrest⟩ := runAll_cons_eq_next.1 hrun
    have hu : u.err = 0 := err_eq_zero_of_runAll (by simp) hrest hok
    obtain ⟨ht, hsame⟩ := ih (h.of_dstep hexec hu) hrest
    exact ⟨ht, (SameButWalk.of_dstep hexec).trans hsame⟩

/-! ## A decode session -/

theorem walkSound_decodeReady {s : State} (herr : s.err = 0) (count : Count) : WalkSound (decodeReady count s) :=
  ⟨herr, Nat.zero_le _, fun _ => rfl⟩

/-- A count staged and latched outside the fault state. -/
theorem eq_decodeReady {s t : State} {count : Count} (herr : s.err = 0)
    (h : runAll (dset64 count ++ [.dstart]) s = .next t) : t = decodeReady count s := by
  have hready : runAll (dset64 count ++ [.dstart]) s = .next (decodeReady count s) :=
    runAll_append_eq_next.2 ⟨_, runAll_dset64 herr count, runAll_cons_eq_next.2 ⟨_, exec_dstart_of_ok herr, rfl⟩⟩
  cases h.symm.trans hready
  rfl

/-- The end of the walk, in the words of 70_reset R203. -/
theorem endsAtRoot_iff {s : State} : endsAtRoot s ↔ s.err = 0 ∧ s.dpos = s.dbits ∧ s.cur = s.root := by
  rw [endsAtRoot, dend_iff, atRoot_iff]

theorem decodeFinished_end {count : Count} {last : Instr} {s t : State} (h : decodeFinished count last s t) :
    endsAtRoot t ∧ t.dbits = count := by
  obtain ⟨⟨k, hrun⟩, hlast⟩ := h
  obtain ⟨u, hrun, hend⟩ := runAll_append_eq_next.1 hrun
  obtain ⟨v, hready, hsteps⟩ := runAll_append_eq_next.1 hrun
  obtain ⟨w, hexec, hnil⟩ := runAll_cons_eq_next.1 hend
  cases hnil
  have hok : t.err = 0 := by
    obtain ⟨rfl, d, hrsp⟩ | ⟨rfl, d, hrsp⟩ := hlast
    · exact err_eq_zero_of_response (fun r => Instr.noConfusion) hexec hrsp (.inl rfl)
    · exact err_eq_zero_of_response (fun r => Instr.noConfusion) hexec hrsp (.inr rfl)
  have hu : u.err = 0 := by
    obtain ⟨rfl, -⟩ | ⟨rfl, -⟩ := hlast <;> exact err_eq_zero_of_exec Instr.noConfusion hexec hok
  have hv : v.err = 0 := err_eq_zero_of_runAll (by simp) hsteps hu
  have hs : s.err = 0 := err_eq_zero_of_runAll (by simp [dset64]) hready hv
  obtain rfl := eq_decodeReady hs hready
  obtain ⟨hsound, hsame⟩ := (walkSound_decodeReady hs count).of_dsteps hsteps hu
  have hcount : u.dbits = count := by rw [hsame]; rfl
  obtain ⟨rfl, d, hrsp⟩ | ⟨rfl, d, hrsp⟩ := hlast
  · obtain ⟨hroot, -⟩ := drun_end hsound hexec hrsp Status.noConfusion
    exact ⟨hroot, by rw [SameButWalk.of_drun hexec]; exact hcount⟩
  · obtain ⟨hexhausted, rfl⟩ := dstep_end hsound hexec hrsp
    exact ⟨(hsound.of_respond _ _).endsAtRoot hexhausted, hcount⟩

end Sys2Proof.Machine
end

section
/-! SUPPORT. The host's sessions (47_host_reference R168): what it reads out, command by command, is what the buffers hold,
and a session it has finished has ended as 70_reset R203 says. -/

namespace Sys2Proof.Machine

open Sys2Proof.Claims

/-! ## Issuing commands -/

/-- The last command of a list that succeeds: its word comes last. -/
theorem issueAll_concat_eq_got {is : List Instr} {i : Instr} {s t : State} {ds : List Word} :
    issueAll (is ++ [i]) s = .got ds t ↔
      ∃ es u r, issueAll is s = .got es u ∧ issue i u = .got r t ∧ ds = es ++ [r.data] := by
  rw [issueAll_append]
  simp only [issueAll, Reply.andThen_eq_got]
  constructor
  · rintro ⟨es, u, hes, ds', v, ⟨r, w, hr, _, _, hnil, hv⟩, h⟩
    cases hnil
    cases hv
    cases h
    exact ⟨es, u, r, hes, hr, rfl⟩
  · rintro ⟨es, u, r, hes, hr, rfl⟩
    exact ⟨es, u, hes, [r.data], t, ⟨r, t, hr, _, _, rfl, rfl⟩, rfl⟩

/-- A command but RDREG that succeeds leaves no fault standing. -/
theorem err_eq_zero_of_issue {i : Instr} {s t : State} {r : Response} (hi : ∀ x, i ≠ .rdreg x)
    (h : issue i s = .got r t) : t.err = 0 := by
  obtain ⟨hexec, hrsp, hst⟩ := issue_eq_got h
  exact err_eq_zero_of_response hi hexec hrsp hst

/-! ## Reading out -/

/-- `s` with another response. -/
def withRsp (r : Option Response) (s : State) : State := { s with rsp := r }

/-- A count is its two halves (20_memory R42). -/
theorem halves_eq (c : Count) : ((high32 c).setWidth 64 <<< 32) ||| (low32 c).setWidth 64 = c := by
  apply BitVec.eq_of_toNat_eq
  have hc := c.isLt
  have hhigh : ((high32 c).setWidth 64 <<< 32 : Count).toNat = c.toNat / 2 ^ 32 * 2 ^ 32 := by
    rw [BitVec.toNat_shiftLeft, BitVec.toNat_setWidth_of_le (by decide), high32_toNat, Nat.shiftLeft_eq]
    omega
  have hlow : ((low32 c).setWidth 64 : Count).toNat = c.toNat % 2 ^ 32 := by
    rw [BitVec.toNat_setWidth_of_le (by decide), low32_toNat]
    rfl
  rw [BitVec.toNat_or, hhigh, hlow, mul_pow_or _ _ _ (Nat.mod_lt _ (by decide))]
  exact Nat.div_add_mod' c.toNat (2 ^ 32)

/-- The host reads EBITS through its two registers, in every state. -/
theorem readCount_ebits (s : State) :
    readCount .ebitsLo .ebitsHi s = .got s.ebits (respond .ok (high32 s.ebits) (respond .ok (low32 s.ebits) s)) := by
  have hread : readCount .ebitsLo .ebitsHi s =
    .got (((high32 s.ebits).setWidth 64 <<< 32) ||| (low32 s.ebits).setWidth 64) (respond .ok (high32 s.ebits) (respond .ok (low32 s.ebits) s)) := rfl
  rw [hread, halves_eq]

/-- The command `read` answers with the byte that `byte` names, at each of the indices, whatever the last response was. -/
def Reads (read : BitVec 24 → Instr) (byte : Nat → Byte) (is : List Nat) (s : State) : Prop :=
  ∀ r, ∀ i ∈ is, issue (read (BitVec.ofNat 24 i)) (withRsp r s) =
    .got ⟨.ok, (byte i).setWidth 32⟩ (withRsp (some ⟨.ok, (byte i).setWidth 32⟩) s)

theorem issueAll_reads {read : BitVec 24 → Instr} {byte : Nat → Byte} {is : List Nat} {s : State}
    (h : Reads read byte is s) (r : Option Response) :
    ∃ r', issueAll (is.map fun i => read (BitVec.ofNat 24 i)) (withRsp r s) =
      .got (is.map fun i => (byte i).setWidth 32) (withRsp r' s) := by
  induction is generalizing r with
  | nil => exact ⟨r, rfl⟩
  | cons i is ih =>
    obtain ⟨r', hrest⟩ := ih (fun r j hj => h r j (List.mem_cons_of_mem i hj)) (some ⟨.ok, (byte i).setWidth 32⟩)
    refine ⟨r', ?_⟩
    rw [List.map_cons, issueAll, h r i List.mem_cons_self, Reply.andThen_got, hrest, Reply.andThen_got, List.map_cons]

/-- Reading `n` bytes gives the `n` bytes and changes nothing but the response. -/
theorem readBytes_of_reads {read : BitVec 24 → Instr} {byte : Nat → Byte} {n : Nat} {s : State}
    (h : Reads read byte (List.range n) s) :
    ∃ r, readBytes read n s = .got ((List.range n).map byte) (withRsp r s) := by
  obtain ⟨r, hall⟩ := issueAll_reads h s.rsp
  have hself : withRsp s.rsp s = s := rfl
  have hbyte : (fun d : Word => d.setWidth 8) ∘ (fun i => (byte i).setWidth 32) = byte := by
    funext i
    exact BitVec.setWidth_setWidth_of_le (byte i) (by decide)
  rw [hself] at hall
  exact ⟨r, by rw [readBytes, hall, Reply.andThen_got, List.map_map, hbyte]⟩

theorem toNat_ofNat_of_lt_cap {i : Nat} {len cap : BitVec 25} (hi : i < len.toNat) (hlen : len.toNat ≤ cap.toNat)
    (hcap : cap.toNat ≤ Config.capMax) : (BitVec.ofNat 24 i).toNat = i :=
  Nat.mod_eq_of_lt (by rw [Config.capMax] at hcap; omega)

/-- Through PAYR the host reads the payload. -/
theorem readBytes_payr {s : State} (hi : s.Inv) (herr : s.err = 0) :
    ∃ r, readBytes .payr s.payLen.toNat s = .got (payloadBytes s) (withRsp r s) := by
  refine readBytes_of_reads fun r i hmem => ?_
  have hlt := List.mem_range.1 hmem
  have hidx := toNat_ofNat_of_lt_cap hlt hi.payLen hi.payCap.2
  have hexec := exec_payr_of_lt (s := withRsp r s) (idx := BitVec.ofNat 24 i) herr (hidx.trans_lt hlt)
  rw [hidx] at hexec
  simp only [issue, hexec]
  rfl

/-- Through OUTR the host reads the output. -/
theorem readBytes_outr {s : State} (hi : s.Inv) (herr : s.err = 0) :
    ∃ r, readBytes .outr s.outLen.toNat s = .got (outputBytes s) (withRsp r s) := by
  refine readBytes_of_reads fun r i hmem => ?_
  have hlt := List.mem_range.1 hmem
  have hidx := toNat_ofNat_of_lt_cap hlt hi.outLen hi.outCap.2
  have hexec := exec_outr_of_lt (s := withRsp r s) (idx := BitVec.ofNat 24 i) herr (hidx.trans_lt hlt)
  rw [hidx] at hexec
  simp only [issue, hexec]
  rfl

/-- A length of a buffer in a response is the length. -/
theorem length_setWidth_toNat (len : BitVec 25) : (len.setWidth 32 : Word).toNat = len.toNat :=
  BitVec.toNat_setWidth_of_le (by decide)

/-! ## The encode session -/

/-- An encode session that succeeds reads out EBITS and the payload. -/
theorem encodeOnBlock_eq_got {codes : List (Sym × List Bool)} {bytes payload : List Byte} {s t : State} {count : Count}
    (hi : s.Inv) (h : encodeOnBlock codes bytes s = .got (count, payload) t) :
    t.err = 0 ∧ count = t.ebits ∧ payload = payloadBytes t := by
  have hlist : loadCodes codes ++ encodeSession bytes = (loadCodes codes ++ .pclr :: estr bytes) ++ [.pflush] := by
    rw [encodeSession, List.append_assoc, List.cons_append]
  rw [encodeOnBlock, hlist] at h
  obtain ⟨ds, u, hall, h⟩ := Reply.andThen_eq_got.1 h
  obtain ⟨es, v, r, -, hflush, -⟩ := issueAll_concat_eq_got.1 hall
  have herr : u.err = 0 := err_eq_zero_of_issue (fun _ => Instr.noConfusion) hflush
  have hu : u.Inv := runAll_keeps_inv hi (issueAll_eq_got hall).1
  rw [readCount_ebits, Reply.andThen_got, issue_rdreg, Reply.andThen_got, readReg, length_setWidth_toNat] at h
  have hinv := ((hu.of_respond .ok (low32 u.ebits)).of_respond .ok (high32 u.ebits)).of_respond .ok (u.payLen.setWidth 32)
  obtain ⟨r', hread⟩ := readBytes_payr hinv herr
  obtain ⟨bs, w, hbs, heq⟩ := Reply.andThen_eq_got.1 h
  cases hread.symm.trans hbs
  cases heq
  exact ⟨herr, rfl, rfl⟩

/-! ## The decode session -/

/-- Where commands that end in a count staged and latched succeed, the walk is ready. -/
theorem decodeReady_of_issueAll {is : List Instr} {s t : State} {count : Count} {ds : List Word} (hi : s.Inv)
    (h : issueAll (is ++ dset64 count ++ [.dstart]) s = .got ds t) : WalkSound t ∧ t.Inv ∧ t.dbits = count := by
  obtain ⟨es, u, r, -, hstart, -⟩ := issueAll_concat_eq_got.1 h
  have hok : t.err = 0 := err_eq_zero_of_issue (fun _ => Instr.noConfusion) hstart
  have hrun := (issueAll_eq_got h).1
  have ht : t.Inv := runAll_keeps_inv hi hrun
  rw [List.append_assoc] at hrun
  obtain ⟨w, -, hready⟩ := runAll_append_eq_next.1 hrun
  have hw : w.err = 0 := err_eq_zero_of_runAll (by simp [dset64]) hready hok
  obtain rfl := eq_decodeReady hw hready
  exact ⟨walkSound_decodeReady hw count, ht, rfl⟩

/-- The commands of a decode session: those up to DSTART, then DRUN. -/
theorem append_decodeSession (is : List Instr) (count : Count) :
    is ++ decodeSession count = (is ++ dset64 count ++ [.dstart]) ++ [.drun] := by
  simp only [decodeSession, List.append_assoc, List.cons_append, List.nil_append]

/-- A decode session that succeeds reads out the output. -/
theorem decodeOnBlock_eq_got {table : FreqTable} {tree : HuffTree} {count : Count} {payload out : List Byte}
    {s t : State} (hi : s.Inv) (h : decodeOnBlock table tree count payload s = .got out t) :
    t.err = 0 ∧ t.dbits = count ∧ out = outputBytes t := by
  rw [decodeOnBlock, append_decodeSession] at h
  obtain ⟨ds, u, hall, hread⟩ := Reply.andThen_eq_got.1 h
  obtain ⟨es, v, r, hready, hdrun, rfl⟩ := issueAll_concat_eq_got.1 hall
  obtain ⟨hsound, hv, hcount⟩ := decodeReady_of_issueAll hi hready
  obtain ⟨hexec, hrsp, hst⟩ := issue_eq_got hdrun
  have hnotFault : r.st ≠ .fault := by obtain hst | hst := hst <;> simp [hst]
  obtain ⟨hroot, hdata⟩ := drun_end hsound hexec hrsp hnotFault
  have hlen : ((es ++ [r.data]).getLastD 0).toNat = u.outLen.toNat := by
    rw [List.getLastD_concat, hdata, length_setWidth_toNat]
  obtain ⟨r', hbytes⟩ := readBytes_outr (exec_keeps_inv hv hexec) hroot.1
  rw [hlen, hbytes] at hread
  cases hread
  have hdbits : u.dbits = v.dbits := by rw [SameButWalk.of_drun hexec]
  exact ⟨hroot.1, hdbits.trans hcount, rfl⟩

/-- Settles O59: each session's read-out gives what the buffers hold after it. -/
theorem readOutGivesBuffers : Obligations.ReadOutGivesBuffers := by
  unfold Obligations.ReadOutGivesBuffers
  exact ⟨fun _ _ _ _ _ _ => encodeOnBlock_eq_got, fun _ _ _ _ _ _ _ => decodeOnBlock_eq_got⟩

/-! ## The decode session by single steps -/

theorem exec_drun_respond {s : State} (herr : s.err = 0) (st : Status) (d : Word) :
    exec .drun (respond st d s) = exec .drun s := by
  rw [exec_drun_of_ok herr, exec_drun_of_ok (s := respond st d s) herr]
  exact congrArg _ (runWalk_respond st d _ s)

/-- DSTEP until END stops where DRUN does, but for the response. -/
theorem stepUntilEnd_eq_got {n : Nat} {s t : State} (hi : s.Inv) (h : WalkSound s)
    (hgot : stepUntilEnd n s = .got () t) :
    endsAtRoot t ∧ t.Inv ∧ exec .drun s = .next (respond .ok (t.outLen.setWidth 32) t) := by
  induction n generalizing s with
  | zero => cases hgot
  | succ n ih =>
    obtain ⟨r, u, hissue, hnext⟩ := Reply.andThen_eq_got.1 hgot
    obtain ⟨hexec, hrsp, -⟩ := issue_eq_got hissue
    have hu := err_eq_zero_of_issue (fun _ => Instr.noConfusion) hissue
    have hinv := exec_keeps_inv hi hexec
    obtain ⟨hend, rfl⟩ | ⟨-, hw⟩ | ⟨hleft, v, d, hw, rfl⟩ := exec_dstep_cases h.err hexec
    · cases hrsp
      cases hnext
      exact ⟨(h.of_respond _ _).endsAtRoot hend, hinv, exec_drun_of_exhausted h.err hend⟩
    · exact absurd hu (walkPass_raised hw).1
    · cases hrsp
      obtain ⟨hroot, ht, hdrun⟩ := ih hinv ((h.of_moved hleft hw).of_respond _ _) hnext
      have hsame : exec .drun (respond .ok d v) = exec .drun v := exec_drun_respond (s := v) hu .ok d
      exact ⟨hroot, ht, (exec_drun_of_moved h.err hleft hw).trans (hsame.symm.trans hdrun)⟩

/-- The host that steps to END reads the output at the root, and the host that runs DRUN reads the same. -/
theorem decodeByStepsOnBlock_eq_got {table : FreqTable} {tree : HuffTree} {count : Count} {payload out : List Byte}
    {s t : State} (hi : s.Inv) (h : decodeByStepsOnBlock table tree count payload s = .got out t) :
    endsAtRoot t ∧ out = outputBytes t ∧ ∃ u, decodeOnBlock table tree count payload s = .got out u := by
  obtain ⟨ds, u, hready, h⟩ := Reply.andThen_eq_got.1 h
  obtain ⟨_, v, hsteps, hread⟩ := Reply.andThen_eq_got.1 h
  obtain ⟨hsound, hu, -⟩ := decodeReady_of_issueAll hi hready
  obtain ⟨hroot, hv, hdrun⟩ := stepUntilEnd_eq_got hu hsound hsteps
  have hbytes (d : Word) : ∃ r, readBytes .outr v.outLen.toNat (respond .ok d v) = .got (outputBytes v) (withRsp r v) :=
    readBytes_outr (hv.of_respond .ok d) hroot.1
  obtain ⟨r, hsteps⟩ := hbytes (readReg v .outLen)
  rw [issue_rdreg, Reply.andThen_got, readReg, length_setWidth_toNat] at hread
  cases hsteps.symm.trans hread
  obtain ⟨r', hrun⟩ := hbytes (v.outLen.setWidth 32)
  have hissue : issue .drun u = .got ⟨.ok, v.outLen.setWidth 32⟩ (respond .ok (v.outLen.setWidth 32) v) := by
    simp [issue_of_next hdrun (respond_rsp ..)]
  refine ⟨hroot, rfl, withRsp r' v, ?_⟩
  rw [decodeOnBlock, append_decodeSession, issueAll_concat_eq_got.2 ⟨ds, u, _, hready, hissue, rfl⟩, Reply.andThen_got,
    List.getLastD_concat, length_setWidth_toNat, hrun]

/-- Settles O49: PFLUSH empties ACC; a walk that uses up its bits without a fault, by DSTEP or by DRUN, stands at the root,
and the two hosts' walks are one. -/
theorem decodeSessionEndsAtRoot : Obligations.DecodeSessionEndsAtRoot := by
  unfold Obligations.DecodeSessionEndsAtRoot
  refine ⟨fun _ _ _ => encodeFinished_end, fun count last s t h => ?_, fun s t d hi herr hstart hexec hrsp => ?_,
    fun _ _ _ _ _ _ _ => decodeByStepsOnBlock_eq_got⟩
  · obtain ⟨hend, hcount⟩ := decodeFinished_end h
    obtain ⟨-, hdpos, hcur⟩ := endsAtRoot_iff.1 hend
    exact ⟨hend, hdpos.trans hcount, hcount, hcur⟩
  · have hsound : WalkSound s := ⟨herr, hi.dpos, fun hlast => hstart.resolve_left (not_not_intro hlast)⟩
    obtain ⟨hend, hdata⟩ := drun_end hsound hexec hrsp Status.noConfusion
    obtain ⟨-, hdpos, hcur⟩ := endsAtRoot_iff.1 hend
    exact ⟨hend, hdpos, hcur, hdata⟩

end Sys2Proof.Machine
end
